-- ==== Sys2Proof/Word.lean ====
section
/-! DEFINITION. The word types and the index types of the block (00_scope.md rules R8, R11). -/

namespace Sys2Proof

/-- A byte: 8 bits, unsigned (R11). -/
abbrev Byte := BitVec 8

/-- A 16-bit field: the frequency register or a timeout (R8). -/
abbrev Half := BitVec 16

/-- The device's address on the 2-wire bus: 7 bits (R6, R100). -/
abbrev BusAddr := BitVec 7

/-- An abstract channel, 0 to 23 (R8). -/
abbrev Chan := Fin 24

/-- A timer slice, 0 to 7 (R8). -/
abbrev SliceIx := Fin 8

/-- A channel of a timer slice, 0 or 1 (R8). -/
abbrev SliceChan := Fin 2

/-- A state-machine unit, 0 or 1 (R8). -/
abbrev UnitIx := Fin 2

/-- A lane of a unit, 0 to 3 (R8). -/
abbrev LaneIx := Fin 4

/-- A position of the engine in its iteration, 0 to 28 (R31). -/
abbrev Phase := Fin 29

/-- A physical pin, by number (R37, R38). -/
abbrev Pin := Nat

/-- A resource class: the timer channels or the soft-PWM lanes (R40). -/
inductive ResClass where
  | timer
  | lane
  deriving DecidableEq, Repr, Inhabited

end Sys2Proof
end

