-- ==== Sys2Proof/Config.lean ====
section
/-! DEFINITION. The parameters of 00_scope.md rule R9 in one record, the device that fixes them, and the
free values. An OPEN parameter is an opaque constant: no proof can see its value, so what is proved of the
device holds for every value the constant can take. A parameter the spec decides has the decided value. The
shared operations of the machine take the record as an argument, as R51 says. -/

namespace Sys2Proof

/-- The parameters of one resource class (R9, D20): clock in hertz, divider bounds and denominator, largest
cycle length, clock cycles per count. -/
structure ClassParams where
  fClk   : Rat
  divMin : Rat
  divMax : Rat
  divDen : Nat
  resMax : Nat
  cpc    : Nat

/-- The parameters of a device (R9). -/
structure Params where
  regfileSize         : Nat
  versionCode         : Byte
  whoamiCode          : Byte
  busAddr             : BusAddr
  ctrl0HwresetAtBoot  : Bool
  armWindowUs         : Nat
  resetGraceUs        : Nat
  wdtTimeoutUs        : Nat
  gammaTable          : Byte → Rat
  linearTable         : Byte → Rat
  gammaSelectInverted : Bool
  pinOfChannel        : Chan → Pin
  timerOfPin          : Pin → SliceIx × SliceChan
  unitAvailable       : UnitIx → Bool
  laneFreeAtBoot      : UnitIx → LaneIx → Bool
  timer               : ClassParams
  lane                : ClassParams

/-- The parameters of class `k`. -/
def Params.cls (P : Params) : ResClass → ClassParams
  | .timer => P.timer
  | .lane => P.lane

/-- The decided `REGFILE_SIZE`, the number of bytes of the register array (R9, decision D1, log 4). DESIGN CHOICE of the
spec. -/
def Config.regfileSize : Nat := 256

/-! ## Open parameters (R9, entry U13; log 12) -/

/-- `VERSION_CODE`, "fixed" (R28, D4). -/
opaque Config.versionCode : Byte

/-- `WHOAMI_CODE`, "fixed" (R28, D4). -/
opaque Config.whoamiCode : Byte

/-- `BUS_ADDR`, the device's own address on the bus (D6). -/
opaque Config.busAddr : BusAddr

/-- `RESET_GRACE_US` (D10). -/
opaque Config.resetGraceUs : Nat

/-- `WDT_TIMEOUT_US` (D27). -/
opaque Config.wdtTimeoutUs : Nat

/-- The raw gamma table, before it is held in 0 to 1 (D16). -/
opaque Config.gammaRaw : Byte → Rat

/-- The raw pin map, before it is held injective (D23). -/
opaque Config.pinRaw : Chan → Pin

/-- The numerator of the lane clock in hertz (D20). -/
opaque Config.laneClkNum : Nat

/-- The denominator of the lane clock in hertz (D20). -/
opaque Config.laneClkDen : Nat

/-- The smallest lane divider, in steps of 1/DIV_DEN (D20). -/
opaque Config.laneDivMinSteps : Nat

/-- How many steps of 1/DIV_DEN the largest lane divider lies above the smallest (D20). -/
opaque Config.laneDivSpanSteps : Nat

/-- The denominator of the lane divider (D20). -/
opaque Config.laneDivDen : Nat

/-- The largest lane cycle length in counts (D20). -/
opaque Config.laneResMax : Nat

/-- Clock cycles per count of the soft-PWM microprogram (D20). -/
opaque Config.laneCpc : Nat

/-! ## Free values (log 36) -/

/-- What byte `slot` of the driver object's shadow registers holds after the construction number `draw`, before
`Init()`: the spec states no value. Slots 0 to 47 are the local and chip bytes of the levels, 48 and 49 those
of CTRL0. -/
opaque Config.constructedByte : Nat → Nat → Byte

/-- What `pendingReset` holds after the construction number `draw`, before `Init()`: none, or the kind (true =
bootloader) and whether the next step is the confirm. -/
opaque Config.constructedPending : Nat → Option (Bool × Bool)

/-! ## The constraints the spec puts on open parameters, kept by construction (log 13) -/

/-- A rational held in 0 to 1 (R13: a duty is a fraction 0.0 to 1.0). -/
def Config.unitClamp (q : Rat) : Rat := if q < 0 then 0 else if 1 < q then 1 else q

/-- `GAMMA_TABLE`: duty fractions in [0, 1], nothing else assumed (R9, D16). -/
def Config.gammaTable (e : Byte) : Rat := Config.unitClamp (Config.gammaRaw e)

/-- `PIN_OF_CHANNEL`: an injective map (R9, D23). Every injective map is the value for the raw map equal to it. -/
def Config.pinOfChannel (n : Chan) : Pin :=
  if ∀ i j : Chan, Config.pinRaw i = Config.pinRaw j → i = j then Config.pinRaw n else n.val

/-- The lane parameters: a positive clock, a positive cycle count, divider bounds that are positive multiples of
1/DIV_DEN in order (R40: a divider is a multiple of 1/DIV_DEN), and a cycle length of at least 1 (R40). -/
def Config.laneParams : ClassParams where
  fClk := (max 1 Config.laneClkNum : Nat) / (max 1 Config.laneClkDen : Nat)
  divMin := (max 1 Config.laneDivMinSteps : Nat) / (max 1 Config.laneDivDen : Nat)
  divMax := (max 1 Config.laneDivMinSteps + Config.laneDivSpanSteps : Nat) / (max 1 Config.laneDivDen : Nat)
  divDen := max 1 Config.laneDivDen
  resMax := max 1 Config.laneResMax
  cpc := max 1 Config.laneCpc

/-! ## Decided parameters -/

/-- `LINEAR_TABLE[i] = i / 255` (R9, D16, log 19). -/
def Config.linearTable (e : Byte) : Rat := (e.toNat : Rat) / 255

/-- `TIMER_OF_PIN`: slice `(p >> 1) mod 8`, channel `p mod 2` (R9, R201, D23, entry G2, log 25). -/
def Config.timerOfPin (p : Pin) : SliceIx × SliceChan :=
  (⟨(p >>> 1) % 8, Nat.mod_lt _ (by decide)⟩, ⟨p % 2, Nat.mod_lt _ (by decide)⟩)

/-- The timer parameters: 125 MHz, divider 1 to 255 + 15/16 in sixteenths, cycle length at most 65536 (R9, R10,
D20, entry G3, log 23). -/
def Config.timerParams : ClassParams where
  fClk := 125000000
  divMin := 1
  divMax := 255 + 15 / 16
  divDen := 16
  resMax := 65536
  cpc := 1

/-- The device: the open parameters opaque, the decided ones at the spec's decided values (R9). -/
def Config.device : Params where
  regfileSize := Config.regfileSize
  versionCode := Config.versionCode
  whoamiCode := Config.whoamiCode
  busAddr := Config.busAddr
  ctrl0HwresetAtBoot := true
  armWindowUs := 5000000
  resetGraceUs := Config.resetGraceUs
  wdtTimeoutUs := Config.wdtTimeoutUs
  gammaTable := Config.gammaTable
  linearTable := Config.linearTable
  gammaSelectInverted := false
  pinOfChannel := Config.pinOfChannel
  timerOfPin := Config.timerOfPin
  unitAvailable := fun _ => true
  laneFreeAtBoot := fun _ _ => true
  timer := Config.timerParams
  lane := Config.laneParams

/-- What the spec requires of a device's parameters: a register array that holds the handshake register and is reached by
one address byte (R20, R29), an injective pin map (R9), tables of duty fractions (R13), divider bounds that are positive
multiples of 1/DIV_DEN in order, cycle lengths of at least 1 (R40), positive clocks, the timer's one clock per count
(R205), and a timer whose floor frequency lies between 7 and 8 Hz (R10). -/
structure Params.WellFormed (P : Params) : Prop where
  regfileHolds : 0xDD < P.regfileSize
  regfileByte  : P.regfileSize ≤ 256
  pinInjective : ∀ i j : Chan, P.pinOfChannel i = P.pinOfChannel j → i = j
  gammaUnit    : ∀ e, 0 ≤ P.gammaTable e ∧ P.gammaTable e ≤ 1
  linearUnit   : ∀ e, 0 ≤ P.linearTable e ∧ P.linearTable e ≤ 1
  clkPos       : ∀ k, 0 < (P.cls k).fClk
  divMinPos    : ∀ k, 0 < (P.cls k).divMin
  divOrder     : ∀ k, (P.cls k).divMin ≤ (P.cls k).divMax
  divDenPos    : ∀ k, 0 < (P.cls k).divDen
  divMinSteps  : ∀ k, ((P.cls k).divMin * (P.cls k).divDen).isInt
  divMaxSteps  : ∀ k, ((P.cls k).divMax * (P.cls k).divDen).isInt
  resMaxPos    : ∀ k, 1 ≤ (P.cls k).resMax
  cpcPos       : ∀ k, 1 ≤ (P.cls k).cpc
  timerCpc     : P.timer.cpc = 1
  timerFloor   : 7 ≤ P.timer.fClk / (P.timer.divMax * P.timer.resMax) ∧
    P.timer.fClk / (P.timer.divMax * P.timer.resMax) ≤ 8

end Sys2Proof
end

