-- ==== Sys2Proof/Syntax.lean ====
section
/-! DEFINITION. The operations of spec/opcode_table.json, one constructor for each mnemonic. The channel of a bus
operation is the one its address names (30_encoding.md rule R103), so it is a `Chan`; an argument of a function or
host call is what a caller passes, a `Nat` that WellFormed.lean checks (91_not_in_source.md entry N14). -/

namespace Sys2Proof

/-- An operation of the block (30_encoding.md rules R107, R108). -/
inductive Instr where
  -- format E: events with no payload
  /-- `START_W` (R131). -/
  | startW
  /-- `FIN` (R149). -/
  | fin
  -- format A: a byte received outside the data phase
  /-- `SETADDR(b)` (R132). -/
  | setaddr (b : Byte)
  -- format W: a byte received in the data phase; the constructor and its address operand are the cursor's class
  /-- `WR.LEVEL` of channel `n` (R137). -/
  | wrLevel (n : Chan) (b : Byte)
  /-- `WR.CTRL0` (R138). -/
  | wrCtrl0 (b : Byte)
  /-- `WR.CTRL1` (R139). -/
  | wrCtrl1 (b : Byte)
  /-- `WR.FREQ.LO` (R140). -/
  | wrFreqLo (b : Byte)
  /-- `WR.FREQ.HI` (R140). -/
  | wrFreqHi (b : Byte)
  /-- `WR.UNDOC` at the unlisted address `a` (R141). -/
  | wrUndoc (a : Byte) (b : Byte)
  /-- `WR.ID.VERSION` (R135). -/
  | wrIdVersion (b : Byte)
  /-- `WR.ID.WHOAMI` (R135). -/
  | wrIdWhoami (b : Byte)
  /-- `WR.CFG.MODE` of channel `n` (R142). -/
  | wrCfgMode (n : Chan) (b : Byte)
  /-- `WR.CFG.LIMIT` of channel `n` (R143). -/
  | wrCfgLimit (n : Chan) (b : Byte)
  /-- `WR.CFG.TLO` of channel `n` (R144). -/
  | wrCfgTlo (n : Chan) (b : Byte)
  /-- `WR.CFG.THI` of channel `n` (R144). -/
  | wrCfgThi (n : Chan) (b : Byte)
  /-- `HS.ARM`: 0x11 at 0xDD (R145). -/
  | hsArm
  /-- `HS.RESET`: 0x22 at 0xDD (R146). -/
  | hsReset
  /-- `HS.BOOTSEL`: 0x33 at 0xDD (R147). -/
  | hsBootsel
  /-- `HS.OTHER`: any other byte at 0xDD (R148). -/
  | hsOther (b : Byte)
  -- format R: a read request
  /-- `RD` at cursor `c` (R134). -/
  | rd (c : Byte)
  -- format M: engine phases
  /-- `WDT.FEED`, phase 0 (R161). -/
  | wdtFeed
  /-- `HS.EVAL`, phase 1 (R162). -/
  | hsEval
  /-- `REG.RESET`, phase 2 (R163). -/
  | regReset
  /-- `CH.UPDATE n`, phase 3 + n (R164). -/
  | chUpdate (n : Chan)
  /-- `FREQ.APPLY`, phase 27 (R165). -/
  | freqApply
  /-- `OE.APPLY`, phase 28 (R166). -/
  | oeApply
  -- format F: allocator functions
  /-- `AssignChannel(n)` (R201). -/
  | assignChannel (n : Nat)
  /-- `ApplyFreq(f)` (R204). -/
  | applyFreq (f : Nat)
  /-- `SetLevel(n, d)` (R207). -/
  | setLevel (n : Nat) (d : Rat)
  /-- `GetLevel(n)` (R208). -/
  | getLevel (n : Nat)
  /-- `EnableOutputs(e)` (R209). -/
  | enableOutputs (e : Bool)
  /-- `IsConfigured(n)` (R203). -/
  | isConfigured (n : Nat)
  -- format H: host driver calls
  /-- `Host.Construct(address)` (R241). -/
  | hostConstruct (addr : Nat)
  /-- `Host.Init()` (R241). -/
  | hostInit
  /-- `Host.Set(c, v)` (R242). -/
  | hostSet (c : Nat) (v : Nat)
  /-- `Host.Get(c)` (R243). -/
  | hostGet (c : Nat)
  /-- `Host.ConfigurePort(c, gammaEnable, activeLow)` (R245). -/
  | hostConfigurePort (c : Nat) (gammaEnable : Bool) (activeLow : Bool)
  /-- `Host.ConfigureFlipperLogic(c, limitLevel, timeoutMs)` (R246). -/
  | hostConfigureFlipperLogic (c : Nat) (limitLevel : Nat) (timeoutMs : Nat)
  /-- `Host.EnableOutputs(enable)` (R247). -/
  | hostEnableOutputs (enable : Bool)
  /-- `Host.Reboot(toBootloader)` (R248). -/
  | hostReboot (toBootloader : Bool)
  /-- `Host.Service()`, the service tick (R244). -/
  | hostService
  deriving DecidableEq, Repr

/-- The mnemonic of an operation in spec/opcode_table.json, letter for letter. -/
def Instr.mnemonic : Instr → String
  | .startW => "START_W"
  | .fin => "FIN"
  | .setaddr _ => "SETADDR"
  | .wrLevel _ _ => "WR.LEVEL"
  | .wrCtrl0 _ => "WR.CTRL0"
  | .wrCtrl1 _ => "WR.CTRL1"
  | .wrFreqLo _ => "WR.FREQ.LO"
  | .wrFreqHi _ => "WR.FREQ.HI"
  | .wrUndoc _ _ => "WR.UNDOC"
  | .wrIdVersion _ => "WR.ID.VERSION"
  | .wrIdWhoami _ => "WR.ID.WHOAMI"
  | .wrCfgMode _ _ => "WR.CFG.MODE"
  | .wrCfgLimit _ _ => "WR.CFG.LIMIT"
  | .wrCfgTlo _ _ => "WR.CFG.TLO"
  | .wrCfgThi _ _ => "WR.CFG.THI"
  | .hsArm => "HS.ARM"
  | .hsReset => "HS.RESET"
  | .hsBootsel => "HS.BOOTSEL"
  | .hsOther _ => "HS.OTHER"
  | .rd _ => "RD"
  | .wdtFeed => "WDT.FEED"
  | .hsEval => "HS.EVAL"
  | .regReset => "REG.RESET"
  | .chUpdate _ => "CH.UPDATE"
  | .freqApply => "FREQ.APPLY"
  | .oeApply => "OE.APPLY"
  | .assignChannel _ => "AssignChannel"
  | .applyFreq _ => "ApplyFreq"
  | .setLevel _ _ => "SetLevel"
  | .getLevel _ => "GetLevel"
  | .enableOutputs _ => "EnableOutputs"
  | .isConfigured _ => "IsConfigured"
  | .hostConstruct _ => "Host.Construct"
  | .hostInit => "Host.Init"
  | .hostSet _ _ => "Host.Set"
  | .hostGet _ => "Host.Get"
  | .hostConfigurePort _ _ _ => "Host.ConfigurePort"
  | .hostConfigureFlipperLogic _ _ _ => "Host.ConfigureFlipperLogic"
  | .hostEnableOutputs _ => "Host.EnableOutputs"
  | .hostReboot _ => "Host.Reboot"
  | .hostService => "Host.Service"

end Sys2Proof
end

