-- ==== Sys2Proof/WellFormed.lean ====
section
/-! DEFINITION. Which operations are well formed: an unlisted address for `WR.UNDOC` (30_encoding.md rule R103), a byte
that is no handshake code for `HS.OTHER` (R148), and arguments of functions and calls inside the ranges the rules give
(R201 to R209, R241 to R248). -/

namespace Sys2Proof

/-- The addresses the register map does not list: 0x1C, 0x1D, 0x80 to 0xDC, 0xDE to 0xFF (R45, R103). -/
def unlistedAddress (a : Byte) : Bool :=
  a == 0x1C || a == 0x1D || (0x80 ≤ a.toNat && a != 0xDD)

/-- The three handshake codes (R106). -/
def handshakeCode (b : Byte) : Bool :=
  b == 0x11 || b == 0x22 || b == 0x33

/-- The checks on an operation. -/
def Instr.wellFormed : Instr → Bool
  | .wrUndoc a _ => unlistedAddress a
  | .hsOther b => !handshakeCode b
  | .assignChannel n => n < 24
  | .applyFreq f => f < 65536
  | .setLevel n d => n < 24 && decide (0 ≤ d) && decide (d ≤ 1)
  | .getLevel n => n < 24
  | .isConfigured n => n < 24
  | .hostConstruct addr => addr < 128
  | .hostSet c v => c < 24 && v < 256
  | .hostGet c => c < 24
  | .hostConfigurePort c _ _ => c < 24
  | .hostConfigureFlipperLogic c limit timeout => c < 24 && limit < 256 && timeout < 65536
  | .startW | .fin | .setaddr _ | .wrLevel _ _ | .wrCtrl0 _ | .wrCtrl1 _ | .wrFreqLo _ | .wrFreqHi _
  | .wrIdVersion _ | .wrIdWhoami _ | .wrCfgMode _ _ | .wrCfgLimit _ _ | .wrCfgTlo _ _ | .wrCfgThi _ _
  | .hsArm | .hsReset | .hsBootsel | .rd _ | .wdtFeed | .hsEval | .regReset | .chUpdate _ | .freqApply
  | .oeApply | .enableOutputs _ | .hostInit | .hostEnableOutputs _ | .hostReboot _ | .hostService => true

end Sys2Proof
end

