-- ==== Sys2Proof/Decode.lean ====
section
/-! DEFINITION. The decoder and the encoder of 30_encoding.md. What is decoded is the format (which agent acts, and in
which state of the bus, rule R108), the key of that format, and the operands of a function or host call, to which the
table gives no bits (log 33). -/

namespace Sys2Proof

/-! ## Address decode (R103) -/

/-- The class of a register-file address, with its channel where it names one (R103). -/
inductive AddrClass where
  | level (n : Chan)
  | ctrl0
  | ctrl1
  | freqLo
  | freqHi
  | undoc
  | version
  | whoami
  | cfg (n : Chan) (j : Fin 4)
  | reset
  deriving DecidableEq, Repr

/-- The address decode of R103: `n = a` for a level; `n = (a - 0x20) >> 2` and byte index `a[1:0]` for a
configuration group. -/
def addressClass (a : Byte) : AddrClass :=
  if h : a.toNat < 0x18 then .level ⟨a.toNat, h⟩
  else if a = 0x18 then .ctrl0
  else if a = 0x19 then .ctrl1
  else if a = 0x1A then .freqLo
  else if a = 0x1B then .freqHi
  else if a = 0x1E then .version
  else if a = 0x1F then .whoami
  else if h : 0x20 ≤ a.toNat ∧ a.toNat < 0x80 then
    .cfg ⟨(a.toNat - 0x20) / 4, by omega⟩ ⟨a.toNat % 4, by omega⟩
  else if a = 0xDD then .reset
  else .undoc

/-- The address of the level register of channel `n` (R21). -/
def levelAddr (n : Chan) : Byte := BitVec.ofNat 8 n.val

/-- The address of byte `j` of the configuration group of channel `n`: `0x20 + 4n + j` (R22). -/
def cfgAddr (n : Chan) (j : Fin 4) : Byte := BitVec.ofNat 8 (0x20 + 4 * n.val + j.val)

/-! ## Formats, keys and rows (R108) -/

/-- The formats of opcode_table.json (R108). -/
inductive Format where
  /-- events with no payload; key: the event kind -/
  | E
  /-- a byte received while the bus is in ADDR or IDLE; key: the byte -/
  | A
  /-- a byte received while the bus is in DATA; key: cursor ++ byte -/
  | W
  /-- a read request; key: the cursor -/
  | R
  /-- an engine phase; key: the phase -/
  | M
  /-- an allocator function; key: the selector -/
  | F
  /-- a host driver call; key: the selector -/
  | H
  deriving DecidableEq, Repr

/-- The width in bits of a format's key (R108). -/
def Format.keyWidth : Format → Nat
  | .E => 2
  | .A => 8
  | .W => 16
  | .R => 8
  | .M => 5
  | .F => 3
  | .H => 4

/-- An encoded operation: its format, its key, and the operands of a call. -/
structure Encoded where
  format : Format
  key    : Nat
  args   : List Nat := []
  deriving DecidableEq, Repr

/-- A row of opcode_table.json. -/
structure Row where
  format   : Format
  pattern  : Nat
  mask     : Nat
  mnemonic : String
  deriving DecidableEq, Repr

/-- The rows of formats E, A and R, and of format W below the configuration groups, in file order. -/
def rowsLow : List Row :=
  [⟨.E, 0x0, 0x3, "START_W"⟩, ⟨.E, 0x3, 0x3, "FIN"⟩, ⟨.A, 0x00, 0x00, "SETADDR"⟩,
   ⟨.W, 0x0000, 0xF000, "WR.LEVEL"⟩, ⟨.W, 0x1000, 0xF800, "WR.LEVEL"⟩,
   ⟨.W, 0x1800, 0xFF00, "WR.CTRL0"⟩, ⟨.W, 0x1900, 0xFF00, "WR.CTRL1"⟩,
   ⟨.W, 0x1A00, 0xFF00, "WR.FREQ.LO"⟩, ⟨.W, 0x1B00, 0xFF00, "WR.FREQ.HI"⟩,
   ⟨.W, 0x1C00, 0xFE00, "WR.UNDOC"⟩,
   ⟨.W, 0x1E00, 0xFF00, "WR.ID.VERSION"⟩, ⟨.W, 0x1F00, 0xFF00, "WR.ID.WHOAMI"⟩]

/-- The rows of format W from the configuration groups on, and of format R, in file order. -/
def rowsHigh : List Row :=
  [⟨.W, 0x2000, 0xE300, "WR.CFG.MODE"⟩, ⟨.W, 0x4000, 0xC300, "WR.CFG.MODE"⟩,
   ⟨.W, 0x2100, 0xE300, "WR.CFG.LIMIT"⟩, ⟨.W, 0x4100, 0xC300, "WR.CFG.LIMIT"⟩,
   ⟨.W, 0x2200, 0xE300, "WR.CFG.TLO"⟩, ⟨.W, 0x4200, 0xC300, "WR.CFG.TLO"⟩,
   ⟨.W, 0x2300, 0xE300, "WR.CFG.THI"⟩, ⟨.W, 0x4300, 0xC300, "WR.CFG.THI"⟩,
   ⟨.W, 0xDD11, 0xFFFF, "HS.ARM"⟩, ⟨.W, 0xDD22, 0xFFFF, "HS.RESET"⟩,
   ⟨.W, 0xDD33, 0xFFFF, "HS.BOOTSEL"⟩, ⟨.W, 0xDD00, 0xFF00, "HS.OTHER"⟩,
   ⟨.W, 0x8000, 0x8000, "WR.UNDOC"⟩, ⟨.R, 0x00, 0x00, "RD"⟩]

/-- The rows of format M, in file order; `CH.UPDATE` has one row for each phase 3 to 26. -/
def rowsPhase : List Row :=
  [⟨.M, 0x00, 0x1F, "WDT.FEED"⟩, ⟨.M, 0x01, 0x1F, "HS.EVAL"⟩, ⟨.M, 0x02, 0x1F, "REG.RESET"⟩] ++
  (List.range 24).map (fun n => ⟨.M, 3 + n, 0x1F, "CH.UPDATE"⟩) ++
  [⟨.M, 0x1B, 0x1F, "FREQ.APPLY"⟩, ⟨.M, 0x1C, 0x1F, "OE.APPLY"⟩]

/-- The rows of formats F and H, in file order. -/
def rowsCall : List Row :=
  [⟨.F, 0x0, 0x7, "AssignChannel"⟩, ⟨.F, 0x1, 0x7, "ApplyFreq"⟩, ⟨.F, 0x2, 0x7, "SetLevel"⟩,
   ⟨.F, 0x3, 0x7, "GetLevel"⟩, ⟨.F, 0x4, 0x7, "EnableOutputs"⟩, ⟨.F, 0x5, 0x7, "IsConfigured"⟩,
   ⟨.H, 0x0, 0xF, "Host.Construct"⟩, ⟨.H, 0x1, 0xF, "Host.Init"⟩, ⟨.H, 0x2, 0xF, "Host.Set"⟩,
   ⟨.H, 0x3, 0xF, "Host.Get"⟩, ⟨.H, 0x4, 0xF, "Host.ConfigurePort"⟩,
   ⟨.H, 0x5, 0xF, "Host.ConfigureFlipperLogic"⟩, ⟨.H, 0x6, 0xF, "Host.EnableOutputs"⟩,
   ⟨.H, 0x7, 0xF, "Host.Reboot"⟩, ⟨.H, 0x8, 0xF, "Host.Service"⟩]

/-- The 70 rows of opcode_table.json. -/
def opcodeRows : List Row := rowsLow ++ rowsHigh ++ rowsPhase ++ rowsCall

/-- The mnemonic the table gives a key: rows of one format are tried in file order and the first match wins (R108). -/
def tableMnemonic (f : Format) (key : Nat) : Option String :=
  (opcodeRows.find? fun r => r.format == f && key &&& r.mask == r.pattern).map Row.mnemonic

/-! ## Decoding -/

/-- Why a key and operands stand for no operation. -/
inductive DecodeError where
  /-- the key has more bits than its format -/
  | keyTooWide
  /-- event kinds 1 (`RX`) and 2 (`RQ`) carry a payload and are no format E operation (R108) -/
  | payloadEvent
  /-- phases 29 to 31 do not occur (R109) -/
  | noSuchPhase
  /-- format F has no selector above 5 (R108) -/
  | noSuchFunction
  /-- format H has no selector above 8 (R108) -/
  | noSuchCall
  /-- the operation takes another number of operands -/
  | wrongArity
  /-- an operand lies outside its range (entry N14) -/
  | badArgument
  deriving DecidableEq, Repr

/-- The operation a byte `b` received in the data phase is, by the class of the cursor `a` and, at the handshake
register, by `b` (R103, R106, R107). -/
def decodeWrite (a b : Byte) : Instr :=
  match addressClass a with
  | .level n => .wrLevel n b
  | .ctrl0 => .wrCtrl0 b
  | .ctrl1 => .wrCtrl1 b
  | .freqLo => .wrFreqLo b
  | .freqHi => .wrFreqHi b
  | .undoc => .wrUndoc a b
  | .version => .wrIdVersion b
  | .whoami => .wrIdWhoami b
  | .cfg n 0 => .wrCfgMode n b
  | .cfg n 1 => .wrCfgLimit n b
  | .cfg n 2 => .wrCfgTlo n b
  | .cfg n 3 => .wrCfgThi n b
  | .reset =>
    if b = 0x11 then .hsArm
    else if b = 0x22 then .hsReset
    else if b = 0x33 then .hsBootsel
    else .hsOther b

/-- The engine phases (R109). -/
def decodePhase (p : Nat) : Except DecodeError Instr :=
  if p = 0 then .ok .wdtFeed
  else if p = 1 then .ok .hsEval
  else if p = 2 then .ok .regReset
  else if h : p - 3 < 24 then .ok (.chUpdate ⟨p - 3, h⟩)
  else if p = 27 then .ok .freqApply
  else if p = 28 then .ok .oeApply
  else .error .noSuchPhase

/-- A boolean operand: 0 or 1. -/
def decodeBool (v : Nat) : Except DecodeError Bool :=
  if v = 0 then .ok false else if v = 1 then .ok true else .error .badArgument

/-- An operation whose operands are in range, or the rejection of the call. -/
def checked (i : Instr) : Except DecodeError Instr :=
  if i.wellFormed then .ok i else .error .badArgument

/-- The duty operand of `SetLevel`: numerator and denominator minus one, in lowest terms (log 33). -/
def decodeDuty (num den1 : Nat) : Except DecodeError Rat :=
  let d := mkRat num (den1 + 1)
  if d.num = num ∧ d.den = den1 + 1 then .ok d else .error .badArgument

/-- The allocator functions, by selector (R108). -/
def decodeFunction : Nat → List Nat → Except DecodeError Instr
  | 0, [n] => checked (.assignChannel n)
  | 1, [f] => checked (.applyFreq f)
  | 2, [n, num, den1] => (decodeDuty num den1).bind fun d => checked (.setLevel n d)
  | 3, [n] => checked (.getLevel n)
  | 4, [e] => (decodeBool e).map .enableOutputs
  | 5, [n] => checked (.isConfigured n)
  | s, _ => .error (if s < 6 then .wrongArity else .noSuchFunction)

/-- The host driver calls, by selector (R108). -/
def decodeCall : Nat → List Nat → Except DecodeError Instr
  | 0, [addr] => checked (.hostConstruct addr)
  | 1, [] => .ok .hostInit
  | 2, [c, v] => checked (.hostSet c v)
  | 3, [c] => checked (.hostGet c)
  | 4, [c, g, l] =>
    (decodeBool g).bind fun gamma => (decodeBool l).bind fun low => checked (.hostConfigurePort c gamma low)
  | 5, [c, limit, timeout] => checked (.hostConfigureFlipperLogic c limit timeout)
  | 6, [e] => (decodeBool e).map .hostEnableOutputs
  | 7, [b] => (decodeBool b).map .hostReboot
  | 8, [] => .ok .hostService
  | s, _ => .error (if s < 9 then .wrongArity else .noSuchCall)

/-- The key of format W: the cursor in bits 15:8, the data byte in bits 7:0 (R108). -/
def writeKey (a b : Byte) : Nat := 256 * a.toNat + b.toNat

/-- The formats without call operands. -/
def decodeKey : Format → Nat → Except DecodeError Instr
  | .E, 0 => .ok .startW
  | .E, 3 => .ok .fin
  | .E, _ => .error .payloadEvent
  | .A, k => .ok (.setaddr (BitVec.ofNat 8 k))
  | .W, k => .ok (decodeWrite (BitVec.ofNat 8 (k / 256)) (BitVec.ofNat 8 k))
  | .R, k => .ok (.rd (BitVec.ofNat 8 k))
  | .M, k => decodePhase k
  | .F, _ => .error .wrongArity
  | .H, _ => .error .wrongArity

/-- The decoder: total, rejecting by name. -/
def decode (e : Encoded) : Except DecodeError Instr :=
  if 2 ^ e.format.keyWidth ≤ e.key then .error .keyTooWide
  else
    match e.format with
    | .F => decodeFunction e.key e.args
    | .H => decodeCall e.key e.args
    | f => if e.args = [] then decodeKey f e.key else .error .wrongArity

/-! ## Encoding -/

/-- A boolean operand: 0 or 1. -/
def encodeBool (b : Bool) : Nat := if b then 1 else 0

/-- The encoder: the format, key and operands of an operation (R103, R106, R108, R109). -/
def encode : Instr → Encoded
  | .startW => ⟨.E, 0, []⟩
  | .fin => ⟨.E, 3, []⟩
  | .setaddr b => ⟨.A, b.toNat, []⟩
  | .wrLevel n b => ⟨.W, writeKey (levelAddr n) b, []⟩
  | .wrCtrl0 b => ⟨.W, writeKey 0x18 b, []⟩
  | .wrCtrl1 b => ⟨.W, writeKey 0x19 b, []⟩
  | .wrFreqLo b => ⟨.W, writeKey 0x1A b, []⟩
  | .wrFreqHi b => ⟨.W, writeKey 0x1B b, []⟩
  | .wrUndoc a b => ⟨.W, writeKey a b, []⟩
  | .wrIdVersion b => ⟨.W, writeKey 0x1E b, []⟩
  | .wrIdWhoami b => ⟨.W, writeKey 0x1F b, []⟩
  | .wrCfgMode n b => ⟨.W, writeKey (cfgAddr n 0) b, []⟩
  | .wrCfgLimit n b => ⟨.W, writeKey (cfgAddr n 1) b, []⟩
  | .wrCfgTlo n b => ⟨.W, writeKey (cfgAddr n 2) b, []⟩
  | .wrCfgThi n b => ⟨.W, writeKey (cfgAddr n 3) b, []⟩
  | .hsArm => ⟨.W, writeKey 0xDD 0x11, []⟩
  | .hsReset => ⟨.W, writeKey 0xDD 0x22, []⟩
  | .hsBootsel => ⟨.W, writeKey 0xDD 0x33, []⟩
  | .hsOther b => ⟨.W, writeKey 0xDD b, []⟩
  | .rd c => ⟨.R, c.toNat, []⟩
  | .wdtFeed => ⟨.M, 0, []⟩
  | .hsEval => ⟨.M, 1, []⟩
  | .regReset => ⟨.M, 2, []⟩
  | .chUpdate n => ⟨.M, 3 + n.val, []⟩
  | .freqApply => ⟨.M, 27, []⟩
  | .oeApply => ⟨.M, 28, []⟩
  | .assignChannel n => ⟨.F, 0, [n]⟩
  | .applyFreq f => ⟨.F, 1, [f]⟩
  | .setLevel n d => ⟨.F, 2, [n, d.num.toNat, d.den - 1]⟩
  | .getLevel n => ⟨.F, 3, [n]⟩
  | .enableOutputs e => ⟨.F, 4, [encodeBool e]⟩
  | .isConfigured n => ⟨.F, 5, [n]⟩
  | .hostConstruct addr => ⟨.H, 0, [addr]⟩
  | .hostInit => ⟨.H, 1, []⟩
  | .hostSet c v => ⟨.H, 2, [c, v]⟩
  | .hostGet c => ⟨.H, 3, [c]⟩
  | .hostConfigurePort c g l => ⟨.H, 4, [c, encodeBool g, encodeBool l]⟩
  | .hostConfigureFlipperLogic c limit timeout => ⟨.H, 5, [c, limit, timeout]⟩
  | .hostEnableOutputs e => ⟨.H, 6, [encodeBool e]⟩
  | .hostReboot b => ⟨.H, 7, [encodeBool b]⟩
  | .hostService => ⟨.H, 8, []⟩

/-! ## The table's words -/

/-- The encoded operation a table word of `nbits` bits is read as. A 16-bit word is a format W key. The six other
formats have keys of at most 8 bits that share their values, and a bare 8-bit word does not say its format: 0 to 28 is
read as an engine phase, every other value as an address byte (format A) (log 33). -/
def tableWord (nbits w : Nat) : Option Encoded :=
  if 2 ^ nbits ≤ w then none
  else if nbits = 16 then some ⟨.W, w, []⟩
  else if nbits = 8 then
    if w < 29 then some ⟨.M, w, []⟩ else some ⟨.A, w, []⟩
  else none

/-- The operation the decoder reads from a table word. -/
def decodeTableWord (nbits w : Nat) : Option Instr :=
  (tableWord nbits w).bind fun e => (decode e).toOption

end Sys2Proof
end

