-- ==== Sys2Proof/Machine/Allocation.lean ====
section
/-! DEFINITION. The allocator's state (10_state.md rules R37 to R41) and the assignment of channels to resources
(42_allocator.md rules R200 to R203), as pure functions over the explicit pools: the boot sequence and the reset state
need them. -/

namespace Sys2Proof.Machine

/-- The error records of the log (R27, R270): E1 with the pin, E2 with the class and the requested frequency. -/
inductive ErrorRecord where
  | resourceExhausted (pin : Pin)
  | freqOutOfRange (k : ResClass) (f : Half)
  deriving DecidableEq, Repr

/-- What a channel is bound to (R37). -/
inductive Binding where
  | unbound
  | timer (s : SliceIx) (c : SliceChan)
  | lane (u : UnitIx) (l : LaneIx)
  | failed
  deriving DecidableEq, Repr, Inhabited

/-- Who has claimed a lane (R39). -/
inductive LaneClaim where
  | free
  | pin (p : Pin)
  | external
  deriving DecidableEq, Repr, Inhabited

/-- A state-machine unit: whether the PWM microprogram is resident, and the claims of its four lanes (R39). -/
structure SoftUnit where
  loaded : Bool
  lanes  : Vector LaneClaim 4
  deriving DecidableEq, Repr

/-- The frequency setting of a resource class: divider and cycle length, none until the first `ApplyFreq` (R40). -/
structure ClassSetting where
  div : Option Rat
  res : Option Nat
  deriving DecidableEq, Repr

/-- The allocator state (R37 to R41). -/
structure Allocator where
  binding    : Vector Binding 24
  sliceClaim : Vector (Vector (Option Pin) 2) 8
  units      : Vector SoftUnit 2
  timer      : ClassSetting
  lane       : ClassSetting
  level      : Vector Rat 24
  count      : Vector Nat 24
  outEnabled : Bool
  deriving DecidableEq, Repr

/-- The setting of class `k`. -/
def Allocator.cls (a : Allocator) : ResClass → ClassSetting
  | .timer => a.timer
  | .lane => a.lane

/-- The allocator with the setting of class `k` replaced. -/
def Allocator.setCls (a : Allocator) (k : ResClass) (c : ClassSetting) : Allocator :=
  match k with
  | .timer => { a with timer := c }
  | .lane => { a with lane := c }

/-- The resource class of a binding, if it is one of the two bound kinds. -/
def Binding.cls : Binding → Option ResClass
  | .timer _ _ => some .timer
  | .lane _ _ => some .lane
  | .unbound => none
  | .failed => none

/-- `isConfigured[n]`: bound to a timer channel or to a lane (R37, R203). -/
def Allocator.isConfigured (a : Allocator) (n : Chan) : Bool := a.binding[n].cls.isSome

/-- `LANE_FREE_AT_BOOT` as the claims of a unit's lanes: idle or `EXTERNAL` (R39). -/
def bootLanes (P : Params) (u : UnitIx) : Vector LaneClaim 4 :=
  Vector.ofFn fun l => if P.laneFreeAtBoot u l then .free else .external

/-- The allocator before any assignment: step 4 of the boot sequence (R311). -/
def emptyAllocator (P : Params) : Allocator where
  binding := Vector.replicate 24 .unbound
  sliceClaim := Vector.replicate 8 (Vector.replicate 2 none)
  units := Vector.ofFn fun u => ⟨false, bootLanes P u⟩
  timer := ⟨none, none⟩
  lane := ⟨none, none⟩
  level := Vector.replicate 24 0
  count := Vector.replicate 24 0
  outEnabled := false

/-- The least free lane of a unit (R202: "the lowest free lane is taken"). -/
def leastFreeLane (unit : SoftUnit) : Option LaneIx :=
  (List.finRange 4).find? fun l => unit.lanes[l] == .free

/-- Claim lane `l` of unit `u` for pin `p`, the microprogram resident from here on (R202). -/
def claimLane (u : UnitIx) (l : LaneIx) (p : Pin) (a : Allocator) : Allocator :=
  { a with units := a.units.set u ⟨true, a.units[u].lanes.set l (.pin p)⟩ }

/-- Pass 1 of `AssignSoft`: a resident unit with a free lane, units in the order 0, 1 (R202). -/
def reuseLane (a : Allocator) : Option (UnitIx × LaneIx) :=
  (List.finRange 2).findSome? fun u =>
    if a.units[u].loaded then (leastFreeLane a.units[u]).map fun l => (u, l) else none

/-- Pass 2 of `AssignSoft`: a unit without the program that has space for it and a free lane (R202). -/
def freshLane (P : Params) (a : Allocator) : Option (UnitIx × LaneIx) :=
  (List.finRange 2).findSome? fun u =>
    if !a.units[u].loaded && P.unitAvailable u then (leastFreeLane a.units[u]).map fun l => (u, l) else none

/-- `AssignSoft(p)`: reuse before a fresh load; no lane at all is E1, logged, and the binding FAILED (R202). -/
def assignSoft (P : Params) (p : Pin) (a : Allocator) : Binding × Allocator × List ErrorRecord :=
  match (reuseLane a).or (freshLane P a) with
  | some (u, l) => (.lane u l, claimLane u l p a, [])
  | none => (.failed, a, [.resourceExhausted p])

/-- The choice of a resource for pin `p`: its native channel when that is unclaimed or already its own, else the
soft-PWM fallback (R201, conflict C6). -/
def chooseResource (P : Params) (p : Pin) (a : Allocator) : Binding × Allocator × List ErrorRecord :=
  let s := (P.timerOfPin p).1
  let c := (P.timerOfPin p).2
  if a.sliceClaim[s][c] = none then
    (.timer s c, { a with sliceClaim := a.sliceClaim.set s (a.sliceClaim[s].set c (some p)) }, [])
  else if a.sliceClaim[s][c] = some p then (.timer s c, a, [])
  else assignSoft P p a

/-- `AssignChannel(n)` (R201). Its precondition is `binding[n] = UNBOUND`; for a channel that has a binding already
nothing changes, since "the binding never changes afterwards" (DEDUCED, log 37). -/
def assignChannel (P : Params) (n : Chan) (a : Allocator) : Allocator × List ErrorRecord :=
  if a.binding[n] = .unbound then
    let r := chooseResource P (P.pinOfChannel n) a
    ({ r.2.1 with
        binding := r.2.1.binding.set n r.1
        level := r.2.1.level.set n 0
        count := r.2.1.count.set n 0 }, r.2.2)
  else (a, [])

/-- Assign the channels of a list in order, collecting the error records. -/
def assignAll (P : Params) : List Chan → Allocator → Allocator × List ErrorRecord
  | [], a => (a, [])
  | n :: rest, a =>
    let r := assignChannel P n a
    let q := assignAll P rest r.1
    (q.1, r.2 ++ q.2)

/-- Step 5 of the boot sequence: channels 0 to 23 ascending, from the empty pools (R311, D23). -/
@[irreducible] def bootAllocator (P : Params) : Allocator × List ErrorRecord :=
  assignAll P (List.finRange 24) (emptyAllocator P)

end Sys2Proof.Machine
end

