-- ==== Sys2Proof/Machine/State.lean ====
section
/-! DEFINITION. The whole state of the block and of its host driver (10_state.md rules R20 to R51), as plain data, and
the state right after power-on (rule R50). Fields that are the model's own and not the spec's say so. -/

namespace Sys2Proof.Machine

/-- The register file: (address, byte) pairs in canonical form; an unlisted address reads as its hardware-reset value
(R20, R50, log 3). -/
abbrev Memory := List Host.Cell

/-- `bus`, the state of the bus protocol machine (R32). -/
inductive BusState where
  | idle
  | addr
  | data
  deriving DecidableEq, Repr

/-- The two codes a reset handshake can confirm (R33, R106). -/
inductive ResetKind where
  | cpu
  | bootsel
  deriving DecidableEq, Repr

/-- `hs`, the reset-handshake state (R33). -/
inductive Handshake where
  | idle
  | armed (t : Nat)
  | confirmed (kind : ResetKind) (t : Nat)
  deriving DecidableEq, Repr

/-- The kinds of a restart (R283). -/
inductive RestartKind where
  | cpu
  | bootsel
  | wdt
  deriving DecidableEq, Repr

/-- `run` (R47). -/
inductive RunState where
  | running
  | bootloader
  deriving DecidableEq, Repr

/-- The events of the bus (R100). -/
inductive BusEvent where
  | startW
  | rx (b : Byte)
  | rq
  | fin
  deriving DecidableEq, Repr

/-- What lands inside an engine phase: a raw bus event, or the next bus event of the driver call in progress (log 2,
log 39). -/
inductive Landing where
  | event (e : BusEvent)
  | line
  deriving DecidableEq, Repr

/-- One landing inside an engine phase, and the microseconds that pass before it (log 2). -/
structure Arrival where
  elapse : Nat
  lands  : Landing
  deriving DecidableEq, Repr

/-- A step of another agent that falls between two bus events of a driver call (R82, log 39): the clock's, the
watchdog's, or the engine's next phase with what lands in it. -/
inductive Beside where
  | elapse (us : Nat)
  | watchdog
  | engine (during : List (List Arrival))
  deriving DecidableEq, Repr

/-- The bus traffic of the driver call in progress (R240): what is left of the transaction in flight, the transactions not
yet begun, and, for each that is over, whether the device was there to its end. Idle between calls. -/
structure Line where
  wire  : List BusEvent
  queue : List (List BusEvent)
  heard : List Bool
  deriving DecidableEq, Repr

/-- No call is in progress. -/
def Line.idle : Line := ⟨[], [], []⟩

/-- A shadow register of the host driver: application intent, and the last value known to be written to the device
(R46). -/
structure ChipReg where
  loc  : Byte
  chip : Byte
  deriving DecidableEq, Repr, Inhabited

/-- Where a pending host reset stands in the handshake (R248, R249). -/
inductive HsStep where
  | arm
  | confirm
  deriving DecidableEq, Repr

/-- A pending reset-sequence code with its progress (R46, R248). -/
structure PendingReset where
  kind : ResetKind
  step : HsStep
  deriving DecidableEq, Repr

/-- A write transaction the host driver issued, and whether it was acknowledged (R101, R244; the model's own record). -/
structure Traffic where
  addr  : Byte
  data  : List Byte
  acked : Bool
  deriving DecidableEq, Repr

/-- How a transaction of the host driver ends: acknowledged, or failed after some of its bus events reached the device
(R244, log 38). -/
inductive LinkOutcome where
  | acked
  | failed (delivered : Nat)
  deriving DecidableEq, Repr

/-- The host driver object (R46, R240). `reply` (what the last `Get` returned) and `traffic` are the model's own. -/
structure HostDriver where
  busAddr      : BusAddr
  levels       : Vector ChipReg 24
  ctrl0        : ChipReg
  pendingReset : Option PendingReset
  reply        : Option Byte
  traffic      : List Traffic
  deriving DecidableEq, Repr

/-- What the last `GetLevel` or `IsConfigured` returned (R208, R203; the model's own). -/
inductive CallReply where
  | level (d : Rat)
  | flag (b : Bool)
  deriving DecidableEq, Repr

/-- An allocator function that only reads, with its channel (R203, R208): the engine may call it between two phases. -/
inductive Query where
  | getLevel (n : Chan)
  | isConfigured (n : Chan)
  deriving DecidableEq, Repr

/-- One entry of the agenda: what happens next, and which agent does it (R7, log 1). -/
inductive Move where
  /-- CLOCK: `us` microseconds pass (R26) -/
  | elapse (us : Nat)
  /-- WDT takes its step, if it is enabled (R291) -/
  | watchdog
  /-- a bus event is delivered to the ISR (R276) -/
  | event (e : BusEvent)
  /-- ENGINE takes its next phase; the i-th batch lands before the i-th register access of the phase (R84) -/
  | engine (during : List (List Arrival))
  /-- ENGINE calls a function of the allocator that only reads, between two phases (R7, log 33) -/
  | query (q : Query)
  /-- a host driver call: format H selector and operands (R108); the i-th batch of other agents' steps falls before the
  i-th bus event that the call's own loop sends (R82, log 39) -/
  | host (selector : Nat) (args : List Nat) (beside : List (List Beside))
  deriving DecidableEq, Repr

/-- Why the machine stops with a fault: never. The block has no traps and nothing in it is treated as fault or stuck
(R110, R171, 93_implementation_defined.md), so the type has no constructor; nobody raises one, which is safe. -/
inductive Fault where
  deriving DecidableEq, Repr

/-- Why a step has no meaning. -/
inductive Refusal where
  /-- An arm of `exec` without a meaning yet. Raised by no arm of this model. Safe: the machine stops. -/
  | notModelled (mnemonic : String)
  /-- The words of an agenda entry decode to no operation. Raised by `step` for format H entries only, never for a
  bus event, an engine phase or a query. Safe: the machine stops where a caller broke the call's contract (entry N14). -/
  | undecodable (e : DecodeError)
  /-- An operation value outside its well-formedness check, which no key decodes to. Raised by the meanings of the F and
  H calls, of `WR.UNDOC` and of `HS.OTHER`. Safe: "a model refuses them" (entry N14). -/
  | illFormed
  deriving DecidableEq, Repr

/-- The state of the machine: the device, the host driver, and the inputs still to come. -/
structure State where
  /-- the register file (R20) -/
  regs          : Memory
  /-- the bus-side program counter (R30) -/
  cursor        : Byte
  /-- the bus protocol state (R32) -/
  bus           : BusState
  /-- the reset handshake (R33) -/
  hs            : Handshake
  /-- true inside an interrupt-disabled section (R44) -/
  irqMasked     : Bool
  /-- bus events that arrived while masked, oldest first (R44, R277) -/
  held          : List BusEvent
  /-- the engine-side program counter (R31) -/
  phase         : Phase
  /-- last-seen register level of each channel (R35) -/
  lastLevel     : Vector Byte 24
  /-- duty last pushed for each channel (R35) -/
  duty          : Vector (Option Rat) 24
  /-- throttle deadline of each channel, in microseconds (R35) -/
  deadline      : Vector (Option Nat) 24
  /-- frequency last passed to `ApplyFreq` (R36) -/
  appliedFreq   : Option Half
  /-- boolean last passed to `EnableOutputs` (R36) -/
  appliedEnable : Bool
  /-- clock value at the last watchdog feed (R43) -/
  wdtLastFeed   : Nat
  /-- the allocator (R37 to R41) -/
  alloc         : Allocator
  /-- the monotonic microsecond clock (R26) -/
  now           : Nat
  /-- the error log (R27) -/
  log           : List ErrorRecord
  /-- running, or in the boot loader (R47) -/
  run           : RunState
  /-- the host driver object (R46) -/
  host          : HostDriver
  /-- the byte the last read request was answered with (R134; the model's own) -/
  busReply      : Option Byte
  /-- what the last value-returning allocator function returned (R203, R208; the model's own) -/
  callReply     : Option CallReply
  /-- counts the draws of free values (log 36; the model's own) -/
  freeCount     : Nat
  /-- what happens next, oldest first (log 1; the model's own) -/
  agenda        : List Move
  /-- what lands inside the phase about to run (log 2; the model's own) -/
  arrivals      : List (List Arrival)
  /-- the bus traffic of the driver call in progress (log 39; the model's own) -/
  line          : Line
  /-- the other agents' steps that fall inside the driver call about to run (log 39; the model's own) -/
  beside        : List (List Beside)
  /-- how the next host transactions end (log 38; the model's own) -/
  link          : List LinkOutcome
  deriving DecidableEq, Repr

/-- A driver object as `Init()` leaves it, at bus address `a` (R241). -/
def HostDriver.initial (a : BusAddr) : HostDriver where
  busAddr := a
  levels := Vector.replicate 24 ⟨0, 0⟩
  ctrl0 := ⟨0, 0⟩
  pendingReset := none
  reply := none
  traffic := []

/-- The state after the boot sequence of a power-on (R50, R311), with the clock at 0 (log 34) and an initialised driver at
the device's address (log 35), for parameters `P`. -/
def State.powerOn (P : Params) : State where
  regs := []
  cursor := 0
  bus := .idle
  hs := .idle
  irqMasked := false
  held := []
  phase := 0
  lastLevel := Vector.replicate 24 0
  duty := Vector.replicate 24 none
  deadline := Vector.replicate 24 none
  appliedFreq := none
  appliedEnable := false
  wdtLastFeed := 0
  alloc := (bootAllocator P).1
  now := 0
  log := (bootAllocator P).2
  run := .running
  host := HostDriver.initial P.busAddr
  busReply := none
  callReply := none
  freeCount := 0
  agenda := []
  arrivals := []
  line := .idle
  beside := []
  link := []

/-- The machine right after reset (R50). -/
def State.reset : State := State.powerOn Config.device

end Sys2Proof.Machine
end

