-- ==== Sys2Proof/Machine/Operands.lean ====
section
/-! DEFINITION. Operand forms: the assembly of 16-bit fields (R11, R70), the addresses of the control registers (R20), the
cursor's successor (R30), and the phase of a channel (R31). -/

namespace Sys2Proof.Machine

/-- `LE16(lo, hi) = hi * 256 + lo` (R11). -/
def le16 (lo hi : Byte) : Half := hi ++ lo

/-- The byte of a 16-bit value that lies at the lower address (R70). -/
def loByte (v : Half) : Byte := v.setWidth 8

/-- The byte of a 16-bit value that lies at the higher address (R70). -/
def hiByte (v : Half) : Byte := (v >>> 8).setWidth 8

/-- Control register 0 (R23). -/
def ctrl0Addr : Byte := 0x18

/-- Control register 1 (R24). -/
def ctrl1Addr : Byte := 0x19

/-- The frequency register, low byte (R25). -/
def freqAddr : Byte := 0x1A

/-- The version register (R28). -/
def versionAddr : Byte := 0x1E

/-- The device-identification register (R28). -/
def whoamiAddr : Byte := 0x1F

/-- The reset-handshake register (R29). -/
def resetAddr : Byte := 0xDD

/-- The default frequency in hertz (R25). -/
def defaultFreq : Half := 20000

/-- The successor of an address: `(a + 1) mod REGFILE_SIZE` (R16 item 2, R30). -/
def nextCursor (P : Params) (a : Byte) : Byte := BitVec.ofNat 8 ((a.toNat + 1) % P.regfileSize)

/-- The first byte of a write names the register `b mod REGFILE_SIZE` (R132). -/
def cursorOf (P : Params) (b : Byte) : Byte := BitVec.ofNat 8 (b.toNat % P.regfileSize)

/-- The phase of `CH.UPDATE n`: `3 + n` (R31). -/
def chPhase (n : Chan) : Phase := ⟨3 + n.val, by omega⟩

/-- The phase after phase `p`: `(p + 1) mod 29` (R31). -/
def nextPhase (p : Phase) : Phase := ⟨(p.val + 1) % 29, Nat.mod_lt _ (by decide)⟩

/-- The restart a confirmed handshake asks for (R162, R283). -/
def restartOf : ResetKind → RestartKind
  | .cpu => .cpu
  | .bootsel => .bootsel

/-- The handshake code that confirms a kind: 0x22 or 0x33 (R106, R249). -/
def confirmCode : ResetKind → Byte
  | .cpu => 0x22
  | .bootsel => 0x33

/-- The handshake code that arms (R106). -/
def armCode : Byte := 0x11

end Sys2Proof.Machine
end

