-- ==== Sys2Proof/Machine/Flags.lean ====
section
/-! DEFINITION. The status flags of R34: the fields of CTRL0 (R23) and of the mode byte (R22), the write-in-progress
predicate (R79), and the host's dirty condition (R46). The block has no arithmetic condition codes. -/

namespace Sys2Proof.Machine

/-- `CTRL0.OE`, bit 0 (R23). -/
def oeBit (c : Byte) : Bool := c.getLsbD 0

/-- `CTRL0.HWRESET`, bit 6 (R23). -/
def hwresetBit (c : Byte) : Bool := c.getLsbD 6

/-- `CTRL0.REGRESET`, bit 7 (R23). -/
def regresetBit (c : Byte) : Bool := c.getLsbD 7

/-- The mode byte's active-low bit, bit 0 (R22). -/
def activeLowBit (m : Byte) : Bool := m.getLsbD 0

/-- The mode byte's gamma-enable bit, bit 1 (R22). -/
def gammaBit (m : Byte) : Bool := m.getLsbD 1

/-- `wip(a, w)`: a write transaction is open and the next data byte would land inside the field of `w` bytes at `a`: `bus =
DATA` and `a <= cursor < a + w` (R79). -/
def wip (a : Byte) (w : Nat) (s : State) : Bool :=
  s.bus == .data && decide (a.toNat ≤ s.cursor.toNat) && decide (s.cursor.toNat < a.toNat + w)

/-- A shadow register is dirty when `local` differs from `chip` (R46, R250). -/
def ChipReg.dirty (r : ChipReg) : Bool := r.loc != r.chip

end Sys2Proof.Machine
end

