-- ==== Sys2Proof/Machine/Ops.lean ====
section
/-! DEFINITION. The named operations over the register file (10_state.md R20, 20_memory.md R70 to R78), the restart of
60_exceptions.md R283, and the boot sequence of 70_reset_and_hazards.md R311. -/

namespace Sys2Proof.Machine

/-! ## The register file as plain data -/

/-- The memory without its entries at address `a`. -/
def Memory.erase (a : Nat) (m : Memory) : Memory := m.filter fun c => c.1 != a

/-- The memory with an entry put before the first entry at a higher address. -/
def Memory.insert (a : Nat) (v : Byte) : Memory → Memory
  | [] => [(a, v)]
  | c :: rest => if a < c.1 then (a, v) :: c :: rest else c :: Memory.insert a v rest

/-- Read one byte; `dflt` says what an unlisted address reads as. -/
def Memory.read (dflt : Nat → Byte) (a : Nat) : Memory → Byte
  | [] => dflt a
  | c :: rest => if c.1 = a then c.2 else Memory.read dflt a rest

/-- Write one byte; an entry equal to what the unlisted address reads as is not kept. -/
def Memory.write (dflt : Nat → Byte) (a : Nat) (v : Byte) (m : Memory) : Memory :=
  if v = dflt a then Memory.erase a m else Memory.insert a v (Memory.erase a m)

/-- The canonical form: addresses strictly rising and below `size`, no entry equal to what an unlisted address reads as. -/
abbrev Memory.wf (size : Nat) (dflt : Nat → Byte) (m : Memory) : Prop :=
  m.Pairwise (fun c d => c.1 < d.1) ∧ ∀ c ∈ m, c.1 < size ∧ c.2 ≠ dflt c.1

/-- The hardware-reset value of the register-file byte at `a` (R50). -/
def resetByte (P : Params) (a : Nat) : Byte :=
  if a = 0x18 then (if P.ctrl0HwresetAtBoot then 0x40 else 0x00)
  else if a = 0x1A then loByte defaultFreq
  else if a = 0x1B then hiByte defaultFreq
  else if a = 0x1E then P.versionCode
  else if a = 0x1F then P.whoamiCode
  else if 0x20 ≤ a ∧ a < 0x80 ∧ a % 4 = 1 then 0xFF
  else 0x00

/-- `reg[a]` (R12, R20). -/
def regRead (P : Params) (a : Byte) (s : State) : Byte := Memory.read (resetByte P) a.toNat s.regs

/-- `reg[a] <- v` (R12, R20). -/
def regWrite (P : Params) (a v : Byte) (s : State) : State :=
  { s with regs := Memory.write (resetByte P) a.toNat v s.regs }

/-- `MemRead(a, w)`: `w` bytes at `a`, little-endian, as a number (R12, R70). -/
def memRead (P : Params) (a : Byte) (w : Nat) (s : State) : Nat :=
  match w with
  | 0 => 0
  | w + 1 => (regRead P a s).toNat + 256 * memRead P (a + 1) w s

/-- `MemWrite(a, 2, v)`: the two bytes of `v` at `a`, little-endian (R12, R70). -/
def memWrite16 (P : Params) (a : Byte) (v : Half) (s : State) : State :=
  regWrite P (a + 1) (hiByte v) (regWrite P a (loByte v) s)

/-! ## Restart: the exception of this hardware -/

/-- The transaction in flight is lost (R284); those of the call not yet begun are not. -/
def Line.lose (l : Line) : Line :=
  match l.wire with
  | [] => l
  | _ :: _ => { l with wire := [], heard := l.heard ++ [true] }

/-- `HardwareReset()`, the boot sequence, as one step (R311): pins high-impedance, registers at their hardware-reset
values, runtime state and pools initialised, channels assigned in order (which may log E1), bus side idle and unmasked,
watchdog fed, phase 0. The clock and the host's state are not touched (R50). What was in flight on the bus is lost
(R284, log 43). -/
def hardwareReset (P : Params) (s : State) : State :=
  { s with
    regs := []
    lastLevel := Vector.replicate 24 0
    duty := Vector.replicate 24 none
    deadline := Vector.replicate 24 none
    appliedFreq := none
    appliedEnable := false
    alloc := (bootAllocator P).1
    log := (bootAllocator P).2
    cursor := 0
    bus := .idle
    hs := .idle
    irqMasked := false
    held := []
    arrivals := []
    line := s.line.lose
    busReply := none
    callReply := none
    wdtLastFeed := s.now
    phase := 0
    run := .running }

/-- All pins high-impedance (R283: `outEnabled <- false`). -/
def pinsHiz (s : State) : State := { s with alloc := { s.alloc with outEnabled := false } }

/-- `Restart(kind)` (R283 to R285): the one control transfer out of the normal loop. Nothing is saved. It does not return:
a bootloader restart is the terminal state, the two others run the boot sequence. -/
def restart (P : Params) (kind : RestartKind) (s : State) : State :=
  match kind with
  | .bootsel => { pinsHiz s with run := .bootloader, arrivals := [], held := [] }
  | .cpu => hardwareReset P (pinsHiz s)
  | .wdt => hardwareReset P (pinsHiz s)

/-! ## The watchdog -/

/-- The step of `WDT` is enabled when the device runs and the last feed is older than the timeout (R291). -/
def wdtExpired (P : Params) (s : State) : Bool :=
  s.run == .running && decide (P.wdtTimeoutUs < s.now - s.wdtLastFeed)

/-- The step of `WDT`: `Restart(WDT)` when it is enabled, else no step is taken (R291). -/
def watchdogStep (P : Params) (s : State) : State :=
  if wdtExpired P s then restart P .wdt s else s

end Sys2Proof.Machine
end

