-- ==== Sys2Proof/Machine/Bus.lean ====
section
/-! DEFINITION. The bus register file and its interrupt handler (40_bus_isr.md): one definition for each bus operation, the
dispatch of rule R130, and the meanings of the bus operations. A write operation's address operand is the cursor at the
time of the byte (30_encoding.md R108), so it stands for `cursor` in the rule (log 51). -/

namespace Sys2Proof.Machine

/-! ## Shared shapes -/

/-- The data-phase template of R133 with its default action: `reg[a] <- b`, then the cursor advance. `bus` stays. -/
def storeAdvance (P : Params) (a b : Byte) (s : State) : State :=
  { regWrite P a b s with cursor := nextCursor P a }

/-- The data-phase template of R133 with the byte discarded: the cursor advance only (R135, D7). -/
def dropAdvance (P : Params) (a : Byte) (s : State) : State := { s with cursor := nextCursor P a }

/-- The data-phase template of R133 at the handshake register: the handshake moves to `h`, the byte is not stored, the
cursor advances to 0xDE (R136). -/
def handshakeAdvance (P : Params) (h : Handshake) (s : State) : State := { s with hs := h, cursor := nextCursor P resetAddr }

/-- What a confirm code of `kind` does to the handshake: `HS_ARMED(t)` with `now - t < ARM_WINDOW_US` is confirmed, every
other case returns to `HS_IDLE` (R136, R146, R147). -/
def confirmHs (P : Params) (kind : ResetKind) (now : Nat) : Handshake → Handshake
  | .armed t => if now - t < P.armWindowUs then .confirmed kind now else .idle
  | .idle => .idle
  | .confirmed _ _ => .idle

/-- What the arm code does to the handshake: `HS_IDLE` is armed, every other case returns to `HS_IDLE` (R145). -/
def armHs (now : Nat) : Handshake → Handshake
  | .idle => .armed now
  | .armed _ => .idle
  | .confirmed _ _ => .idle

/-! ## Address phase and end of transaction -/

/-- `START_W` (R131). -/
def startW (s : State) : State := { s with bus := .addr }

/-- `SETADDR(b)` (R132). -/
def setaddr (P : Params) (b : Byte) (s : State) : State := { s with cursor := cursorOf P b, bus := .data }

/-- `FIN` (R149). -/
def fin (s : State) : State := { s with bus := .idle }

/-- `RD` at cursor `c`: answer with `reg[c]` and advance (R134). `busReply` holds the answer. -/
def rd (P : Params) (c : Byte) (s : State) : State :=
  { s with busReply := some (regRead P c s), cursor := nextCursor P c }

/-! ## Data phase -/

/-- `WR.LEVEL` of channel `n`: `x[n] <- b` (R137). -/
def wrLevel (P : Params) (n : Chan) (b : Byte) (s : State) : State := storeAdvance P (levelAddr n) b s

/-- `WR.CTRL0`: the whole byte is replaced (R138). -/
def wrCtrl0 (P : Params) (b : Byte) (s : State) : State := storeAdvance P ctrl0Addr b s

/-- `WR.CTRL1`: stored and read back, never used (R139, D2). -/
def wrCtrl1 (P : Params) (b : Byte) (s : State) : State := storeAdvance P ctrl1Addr b s

/-- `WR.FREQ` at the low byte (R140). -/
def wrFreqLo (P : Params) (b : Byte) (s : State) : State := storeAdvance P freqAddr b s

/-- `WR.FREQ` at the high byte (R140). -/
def wrFreqHi (P : Params) (b : Byte) (s : State) : State := storeAdvance P (freqAddr + 1) b s

/-- `WR.CFG.MODE` of channel `n` (R142). -/
def wrCfgMode (P : Params) (n : Chan) (b : Byte) (s : State) : State := storeAdvance P (cfgAddr n 0) b s

/-- `WR.CFG.LIMIT` of channel `n` (R143). -/
def wrCfgLimit (P : Params) (n : Chan) (b : Byte) (s : State) : State := storeAdvance P (cfgAddr n 1) b s

/-- `WR.CFG.TIMEOUT` of channel `n`, low byte (R144). -/
def wrCfgTlo (P : Params) (n : Chan) (b : Byte) (s : State) : State := storeAdvance P (cfgAddr n 2) b s

/-- `WR.CFG.TIMEOUT` of channel `n`, high byte (R144). -/
def wrCfgThi (P : Params) (n : Chan) (b : Byte) (s : State) : State := storeAdvance P (cfgAddr n 3) b s

/-- `WR.UNDOC` at the unlisted address `a`: plain storage (R141, D1, D2). -/
def wrUndoc (P : Params) (a b : Byte) (s : State) : State := storeAdvance P a b s

/-- `WR.ID` at `VERSION`: the byte is discarded, the cursor advances (R135). -/
def wrIdVersion (P : Params) (s : State) : State := dropAdvance P versionAddr s

/-- `WR.ID` at `WHOAMI`: the byte is discarded, the cursor advances (R135). -/
def wrIdWhoami (P : Params) (s : State) : State := dropAdvance P whoamiAddr s

/-- `HS.ARM` (R145). -/
def hsArm (P : Params) (s : State) : State := handshakeAdvance P (armHs s.now s.hs) s

/-- `HS.RESET` (R146). -/
def hsReset (P : Params) (s : State) : State := handshakeAdvance P (confirmHs P .cpu s.now s.hs) s

/-- `HS.BOOTSEL` (R147). -/
def hsBootsel (P : Params) (s : State) : State := handshakeAdvance P (confirmHs P .bootsel s.now s.hs) s

/-- `HS.OTHER`: back to `HS_IDLE` from any state (R148). -/
def hsOther (P : Params) (s : State) : State := handshakeAdvance P .idle s

/-! ## The handler: the bus interrupt (R130, R276) -/

/-- `WR.RESET(b)`: a byte at the handshake register, by its code (R106, R136). -/
def wrReset (P : Params) (b : Byte) (s : State) : State :=
  if b = 0x11 then hsArm P s
  else if b = 0x22 then hsReset P s
  else if b = 0x33 then hsBootsel P s
  else hsOther P s

/-- A byte received in the data phase, by the class of the cursor (R130, R279). -/
def dataByte (P : Params) (b : Byte) (s : State) : State :=
  match addressClass s.cursor with
  | .level n => wrLevel P n b s
  | .ctrl0 => wrCtrl0 P b s
  | .ctrl1 => wrCtrl1 P b s
  | .freqLo => wrFreqLo P b s
  | .freqHi => wrFreqHi P b s
  | .undoc => wrUndoc P s.cursor b s
  | .version => wrIdVersion P s
  | .whoami => wrIdWhoami P s
  | .cfg n 0 => wrCfgMode P n b s
  | .cfg n 1 => wrCfgLimit P n b s
  | .cfg n 2 => wrCfgTlo P n b s
  | .cfg n 3 => wrCfgThi P n b s
  | .reset => wrReset P b s

/-- The interrupt handler: one operation for each event, to completion (R130). A byte outside the data phase is an address
byte, in `IDLE` too (R112, R132). -/
def isr (P : Params) (e : BusEvent) (s : State) : State :=
  match e with
  | .startW => startW s
  | .rx b => if s.bus = .data then dataByte P b s else setaddr P b s
  | .rq => rd P s.cursor s
  | .fin => fin s

/-- Handle bus events in arrival order (R277). -/
def isrAll (P : Params) (es : List BusEvent) (s : State) : State := es.foldl (fun s e => isr P e s) s

/-- Deliver an event to the device: no response in the boot loader (R285), held while interrupts are masked (R44, D28),
handled otherwise. -/
def deliver (P : Params) (e : BusEvent) (s : State) : State :=
  if s.run = .bootloader then s
  else if s.irqMasked then { s with held := s.held ++ [e] }
  else isr P e s

/-- Deliver events in order. -/
def deliverAll (P : Params) (es : List BusEvent) (s : State) : State := es.foldl (fun s e => deliver P e s) s

/-! ## The traffic of a driver call (R240, log 39) -/

/-- An event of the transaction in flight goes out, and `rest` is left of it. With its last event the transaction is over:
`heard` notes whether the device was running, since in the boot loader it answers nothing (R285). -/
def sendEvent (P : Params) (e : BusEvent) (rest : List BusEvent) (queue : List (List BusEvent)) (s : State) : State :=
  deliver P e
    { s with line := ⟨rest, queue, if rest = [] then s.line.heard ++ [s.run == .running] else s.line.heard⟩ }

/-- The next bus event of the driver call in progress: of the transaction in flight, else the first of the next
transaction. A transaction none of whose events is for this device is over as it begins. With nothing left to send,
nothing. -/
def takeLine (P : Params) (s : State) : State :=
  match s.line.wire, s.line.queue with
  | e :: rest, queue => sendEvent P e rest queue s
  | [], [] => s
  | [], [] :: queue => { s with line := ⟨[], queue, s.line.heard ++ [true]⟩ }
  | [], (e :: rest) :: queue => sendEvent P e rest queue s

/-! ## Meanings -/

/-- `START_W` (R131). -/
def execStartW (s : State) : Host.Outcome State Fault Refusal := .next (startW s)

/-- `FIN` (R149). -/
def execFin (s : State) : Host.Outcome State Fault Refusal := .next (fin s)

/-- `SETADDR` (R132). -/
def execSetaddr (b : Byte) (s : State) : Host.Outcome State Fault Refusal := .next (setaddr Config.device b s)

/-- `WR.LEVEL` of channel `n` (R137). -/
def execWrLevel (n : Chan) (b : Byte) (s : State) : Host.Outcome State Fault Refusal := .next (wrLevel Config.device n b s)

/-- `WR.CTRL0` (R138). -/
def execWrCtrl0 (b : Byte) (s : State) : Host.Outcome State Fault Refusal := .next (wrCtrl0 Config.device b s)

/-- `WR.CTRL1` (R139, D2). -/
def execWrCtrl1 (b : Byte) (s : State) : Host.Outcome State Fault Refusal := .next (wrCtrl1 Config.device b s)

/-- `WR.FREQ` at the low byte (R140). -/
def execWrFreqLo (b : Byte) (s : State) : Host.Outcome State Fault Refusal := .next (wrFreqLo Config.device b s)

/-- `WR.FREQ` at the high byte (R140). -/
def execWrFreqHi (b : Byte) (s : State) : Host.Outcome State Fault Refusal := .next (wrFreqHi Config.device b s)

/-- `WR.CFG.MODE` of channel `n` (R142). -/
def execWrCfgMode (n : Chan) (b : Byte) (s : State) : Host.Outcome State Fault Refusal := .next (wrCfgMode Config.device n b s)

/-- `WR.CFG.LIMIT` of channel `n` (R143). -/
def execWrCfgLimit (n : Chan) (b : Byte) (s : State) : Host.Outcome State Fault Refusal := .next (wrCfgLimit Config.device n b s)

/-- `WR.CFG.TIMEOUT` of channel `n`, low byte (R144). -/
def execWrCfgTlo (n : Chan) (b : Byte) (s : State) : Host.Outcome State Fault Refusal := .next (wrCfgTlo Config.device n b s)

/-- `WR.CFG.TIMEOUT` of channel `n`, high byte (R144). -/
def execWrCfgThi (n : Chan) (b : Byte) (s : State) : Host.Outcome State Fault Refusal := .next (wrCfgThi Config.device n b s)

/-- `WR.ID.VERSION` (R135). -/
def execWrIdVersion (_b : Byte) (s : State) : Host.Outcome State Fault Refusal := .next (wrIdVersion Config.device s)

/-- `WR.ID.WHOAMI` (R135). -/
def execWrIdWhoami (_b : Byte) (s : State) : Host.Outcome State Fault Refusal := .next (wrIdWhoami Config.device s)

/-- `HS.ARM` (R145). -/
def execHsArm (s : State) : Host.Outcome State Fault Refusal := .next (hsArm Config.device s)

/-- `HS.RESET` (R146). -/
def execHsReset (s : State) : Host.Outcome State Fault Refusal := .next (hsReset Config.device s)

/-- `HS.BOOTSEL` (R147). -/
def execHsBootsel (s : State) : Host.Outcome State Fault Refusal := .next (hsBootsel Config.device s)

/-- `RD` (R134). -/
def execRd (c : Byte) (s : State) : Host.Outcome State Fault Refusal := .next (rd Config.device c s)

/-- `WR.UNDOC` (R141); an address that is not unlisted is no operand of it. -/
def execWrUndoc (a b : Byte) (s : State) : Host.Outcome State Fault Refusal :=
  if unlistedAddress a then .next (wrUndoc Config.device a b s) else .refused .illFormed

/-- `HS.OTHER` (R148); a handshake code is no operand of it. -/
def execHsOther (b : Byte) (s : State) : Host.Outcome State Fault Refusal :=
  if handshakeCode b then .refused .illFormed else .next (hsOther Config.device s)

end Sys2Proof.Machine
end

