-- ==== Sys2Proof/Machine/Sections.lean ====
section
/-! DEFINITION. How the engine reaches the register file while the interrupt handler runs between its steps: the windows of
20_memory.md R84 in which bus events land, the interrupt-disabled sections of R44 and R85, and the protected read of R80. -/

namespace Sys2Proof.Machine

/-! ## Windows: where an ISR step can fall inside a phase (R84, D32, log 2) -/

/-- What lands: a raw bus event, or the next bus event of the driver call in progress. -/
def land (P : Params) (l : Landing) (s : State) : State :=
  match l with
  | .event e => deliver P e s
  | .line => takeLine P s

/-- One arrival: its microseconds pass, then it lands. -/
def arrive (P : Params) (a : Arrival) (s : State) : State := land P a.lands { s with now := s.now + a.elapse }

/-- A batch of arrivals, in order. -/
def arriveAll (P : Params) (batch : List Arrival) (s : State) : State :=
  batch.foldl (fun s a => arrive P a s) s

/-- The window before a register access of a phase: the next batch of arrivals is delivered. -/
def window (P : Params) (s : State) : State :=
  match s.arrivals with
  | [] => s
  | batch :: rest => arriveAll P batch { s with arrivals := rest }

/-- The end of a phase: what has not landed yet lands before the next phase. -/
def drain (P : Params) (s : State) : State := arriveAll P s.arrivals.flatten { s with arrivals := [] }

/-- The end of a phase: remaining arrivals, then the phase counter (R31). -/
def endPhase (P : Params) (next : Phase) (s : State) : State := { drain P s with phase := next }

/-! ## Interrupt-disabled sections (R44, R85) -/

/-- Interrupts off. -/
def enterSection (s : State) : State := { s with irqMasked := true }

/-- Interrupts on: what arrived while they were off is handled now, in order (R277, D28). -/
def leaveSection (P : Params) (s : State) : State := isrAll P s.held { s with irqMasked := false, held := [] }

/-! ## Engine accesses -/

/-- The engine reads one byte: one step, so a window lies before it. -/
def engRead (P : Params) (a : Byte) (s : State) : Byte × State :=
  let s := window P s
  (regRead P a s, s)

/-- The engine writes one byte: one step. -/
def engWrite (P : Params) (a v : Byte) (s : State) : State := regWrite P a v (window P s)

/-- The engine writes two bytes with interrupts disabled: one step (R12, R74). -/
def engWrite16 (P : Params) (a : Byte) (v : Half) (s : State) : State :=
  leaveSection P (memWrite16 P a v (enterSection (window P s)))

/-- `AtomicRead(a, w)`: none while a write to the field is in progress, else the value (R80). One indivisible step. -/
def atomicRead (P : Params) (a : Byte) (w : Nat) (s : State) : Option Nat × State :=
  let s := enterSection s
  let r := if wip a w s then none else some (memRead P a w s)
  (r, leaveSection P s)

/-- The engine's protected read, with the window before it. -/
def engAtomicRead (P : Params) (a : Byte) (w : Nat) (s : State) : Option Nat × State := atomicRead P a w (window P s)

end Sys2Proof.Machine
end

