-- ==== Sys2Proof/Machine/AllocOps.lean ====
section
/-! DEFINITION. The allocator functions (42_allocator.md rules R203 to R212): frequency to divider, rescaling, levels,
output enable, and the pin observable of 10_state.md R42. Pure functions over the allocator state, then the meanings of
the format F operations. -/

namespace Sys2Proof.Machine

/-! ## Arithmetic (R16) -/

/-- `round(x) = floor(x + 1/2)` for the non-negative quantities of R205 (R16 item 6, D21). -/
def roundHalfUp (x : Rat) : Nat := (x + 1 / 2).floor.toNat

/-- `clamp(v, lo, hi) = min(max(v, lo), hi)` on counts (R16 item 6). -/
def clampCount (v lo hi : Nat) : Nat := min (max v lo) hi

/-- `clamp(v, lo, hi) = min(max(v, lo), hi)` on dividers (R16 item 6). -/
def clampDiv (v lo hi : Rat) : Rat :=
  let m := if v ≤ lo then lo else v
  if m ≤ hi then m else hi

/-- `ToCount(d, rs) = floor(d * rs + 1/2)` (R210, D22). -/
def toCount (d : Rat) (rs : Nat) : Nat := roundHalfUp (d * (rs : Rat))

/-! ## Frequency -/

/-- What `ComputeDivRes` answers: divider, cycle length, and whether the floor branch was taken (R205). -/
structure DivRes where
  div : Rat
  res : Nat
  err : Bool
  deriving DecidableEq, Repr

/-- Counts per second before division, `F = F_CLK / CPC` (R205). -/
def countRate (c : ClassParams) : Rat := c.fClk / (c.cpc : Rat)

/-- The divider that would give maximum resolution at `f` hertz, `d0` (R205). -/
def idealDiv (c : ClassParams) (f : Half) : Rat := countRate c / ((f.toNat : Rat) * (c.resMax : Rat))

/-- The floor configuration `(DIV_MAX, RES_MAX)` with its error (R205, R211). -/
def floorConfig (c : ClassParams) : DivRes := ⟨c.divMax, c.resMax, true⟩

/-- `ComputeDivRes(k, f)`: the three branches of the divider policy in the document's order, `f = 0` first (R205, D19,
D21). -/
def computeDivRes (c : ClassParams) (f : Half) : DivRes :=
  if f = 0 then floorConfig c
  else if idealDiv c f < c.divMin then
    ⟨c.divMin, clampCount (roundHalfUp (countRate c / ((f.toNat : Rat) * c.divMin))) 1 c.resMax, false⟩
  else if c.divMax < idealDiv c f then floorConfig c
  else
    ⟨clampDiv ((roundHalfUp (idealDiv c f * (c.divDen : Rat)) : Rat) / (c.divDen : Rat)) c.divMin c.divMax, c.resMax,
      false⟩

/-- `Rescale(k)`: the counts of the channels of class `k`, recomputed from the stored fractions (R206). -/
def rescale (k : ResClass) (rs : Nat) (a : Allocator) : Allocator :=
  { a with
    count := Vector.ofFn fun n : Chan => if a.binding[n].cls = some k then toCount a.level[n] rs else a.count[n] }

/-- The setting of class `k` programmed, and the counts rescaled if the cycle length changed (R204). -/
def programClass (k : ResClass) (r : DivRes) (a : Allocator) : Allocator :=
  let programmed := a.setCls k ⟨some r.div, some r.res⟩
  if (a.cls k).res = some r.res then programmed else rescale k r.res programmed

/-- The E2 record of class `k`, if its floor branch was taken (R204, R272). -/
def freqErrors (k : ResClass) (f : Half) (r : DivRes) : List ErrorRecord :=
  if r.err then [.freqOutOfRange k f] else []

/-- `ApplyFreq(f)` on the allocator: the timer class, then the lane class (R204). -/
def applyFreqAlloc (P : Params) (f : Half) (a : Allocator) : Allocator :=
  programClass .lane (computeDivRes P.lane f) (programClass .timer (computeDivRes P.timer f) a)

/-- The error records of `ApplyFreq(f)`, timer before lane (R204). -/
def applyFreqLog (P : Params) (f : Half) : List ErrorRecord :=
  freqErrors .timer f (computeDivRes P.timer f) ++ freqErrors .lane f (computeDivRes P.lane f)

/-- `ApplyFreq(f)` (R204). -/
def applyFreq (P : Params) (f : Half) (s : State) : State :=
  { s with alloc := applyFreqAlloc P f s.alloc, log := s.log ++ applyFreqLog P f }

/-! ## Levels and outputs -/

/-- The duty written to a channel of class `k`: the fraction is kept, the count follows when a cycle length is known; before
the first `ApplyFreq` the count is computed by the first rescale (R207, D18). -/
def writeLevel (k : ResClass) (n : Chan) (d : Rat) (a : Allocator) : Allocator :=
  match (a.cls k).res with
  | some rs => { a with level := a.level.set n d, count := a.count.set n (toCount d rs) }
  | none => { a with level := a.level.set n d }

/-- `SetLevel(n, d)`: nothing for an inert channel, nothing when the value equals the last one written (R207). -/
def setLevel (n : Chan) (d : Rat) (a : Allocator) : Allocator :=
  match a.binding[n].cls with
  | none => a
  | some k => if d = a.level[n] then a else writeLevel k n d a

/-- `GetLevel(n)`: the fraction last accepted, 0 for an inert channel (R208). -/
def getLevel (n : Chan) (a : Allocator) : Rat :=
  match a.binding[n].cls with
  | none => 0
  | some _ => a.level[n]

/-- `EnableOutputs(e)` (R209). -/
def enableOutputs (e : Bool) (a : Allocator) : Allocator := { a with outEnabled := e }

/-! ## The pins (R42) -/

/-- What a pin shows: high-impedance, or a PWM signal with its count, cycle length and divider; the latter two are none
until the first `ApplyFreq` (R42, log 27). -/
inductive PinState where
  | hiz
  | pwm (count : Nat) (res : Option Nat) (div : Option Rat)
  deriving DecidableEq, Repr

/-- The state of the pin of channel `n` (R42). -/
def State.pin (s : State) (n : Chan) : PinState :=
  match s.alloc.binding[n].cls with
  | none => .hiz
  | some k =>
    if s.alloc.outEnabled then .pwm s.alloc.count[n] (s.alloc.cls k).res (s.alloc.cls k).div else .hiz

/-- The fraction of a period for which a pin is active: `min(count, res) / res` (R42). -/
def activeFraction (count res : Nat) : Rat := (min count res : Nat) / (res : Rat)

/-- The frequency in hertz of a signal of class `c`: `F_CLK / (div * res * CPC)` (R42). -/
def signalFreq (c : ClassParams) (div : Rat) (res : Nat) : Rat := c.fClk / (div * (res : Rat) * (c.cpc : Rat))

/-! ## Meanings of the format F operations -/

/-- A channel argument in range, or the refusal of the call (entry N14). -/
def withChan (n : Nat) (k : Chan → State) : Host.Outcome State Fault Refusal :=
  if h : n < 24 then .next (k ⟨n, h⟩) else .refused .illFormed

/-- `AssignChannel(n)` (R201, R202). -/
def execAssignChannel (n : Nat) (s : State) : Host.Outcome State Fault Refusal :=
  withChan n fun c =>
    let r := assignChannel Config.device c s.alloc
    { s with alloc := r.1, log := s.log ++ r.2 }

/-- `ApplyFreq(f)` (R204). -/
def execApplyFreq (f : Nat) (s : State) : Host.Outcome State Fault Refusal :=
  if f < 65536 then .next (applyFreq Config.device (BitVec.ofNat 16 f) s) else .refused .illFormed

/-- `SetLevel(n, d)` (R207). -/
def execSetLevel (n : Nat) (d : Rat) (s : State) : Host.Outcome State Fault Refusal :=
  if 0 ≤ d ∧ d ≤ 1 then withChan n fun c => { s with alloc := setLevel c d s.alloc } else .refused .illFormed

/-- `GetLevel(n)` (R208): reads only; `callReply` holds the answer. -/
def execGetLevel (n : Nat) (s : State) : Host.Outcome State Fault Refusal :=
  withChan n fun c => { s with callReply := some (.level (getLevel c s.alloc)) }

/-- `EnableOutputs(e)` (R209). -/
def execEnableOutputs (e : Bool) (s : State) : Host.Outcome State Fault Refusal :=
  .next { s with alloc := enableOutputs e s.alloc }

/-- `IsConfigured(n)` (R203): reads only; `callReply` holds the answer. -/
def execIsConfigured (n : Nat) (s : State) : Host.Outcome State Fault Refusal :=
  withChan n fun c => { s with callReply := some (.flag (s.alloc.isConfigured c)) }

end Sys2Proof.Machine
end

