-- ==== Sys2Proof/Machine/Engine.lean ====
section
/-! DEFINITION. The main-loop engine (41_engine.md): its pure functions, its 29 phases, and their meanings. Each phase
samples `now` once, when it starts (R160, D12); each register access is a step of its own, before which bus events may land
(20_memory.md R84). -/

namespace Sys2Proof.Machine

/-! ## Pure functions -/

/-- `CalcDuty(e, mode)`: the gamma or the linear table, then active-low inversion (R167). -/
def calcDuty (P : Params) (e mode : Byte) : Rat :=
  let g := xor (gammaBit mode) P.gammaSelectInverted
  let d := if g then P.gammaTable e else P.linearTable e
  if activeLowBit mode then 1 - d else d

/-- `EffectiveLevel(L, limit, dl, now)`: the limit level once the deadline has passed (R169). -/
def effectiveLevel (L limit : Byte) (dl : Option Nat) (now : Nat) : Byte :=
  match dl with
  | some t => if t ≤ now then limit else L
  | none => L

/-- What `UpdateDeadline` answers: whether the timeout could be read, the deadline, and the state after its register
access. -/
structure DeadlineUpdate where
  ok    : Bool
  dl    : Option Nat
  state : State
  deriving DecidableEq, Repr

/-- `UpdateDeadline(n, L, prev, limit, dl, now)`, for `L` different from `prev`: armed on newly crossing above the limit,
kept while above, cleared at or below (R168). -/
def updateDeadline (P : Params) (n : Chan) (L prev limit : Byte) (dl : Option Nat) (now : Nat) (s : State) :
    DeadlineUpdate :=
  if limit < L then
    if prev ≤ limit then
      match engAtomicRead P (cfgAddr n 2) 2 s with
      | (none, s) => ⟨false, dl, s⟩
      | (some timeout, s) => ⟨true, some (now + 1000 * timeout), s⟩
    else ⟨true, dl, s⟩
  else ⟨true, none, s⟩

/-! ## Phases 0 to 2 -/

/-- `WDT.FEED` (R161). -/
def wdtFeed (P : Params) (s : State) : State := endPhase P 1 { s with wdtLastFeed := s.now }

/-- The restart a sampled handshake asks for at clock value `now`: a confirmed code whose grace period has elapsed
(R162). -/
def restartDue (P : Params) (now : Nat) (h : Handshake) : Option ResetKind :=
  match h with
  | .confirmed kind t => if P.resetGraceUs ≤ now - t then some kind else none
  | .armed _ => none
  | .idle => none

/-- `HS.EVAL`: one atomic sample of the handshake, then the restart if it is due (R162). -/
def hsEval (P : Params) (s : State) : State :=
  let w := window P s
  match restartDue P s.now w.hs with
  | some kind => restart P (restartOf kind) w
  | none => endPhase P 2 w

/-- One write of the register reset: a byte, or a 16-bit field written with interrupts disabled (R163). -/
inductive ResetWrite where
  | byte (a v : Byte)
  | field (a : Byte) (v : Half)
  deriving DecidableEq, Repr

/-- The writes of the register reset of one configuration group (R163). -/
def resetGroup (n : Chan) : List ResetWrite :=
  [.byte (cfgAddr n 0) 0x00, .byte (cfgAddr n 1) 0xFF, .field (cfgAddr n 2) 0]

/-- The register writes of a register reset, in order, up to the end of the array; 0x1E and 0x1F are not among them (R163,
D13). -/
@[irreducible] def resetScript (P : Params) : List ResetWrite :=
  ((List.finRange 24).map fun n => .byte (levelAddr n) 0x00) ++
  [.byte ctrl0Addr 0x80, .byte ctrl1Addr 0x00, .field freqAddr defaultFreq, .byte 0x1C 0x00, .byte 0x1D 0x00] ++
  (List.finRange 24).flatMap resetGroup ++
  ((List.range (P.regfileSize - 0x80)).map fun i => .byte (BitVec.ofNat 8 (0x80 + i)) 0x00)

/-- One write of the register reset, as an engine step. -/
def resetWrite (P : Params) (w : ResetWrite) (s : State) : State :=
  match w with
  | .byte a v => engWrite P a v s
  | .field a v => engWrite16 P a v s

/-- The writes of a script in order. -/
def runScript (P : Params) (ws : List ResetWrite) (s : State) : State := ws.foldl (fun s w => resetWrite P w s) s

/-- The per-channel runtime state at its initial values (R35, R163). -/
def initRuntime (s : State) : State :=
  { s with
    lastLevel := Vector.replicate 24 0
    duty := Vector.replicate 24 none
    deadline := Vector.replicate 24 none }

/-- "clear the request bit last": the indivisible `reg[0x18] <- reg[0x18] AND 0x7F` (R163). -/
def clearRequest (P : Params) (s : State) : State :=
  let s := enterSection (window P s)
  leaveSection P (regWrite P ctrl0Addr (regRead P ctrl0Addr s &&& 0x7F) s)

/-- `REG.RESET` (R163). -/
def regReset (P : Params) (s : State) : State :=
  let r := engRead P ctrl0Addr s
  if regresetBit r.1 then endPhase P 3 (clearRequest P (initRuntime (runScript P (resetScript P) r.2)))
  else endPhase P 3 r.2

/-! ## Phases 3 to 26 -/

/-- The last part of `CH.UPDATE n`: mode byte, effective level, duty, and the push if the duty differs from the last one
(R164, R170). `t` is the phase's clock sample. -/
def chUpdatePush (P : Params) (n : Chan) (t : Nat) (L limit : Byte) (s : State) : State :=
  let r := engRead P (cfgAddr n 0) s
  let s := r.2
  let d := calcDuty P (effectiveLevel L limit s.deadline[n] t) r.1
  if s.duty[n] = some d then endPhase P (nextPhase (chPhase n)) s
  else
    endPhase P (nextPhase (chPhase n))
      { s with alloc := setLevel n d s.alloc, duty := s.duty.set n (some d) }

/-- `CH.UPDATE n` once the level is read: limit, deadline on a change of level, then the push; a failed timeout read skips
the channel with nothing changed (R164). -/
def chUpdateSeen (P : Params) (n : Chan) (t : Nat) (L : Byte) (s : State) : State :=
  let r := engRead P (cfgAddr n 1) s
  let s := r.2
  if L = s.lastLevel[n] then chUpdatePush P n t L r.1 s
  else
    let u := updateDeadline P n L s.lastLevel[n] r.1 s.deadline[n] t s
    if u.ok then
      chUpdatePush P n t L r.1
        { u.state with deadline := u.state.deadline.set n u.dl, lastLevel := u.state.lastLevel.set n L }
    else endPhase P (nextPhase (chPhase n)) u.state

/-- `CH.UPDATE n`: the protected read of the level; a write in progress skips the channel (R164). -/
def chUpdate (P : Params) (n : Chan) (s : State) : State :=
  match engAtomicRead P (levelAddr n) 1 s with
  | (none, w) => endPhase P (nextPhase (chPhase n)) w
  | (some L, w) => chUpdateSeen P n s.now (BitVec.ofNat 8 L) w

/-! ## Phases 27 and 28 -/

/-- `FREQ.APPLY`: the protected read of `FREQ`, applied when it differs from the value last applied (R165). -/
def freqApply (P : Params) (s : State) : State :=
  match engAtomicRead P freqAddr 2 s with
  | (none, w) => endPhase P 28 w
  | (some f, w) =>
    if w.appliedFreq = some (BitVec.ofNat 16 f) then endPhase P 28 w
    else endPhase P 28 { applyFreq P (BitVec.ofNat 16 f) w with appliedFreq := some (BitVec.ofNat 16 f) }

/-- `OE.APPLY`: the output-enable bit, applied when it differs from the value last applied (R166). -/
def oeApply (P : Params) (s : State) : State :=
  let r := engRead P ctrl0Addr s
  let e := oeBit r.1
  let s := r.2
  if e = s.appliedEnable then endPhase P 0 s
  else endPhase P 0 { s with alloc := enableOutputs e s.alloc, appliedEnable := e }

/-! ## The next phase (R160) -/

/-- The phase that the engine is at, by its number (R109). -/
def runPhase (P : Params) (s : State) : State :=
  if s.phase.val = 0 then wdtFeed P s
  else if s.phase.val = 1 then hsEval P s
  else if s.phase.val = 2 then regReset P s
  else if h : s.phase.val - 3 < 24 then chUpdate P ⟨s.phase.val - 3, h⟩ s
  else if s.phase.val = 27 then freqApply P s
  else oeApply P s

/-- A step of `ENGINE` inside a driver call: the next phase with what lands in it; none in the boot loader (R285). -/
def enginePhase (P : Params) (during : List (List Arrival)) (s : State) : State :=
  if s.run = .bootloader then s else runPhase P { s with arrivals := during }

/-! ## Meanings -/

/-- `WDT.FEED` (R161). -/
def execWdtFeed (s : State) : Host.Outcome State Fault Refusal := .next (wdtFeed Config.device s)

/-- `HS.EVAL` (R162). -/
def execHsEval (s : State) : Host.Outcome State Fault Refusal := .next (hsEval Config.device s)

/-- `REG.RESET` (R163). -/
def execRegReset (s : State) : Host.Outcome State Fault Refusal := .next (regReset Config.device s)

/-- `CH.UPDATE n` (R164). -/
def execChUpdate (n : Chan) (s : State) : Host.Outcome State Fault Refusal := .next (chUpdate Config.device n s)

/-- `FREQ.APPLY` (R165). -/
def execFreqApply (s : State) : Host.Outcome State Fault Refusal := .next (freqApply Config.device s)

/-- `OE.APPLY` (R166). -/
def execOeApply (s : State) : Host.Outcome State Fault Refusal := .next (oeApply Config.device s)

end Sys2Proof.Machine
end

