-- ==== Sys2Proof/Machine/HostCalls.lean ====
section
/-! DEFINITION. The host driver object (43_host_driver.md): its transactions on the bus, its service tick, and the meanings
of the nine calls. A transaction is synchronous and blocking (R240) for the driver alone: the device's own agents and the
clock go on between its bus events (R82), as the list `beside` says. -/

namespace Sys2Proof.Machine

/-! ## What goes on beside a call (R7, R82, log 39) -/

/-- One step of another agent inside a call. -/
def besideStep (P : Params) (b : Beside) (s : State) : State :=
  match b with
  | .elapse us => { s with now := s.now + us }
  | .watchdog => watchdogStep P s
  | .engine during => enginePhase P during s

/-- The window before a bus event of the call: the next batch of other agents' steps. -/
def besideWindow (P : Params) (s : State) : State :=
  match s.beside with
  | [] => s
  | batch :: rest => batch.foldl (fun s b => besideStep P b s) { s with beside := rest }

/-- A call has nothing left to send. -/
def Line.isIdle (l : Line) : Bool := l.wire.isEmpty && l.queue.isEmpty

/-- The call sends what is left of its traffic, at most `n` bus events by its own loop (others may land inside a phase):
before each, a window. -/
def transmit (P : Params) : Nat → State → State
  | 0, s => s
  | n + 1, s => if s.line.isIdle then s else transmit P n (takeLine P (besideWindow P s))

/-! ## Transactions -/

/-- The bus events of a write transaction, format WT (R101). -/
def writeEvents (addr : Byte) (data : List Byte) : List BusEvent :=
  [.startW, .rx addr] ++ data.map .rx ++ [.fin]

/-- The events of a transaction that reach the device: all of it, or a first part of a failed one (log 38). -/
def deliveredEvents (o : LinkOutcome) (es : List BusEvent) : List BusEvent :=
  match o with
  | .acked => es
  | .failed k => es.take k

/-- The driver addresses this device (R293: an event is delivered to the device addressed and to no other). -/
def addressesDevice (P : Params) (s : State) : Bool := s.host.busAddr == P.busAddr

/-- A logical register of the driver: a level or CTRL0 (R241). -/
inductive LogicalReg where
  | level (c : Chan)
  | ctrl0
  deriving DecidableEq, Repr

/-- `addr(r)` (R244). -/
def LogicalReg.addr : LogicalReg → Byte
  | .level c => levelAddr c
  | .ctrl0 => ctrl0Addr

/-- The shadow of a logical register (R46). -/
def HostDriver.shadow (h : HostDriver) : LogicalReg → ChipReg
  | .level c => h.levels[c]
  | .ctrl0 => h.ctrl0

/-- The driver with the shadow of a logical register replaced. -/
def HostDriver.setShadow (h : HostDriver) (r : LogicalReg) (v : ChipReg) : HostDriver :=
  match r with
  | .level c => { h with levels := h.levels.set c v }
  | .ctrl0 => { h with ctrl0 := v }

/-- What the driver notes when a transaction is acknowledged: `r.chip <- v` (R244), the next stand of the pending reset
(R249), or nothing (R245). -/
inductive Note where
  | sent (r : LogicalReg) (v : Byte)
  | pending (p : Option PendingReset)
  | nothing
  deriving DecidableEq, Repr

/-- A write transaction of a call, `transact(W addr : data)`, and what its acknowledgement brings. -/
structure Errand where
  addr : Byte
  data : List Byte
  note : Note
  deriving DecidableEq, Repr

/-- The note is taken: "after a successful transmission chip := local" (R46, R244), `pendingReset <- p` (R249). -/
def HostDriver.take (n : Note) (h : HostDriver) : HostDriver :=
  match n with
  | .sent r v => h.setShadow r ⟨(h.shadow r).loc, v⟩
  | .pending p => { h with pendingReset := p }
  | .nothing => h

/-- A transaction is over: it is recorded, and an acknowledged one takes its note; a failed one changes no shadow (R244). -/
def HostDriver.settle (h : HostDriver) (x : Errand × Bool) : HostDriver :=
  let t := { h with traffic := h.traffic ++ [⟨x.1.addr, x.1.data, x.2⟩] }
  if x.2 then t.take x.1.note else t

/-- The ends of the next `n` transactions, taken from `link`; with nothing listed, acknowledged (log 38). -/
def nextEnds : Nat → List LinkOutcome → List LinkOutcome
  | 0, _ => []
  | n + 1, link => link.headD .acked :: nextEnds n link.tail

/-- Which transactions are acknowledged: as `link` says, but never by a device in the boot loader (R285). -/
def verdicts : List LinkOutcome → List Bool → List Bool
  | [], _ => []
  | o :: os, heard => (o == .acked && heard.headD true) :: verdicts os heard.tail

/-- The bus events of the transactions of a call that reach the device. -/
def callTraffic (P : Params) (errands : List Errand) (s : State) : List (List BusEvent) :=
  List.zipWith
    (fun x o => if addressesDevice P s then deliveredEvents o (writeEvents x.addr x.data) else [])
    errands (nextEnds errands.length s.link)

/-- The state in which a call begins to send. -/
def beginCall (P : Params) (errands : List Errand) (s : State) : State :=
  { s with line := ⟨[], callTraffic P errands s, []⟩, link := s.link.drop errands.length }

/-- The traffic of a call is sent, with what goes on beside it. -/
def sendAll (P : Params) (errands : List Errand) (s : State) : State :=
  transmit P ((callTraffic P errands s).map fun es => es.length + 1).sum (beginCall P errands s)

/-- A call: its transactions one after the other, each to its end (R240), then the driver as their ends leave it. What goes
on beside the call touches neither the driver nor `link`. -/
def converse (P : Params) (errands : List Errand) (s : State) : State :=
  let t := sendAll P errands s
  let oks := verdicts (nextEnds errands.length s.link) t.line.heard
  { t with line := .idle, beside := [], host := (errands.zip oks).foldl HostDriver.settle s.host }

/-! ## The service tick -/

/-- The logical registers in service order: `LEVEL[0]` to `LEVEL[23]`, then `CTRL0` (R244, D29). -/
@[irreducible] def serviceOrder : List LogicalReg := (List.finRange 24).map .level ++ [.ctrl0]

/-- The logical registers that are dirty, in service order (R244). -/
def HostDriver.dirtyRegs (h : HostDriver) : List LogicalReg := serviceOrder.filter fun r => (h.shadow r).dirty

/-- One dirty register: its local value goes out (R244). -/
def HostDriver.regErrand (h : HostDriver) (r : LogicalReg) : Errand :=
  ⟨r.addr, [(h.shadow r).loc], .sent r (h.shadow r).loc⟩

/-- `ForwardReset()`: the next code of the pending reset, if there is one (R249). -/
def HostDriver.resetErrand (h : HostDriver) : List Errand :=
  match h.pendingReset with
  | none => []
  | some ⟨kind, .arm⟩ => [⟨resetAddr, [armCode], .pending (some ⟨kind, .confirm⟩)⟩]
  | some ⟨kind, .confirm⟩ => [⟨resetAddr, [confirmCode kind], .pending none⟩]

/-- The transactions of a service tick: exactly one for each dirty register and none for a clean one, then
`ForwardReset()` (R244). -/
def HostDriver.serviceErrands (h : HostDriver) : List Errand := h.dirtyRegs.map h.regErrand ++ h.resetErrand

/-- `Service()` (R244, R249). What each transaction sends is fixed when the tick begins: a shadow is written only by its own
transaction, and the driver makes no other call meanwhile (R240). -/
def service (P : Params) (s : State) : State := converse P s.host.serviceErrands s

/-- `pendingReset <- v`. -/
def setPending (v : Option PendingReset) (s : State) : State := { s with host := { s.host with pendingReset := v } }

/-! ## The other calls -/

/-- A shadow register of a newly constructed object: two free bytes (log 36). -/
def constructedReg (draw slot : Nat) : ChipReg :=
  ⟨Config.constructedByte draw (2 * slot), Config.constructedByte draw (2 * slot + 1)⟩

/-- The pending code of a newly constructed object: free (log 36). -/
def constructedReset (draw : Nat) : Option PendingReset :=
  (Config.constructedPending draw).map fun p =>
    ⟨if p.1 then .bootsel else .cpu, if p.2 then .confirm else .arm⟩

/-- Construction with a bus address: a new object; what its shadows hold before `Init()` is free (R241, log 36). -/
def hostConstruct (addr : BusAddr) (s : State) : State :=
  { s with
    freeCount := s.freeCount + 1
    host :=
      { s.host with
        busAddr := addr
        levels := Vector.ofFn fun c : Chan => constructedReg s.freeCount c.val
        ctrl0 := constructedReg s.freeCount 24
        pendingReset := constructedReset s.freeCount } }

/-- `Init()`: every shadow at the device's register-reset default, no pending reset (R241, D29). -/
def hostInit (s : State) : State :=
  { s with
    host := { s.host with levels := Vector.replicate 24 ⟨0, 0⟩, ctrl0 := ⟨0, 0⟩, pendingReset := none } }

/-- `Set(c, v)`: the local value only (R242). -/
def hostSet (c : Chan) (v : Byte) (s : State) : State :=
  { s with host := { s.host with levels := s.host.levels.set c ⟨v, s.host.levels[c].chip⟩ } }

/-- `Get(c)`: `reply` holds the local value (R243). -/
def hostGet (c : Chan) (s : State) : State :=
  { s with host := { s.host with reply := some s.host.levels[c].loc } }

/-- The mode byte `activeLow + 2 * gammaEnable` (R245). -/
def modeByte (gammaEnable activeLow : Bool) : Byte := BitVec.ofNat 8 (encodeBool activeLow + 2 * encodeBool gammaEnable)

/-- `ConfigurePort(c, gammaEnable, activeLow)`: the mode byte, at once (R245). -/
def hostConfigurePort (P : Params) (c : Chan) (gammaEnable activeLow : Bool) (s : State) : State :=
  converse P [⟨cfgAddr c 0, [modeByte gammaEnable activeLow], .nothing⟩] s

/-- `ConfigureFlipperLogic(c, limitLevel, timeoutMs)`: three bytes in one transaction, at once (R246, D29). -/
def hostConfigureFlipperLogic (P : Params) (c : Chan) (limit : Byte) (timeout : Half) (s : State) : State :=
  converse P [⟨cfgAddr c 1, [limit, loByte timeout, hiByte timeout], .nothing⟩] s

/-- `EnableOutputs(enable)`: the local value of CTRL0, bit 0 set to `enable`, the others 0 (R247). -/
def hostEnableOutputs (enable : Bool) (s : State) : State :=
  { s with host := { s.host with ctrl0 := ⟨BitVec.ofNat 8 (encodeBool enable), s.host.ctrl0.chip⟩ } }

/-- `Reboot(toBootloader)`: a pending code, no I/O (R248). -/
def hostReboot (toBootloader : Bool) (s : State) : State :=
  setPending (some ⟨if toBootloader then .bootsel else .cpu, .arm⟩) s

/-! ## Meanings -/

/-- `Host.Construct` (R241). -/
def execHostConstruct (addr : Nat) (s : State) : Host.Outcome State Fault Refusal :=
  if addr < 128 then .next (hostConstruct (BitVec.ofNat 7 addr) s) else .refused .illFormed

/-- `Host.Init` (R241). -/
def execHostInit (s : State) : Host.Outcome State Fault Refusal := .next (hostInit s)

/-- `Host.Set` (R242); arguments outside the ranges are refused (entry N14). -/
def execHostSet (c v : Nat) (s : State) : Host.Outcome State Fault Refusal :=
  if v < 256 then withChan c fun c => hostSet c (BitVec.ofNat 8 v) s else .refused .illFormed

/-- `Host.Get` (R243). -/
def execHostGet (c : Nat) (s : State) : Host.Outcome State Fault Refusal :=
  withChan c fun c => hostGet c s

/-- `Host.ConfigurePort` (R245). -/
def execHostConfigurePort (c : Nat) (gammaEnable activeLow : Bool) (s : State) : Host.Outcome State Fault Refusal :=
  withChan c fun c => hostConfigurePort Config.device c gammaEnable activeLow s

/-- `Host.ConfigureFlipperLogic` (R246). -/
def execHostConfigureFlipperLogic (c limitLevel timeoutMs : Nat) (s : State) : Host.Outcome State Fault Refusal :=
  if limitLevel < 256 ∧ timeoutMs < 65536 then
    withChan c fun c =>
      hostConfigureFlipperLogic Config.device c (BitVec.ofNat 8 limitLevel) (BitVec.ofNat 16 timeoutMs) s
  else .refused .illFormed

/-- `Host.EnableOutputs` (R247). -/
def execHostEnableOutputs (enable : Bool) (s : State) : Host.Outcome State Fault Refusal :=
  .next (hostEnableOutputs enable s)

/-- `Host.Reboot` (R248). -/
def execHostReboot (toBootloader : Bool) (s : State) : Host.Outcome State Fault Refusal :=
  .next (hostReboot toBootloader s)

/-- `Host.Service` (R244, R249). -/
def execHostService (s : State) : Host.Outcome State Fault Refusal := .next (service Config.device s)

end Sys2Proof.Machine
end

