-- ==== Sys2Proof/Machine/Dispatch.lean ====
section
/-! DEFINITION. The dispatch: one arm for each operation, each one direct call of its meaning. -/

namespace Sys2Proof.Machine

def exec (i : Instr) (s : State) : Host.Outcome State Fault Refusal :=
  match i with
  | .startW => Sys2Proof.Machine.execStartW s
  | .fin => Sys2Proof.Machine.execFin s
  | .setaddr b => Sys2Proof.Machine.execSetaddr b s
  | .wrLevel n b => Sys2Proof.Machine.execWrLevel n b s
  | .wrCtrl0 b => Sys2Proof.Machine.execWrCtrl0 b s
  | .wrCtrl1 b => Sys2Proof.Machine.execWrCtrl1 b s
  | .wrFreqLo b => Sys2Proof.Machine.execWrFreqLo b s
  | .wrFreqHi b => Sys2Proof.Machine.execWrFreqHi b s
  | .wrUndoc a b => Sys2Proof.Machine.execWrUndoc a b s
  | .wrIdVersion b => Sys2Proof.Machine.execWrIdVersion b s
  | .wrIdWhoami b => Sys2Proof.Machine.execWrIdWhoami b s
  | .wrCfgMode n b => Sys2Proof.Machine.execWrCfgMode n b s
  | .wrCfgLimit n b => Sys2Proof.Machine.execWrCfgLimit n b s
  | .wrCfgTlo n b => Sys2Proof.Machine.execWrCfgTlo n b s
  | .wrCfgThi n b => Sys2Proof.Machine.execWrCfgThi n b s
  | .hsArm => Sys2Proof.Machine.execHsArm s
  | .hsReset => Sys2Proof.Machine.execHsReset s
  | .hsBootsel => Sys2Proof.Machine.execHsBootsel s
  | .hsOther b => Sys2Proof.Machine.execHsOther b s
  | .rd c => Sys2Proof.Machine.execRd c s
  | .wdtFeed => Sys2Proof.Machine.execWdtFeed s
  | .hsEval => Sys2Proof.Machine.execHsEval s
  | .regReset => Sys2Proof.Machine.execRegReset s
  | .chUpdate n => Sys2Proof.Machine.execChUpdate n s
  | .freqApply => Sys2Proof.Machine.execFreqApply s
  | .oeApply => Sys2Proof.Machine.execOeApply s
  | .assignChannel n => Sys2Proof.Machine.execAssignChannel n s
  | .applyFreq f => Sys2Proof.Machine.execApplyFreq f s
  | .setLevel n d => Sys2Proof.Machine.execSetLevel n d s
  | .getLevel n => Sys2Proof.Machine.execGetLevel n s
  | .enableOutputs e => Sys2Proof.Machine.execEnableOutputs e s
  | .isConfigured n => Sys2Proof.Machine.execIsConfigured n s
  | .hostConstruct addr => Sys2Proof.Machine.execHostConstruct addr s
  | .hostInit => Sys2Proof.Machine.execHostInit s
  | .hostSet c v => Sys2Proof.Machine.execHostSet c v s
  | .hostGet c => Sys2Proof.Machine.execHostGet c s
  | .hostConfigurePort c gammaEnable activeLow => Sys2Proof.Machine.execHostConfigurePort c gammaEnable activeLow s
  | .hostConfigureFlipperLogic c limitLevel timeoutMs => Sys2Proof.Machine.execHostConfigureFlipperLogic c limitLevel timeoutMs s
  | .hostEnableOutputs enable => Sys2Proof.Machine.execHostEnableOutputs enable s
  | .hostReboot toBootloader => Sys2Proof.Machine.execHostReboot toBootloader s
  | .hostService => Sys2Proof.Machine.execHostService s

end Sys2Proof.Machine
end

