-- ==== Sys2Proof/Machine/Step.lean ====
section
/-! DEFINITION. One step: the agent that the agenda names takes its step, an operation being fetched, decoded and executed
where the agent is the ISR, the engine or the host (00_scope.md R7). With an empty agenda the engine takes its next phase
(R160). The step is written for any parameters and any meaning of the operations; `step` is that of the device. -/

namespace Sys2Proof.Machine

/-- The meaning of the operations on one device. -/
abbrev Meaning := Instr → State → Host.Outcome State Fault Refusal

/-- The key a bus event is decoded by: the kind; the byte outside the data phase; cursor ++ byte in it; the cursor of a
read request (R107, R108). -/
def eventKey (e : BusEvent) (s : State) : Encoded :=
  match e with
  | .startW => ⟨.E, 0, []⟩
  | .fin => ⟨.E, 3, []⟩
  | .rx b => if s.bus = .data then ⟨.W, writeKey s.cursor b, []⟩ else ⟨.A, b.toNat, []⟩
  | .rq => ⟨.R, s.cursor.toNat, []⟩

/-- The key of the engine's next phase (R109). -/
def phaseKey (s : State) : Encoded := ⟨.M, s.phase.val, []⟩

/-- The key of a read-only allocator function, with its channel (R108). -/
def queryKey (q : Query) : Encoded :=
  match q with
  | .getLevel n => ⟨.F, 3, [n.val]⟩
  | .isConfigured n => ⟨.F, 5, [n.val]⟩

/-- Decode and execute. -/
def runKey (ex : Meaning) (e : Encoded) (s : State) : Host.Outcome State Fault Refusal :=
  match decode e with
  | .ok i => ex i s
  | .error err => .refused (.undecodable err)

/-- The step of `ENGINE`: no step in the boot loader (R285), else the next phase, with the arrivals that land in it. -/
def engineStep (ex : Meaning) (during : List (List Arrival)) (s : State) : Host.Outcome State Fault Refusal :=
  if s.run = .bootloader then .next s else runKey ex (phaseKey s) { s with arrivals := during }

/-- A bus event: no response in the boot loader (R285); held while interrupts are masked (R44); handled otherwise. -/
def eventStep (ex : Meaning) (e : BusEvent) (s : State) : Host.Outcome State Fault Refusal :=
  if s.run = .bootloader then .next s
  else if s.irqMasked then .next { s with held := s.held ++ [e] }
  else runKey ex (eventKey e s) s

/-- ENGINE asks the allocator between two phases: nothing runs on the device in the boot loader (R285). -/
def queryStep (ex : Meaning) (q : Query) (s : State) : Host.Outcome State Fault Refusal :=
  if s.run = .bootloader then .next s else runKey ex (queryKey q) s

/-- What one agenda entry does. -/
def moveStep (P : Params) (ex : Meaning) (m : Move) (s : State) : Host.Outcome State Fault Refusal :=
  match m with
  | .elapse us => .next { s with now := s.now + us }
  | .watchdog => .next (watchdogStep P s)
  | .event e => eventStep ex e s
  | .engine during => engineStep ex during s
  | .query q => queryStep ex q s
  | .host selector args beside => runKey ex ⟨.H, selector, args⟩ { s with beside := beside }

/-- One step of a machine with parameters `P` whose operations have the meaning `ex`. -/
def stepWith (P : Params) (ex : Meaning) (s : State) : Host.Outcome State Fault Refusal :=
  match s.agenda with
  | [] => engineStep ex [] s
  | m :: rest => moveStep P ex m { s with agenda := rest }

/-- One step of the machine. -/
def step (s : State) : Host.Outcome State Fault Refusal := stepWith Config.device exec s

/-! ## Placing one operation (log 45) -/

/-- The state in which the very next step runs the operation of a table word: a format W word is a byte received in the
data phase with the cursor at the word's high byte; an 8-bit word is an engine phase (0 to 28) or an address byte, as
`tableWord` reads it. The device is set running and unmasked, since no operation runs otherwise. -/
def State.withFetchWord (s : State) (nbits w : Nat) : State :=
  if nbits = 16 then
    { s with
      run := .running
      irqMasked := false
      bus := .data
      cursor := BitVec.ofNat 8 (w / 256)
      agenda := .event (.rx (BitVec.ofNat 8 w)) :: s.agenda }
  else if h : w < 29 then
    { s with run := .running, phase := ⟨w, h⟩, agenda := .engine [] :: s.agenda }
  else
    { s with run := .running, irqMasked := false, bus := .idle, agenda := .event (.rx (BitVec.ofNat 8 w)) :: s.agenda }

end Sys2Proof.Machine
end

