-- ==== Sys2Proof/Safety.lean ====
section
/-! DEFINITION. What claims about runs are stated in: the invariants of the machine, and which agenda entries can never be
refused. Nothing faults (Machine/State.lean), so a run is safe when no step of it is refused. -/

namespace Sys2Proof.Safety

open Sys2Proof.Machine

/-- The register file is in canonical form (log 3). -/
def RegsCanonical (s : State) : Prop := Memory.wf Config.device.regfileSize (resetByte Config.device) s.regs

/-- The identification registers hold their codes, and the cell at 0xDD reads 0 (R28, R29). -/
def IdentityKept (s : State) : Prop :=
  regRead Config.device versionAddr s = Config.device.versionCode ∧
  regRead Config.device whoamiAddr s = Config.device.whoamiCode ∧
  regRead Config.device resetAddr s = 0

/-- Between steps interrupts are enabled and nothing is held or still to land inside a phase (R44, R277). -/
def Unmasked (s : State) : Prop := s.irqMasked = false ∧ s.held = [] ∧ s.arrivals = []

/-- The mapping of channels to resources is the one the boot sequence made (R5, R37: "mapping is fixed at startup"). -/
def MappingFixed (s : State) : Prop :=
  s.alloc.binding = (bootAllocator Config.device).1.binding ∧
  s.alloc.sliceClaim = (bootAllocator Config.device).1.sliceClaim ∧
  s.alloc.units = (bootAllocator Config.device).1.units

/-- Levels are duty fractions, and so are the pushed duties (R13, R35, R41). -/
def LevelsInUnit (s : State) : Prop :=
  ∀ n : Chan, (0 ≤ s.alloc.level[n] ∧ s.alloc.level[n] ≤ 1) ∧
    ∀ d, s.duty[n] = some d → 0 ≤ d ∧ d ≤ 1

/-- An inert channel has level 0 and count 0 (R207, R208). -/
def InertQuiet (s : State) : Prop :=
  ∀ n : Chan, s.alloc.binding[n].cls = none → s.alloc.level[n] = 0 ∧ s.alloc.count[n] = 0

/-- Once a class has a cycle length, the count of each of its channels is the count of its level (R206, R207, R210). -/
def CountsFollowLevels (s : State) : Prop :=
  ∀ (n : Chan) (k : ResClass) (rs : Nat), s.alloc.binding[n].cls = some k → (s.alloc.cls k).res = some rs →
    s.alloc.count[n] = toCount s.alloc.level[n] rs

/-- The programmed settings lie inside the hardware's bounds (R40, R205). -/
def SettingsInBounds (s : State) : Prop :=
  ∀ k : ResClass,
    (∀ rs, (s.alloc.cls k).res = some rs → 1 ≤ rs ∧ rs ≤ (Config.device.cls k).resMax) ∧
    (∀ dv, (s.alloc.cls k).div = some dv → (Config.device.cls k).divMin ≤ dv ∧ dv ≤ (Config.device.cls k).divMax)

/-- Timestamps come from the past of the one monotonic clock (R16 item 4, R26). -/
def ClockSane (s : State) : Prop :=
  s.wdtLastFeed ≤ s.now ∧ (∀ t, s.hs = .armed t → t ≤ s.now) ∧ (∀ kind t, s.hs = .confirmed kind t → t ≤ s.now)

/-- In the boot loader the pins are high-impedance (R47, R285). -/
def BootloaderHiz (s : State) : Prop := s.run = .bootloader → s.alloc.outEnabled = false

/-- The invariant of the machine. -/
structure Inv (s : State) : Prop where
  regsCanonical      : RegsCanonical s
  identityKept       : IdentityKept s
  unmasked           : Unmasked s
  mappingFixed       : MappingFixed s
  levelsInUnit       : LevelsInUnit s
  inertQuiet         : InertQuiet s
  countsFollowLevels : CountsFollowLevels s
  settingsInBounds   : SettingsInBounds s
  clockSane          : ClockSane s
  bootloaderHiz      : BootloaderHiz s

/-! ## Vocabulary of the claims -/

/-- No bus event lands inside the phase about to run, none is held, and interrupts are on. -/
abbrev Quiet (s : State) : Prop := s.irqMasked = false ∧ s.held = [] ∧ s.arrivals = []

/-- `t` differs from `s` at most in what a bus operation writes (R151), and in the clock, the mask, the held and arriving
events, and the traffic in flight. Everything of the engine, the allocator and the host is as in `s`. -/
def IsrOnly (s t : State) : Prop :=
  t = { s with
    regs := t.regs, cursor := t.cursor, bus := t.bus, hs := t.hs, busReply := t.busReply
    now := t.now, irqMasked := t.irqMasked, held := t.held, arrivals := t.arrivals, line := t.line }

/-- The operation completes from every state, stores `b` at address `a` and nowhere else, moves the cursor to the next
address modulo 256, and changes nothing else. -/
def StoresAndAdvances (i : Instr) (a b : Byte) : Prop :=
  ∀ s, ∃ t, exec i s = .next t ∧
    (∀ x, regRead Config.device x t = if x = a then b else regRead Config.device x s) ∧
    t.cursor = a + 1 ∧
    t = { s with regs := t.regs, cursor := t.cursor }

/-- The value of register `a` after a register reset of state `s` (R50, right column of the table): the identification
registers as they were, the frequency 20000, the limits 0xFF, every other byte 0. -/
def registerResetByte (s : State) (a : Byte) : Byte :=
  if a = 0x1E ∨ a = 0x1F then regRead Config.device a s
  else if a = 0x1A then 0x20
  else if a = 0x1B then 0x4E
  else if 0x20 ≤ a.toNat ∧ a.toNat < 0x80 ∧ a.toNat % 4 = 1 then 0xFF
  else 0x00

/-- The hardware-reset value of each register-file byte (R50, middle column of the table). -/
def hardwareResetByte (a : Byte) : Byte :=
  if a = 0x18 then 0x40
  else if a = 0x1A then 0x20
  else if a = 0x1B then 0x4E
  else if a = 0x1E then Config.device.versionCode
  else if a = 0x1F then Config.device.whoamiCode
  else if 0x20 ≤ a.toNat ∧ a.toNat < 0x80 ∧ a.toNat % 4 = 1 then 0xFF
  else 0x00

/-- Every row of the hardware-reset table (R50) that has a value, and the boot assignments (R311). -/
structure HardwareResetValues (t : State) : Prop where
  regs          : ∀ a, regRead Config.device a t = hardwareResetByte a
  busSide       : t.cursor = 0 ∧ t.bus = .idle ∧ t.hs = .idle ∧ t.irqMasked = false ∧ t.held = []
  engineSide    : t.phase = 0 ∧ t.appliedFreq = none ∧ t.appliedEnable = false ∧ t.wdtLastFeed = t.now
  runtime       : ∀ n : Chan, t.lastLevel[n] = 0 ∧ t.duty[n] = none ∧ t.deadline[n] = none
  mapping       : MappingFixed t
  settings      : t.alloc.timer = ⟨none, none⟩ ∧ t.alloc.lane = ⟨none, none⟩
  outputs       : ∀ n : Chan, t.alloc.level[n] = 0 ∧ t.alloc.count[n] = 0 ∧ t.pin n = .hiz
  outEnabled    : t.alloc.outEnabled = false
  log           : t.log = (bootAllocator Config.device).2
  running       : t.run = .running

/-- The state an engine step starts its phase in: the agenda entry is taken, and its arrivals are about to land. -/
def phaseStart (s : State) : State :=
  match s.agenda with
  | .engine during :: rest => { s with agenda := rest, arrivals := during }
  | _ => { s with arrivals := [] }

/-- The microseconds that CLOCK lets pass inside a phase. -/
def elapsedDuring (during : List (List Arrival)) : Nat := (during.flatten.map Arrival.elapse).sum

/-- The microseconds that CLOCK lets pass in one step of another agent inside a driver call. -/
def elapsedBeside : Beside → Nat
  | .elapse us => us
  | .watchdog => 0
  | .engine during => elapsedDuring during

/-- The microseconds that CLOCK lets pass in the next step, at most. -/
def elapsedBy : List Move → Nat
  | .elapse us :: _ => us
  | .engine during :: _ => elapsedDuring during
  | .host _ _ beside :: _ => (beside.flatten.map elapsedBeside).sum
  | _ => 0

/-- The steps of other agents that fall inside the next step, where that is a driver call. -/
def besideNext (s : State) : List Beside :=
  match s.agenda with
  | .host _ _ beside :: _ => beside.flatten
  | _ => []

/-- The one-byte write transactions at consecutive addresses from `a` on (R113). -/
def singleWrites (a : Byte) : List Byte → List BusEvent
  | [] => []
  | d :: ds => [.startW, .rx a, .rx d, .fin] ++ singleWrites (a + 1) ds

/-- The level, limit, timeout and mode registers of a channel. -/
def levelOf (n : Chan) (s : State) : Byte := regRead Config.device (levelAddr n) s
/-- `cfg[n].limit` (R22). -/
def limitOf (n : Chan) (s : State) : Byte := regRead Config.device (cfgAddr n 1) s
/-- `cfg[n].timeout` in milliseconds (R22). -/
def timeoutOf (n : Chan) (s : State) : Nat := memRead Config.device (cfgAddr n 2) 2 s
/-- `cfg[n].mode` (R22). -/
def modeOf (n : Chan) (s : State) : Byte := regRead Config.device (cfgAddr n 0) s

/-- The channel's level has just crossed above its limit from at or below (R168). -/
abbrev Crossing (n : Chan) (s : State) : Prop := limitOf n s < levelOf n s ∧ s.lastLevel[n] ≤ limitOf n s

/-- The throttle deadline `CH.UPDATE n` leaves (R164, R168): kept when the level is the one last seen; cleared at or below
the limit; armed at `now + 1000 * timeout` when the level newly crosses above; else kept. -/
def deadlineAfter (n : Chan) (s : State) : Option Nat :=
  if levelOf n s = s.lastLevel[n] then s.deadline[n]
  else if levelOf n s ≤ limitOf n s then none
  else if s.lastLevel[n] ≤ limitOf n s then some (s.now + 1000 * timeoutOf n s)
  else s.deadline[n]

/-- The duty `CH.UPDATE n` computes (R164, R167, R169). -/
def dutyAfter (n : Chan) (s : State) : Rat :=
  calcDuty Config.device (effectiveLevel (levelOf n s) (limitOf n s) (deadlineAfter n s) s.now) (modeOf n s)

/-- The host driver addresses the device, which is running and unmasked, no other agent takes a step inside the call, and
the link acknowledges the next `n` transactions. -/
abbrev LinkUp (n : Nat) (s : State) : Prop :=
  s.host.busAddr = Config.device.busAddr ∧ s.run = .running ∧ s.irqMasked = false ∧ s.beside = [] ∧
  ∀ o ∈ s.link.take n, o = .acked

/-- `t` is what a driver call leaves of `s` on a working link, apart from its effect on the driver, on the registers and on
the handshake: the bus is idle, the cursor at `c`, and nothing else of the device, the clock or the log has changed. -/
def DeviceKept (c : Byte) (s t : State) : Prop :=
  t = { s with
    regs := t.regs, hs := t.hs, cursor := c, bus := .idle
    host := t.host, link := t.link, line := .idle }

/-- The logical registers of the driver that are dirty, in service order (R244). -/
def dirtyRegs (s : State) : List LogicalReg := s.host.dirtyRegs

/-- The value at address `x` once every dirty register of the driver has been sent: its local value at the register it names,
else as before (R244). -/
def upToDateByte (s : State) (x : Byte) : Byte :=
  match (dirtyRegs s).find? fun r => r.addr = x with
  | some r => (s.host.shadow r).loc
  | none => regRead Config.device x s

/-- An agenda entry of the device's own agents (the read-only queries among them), the clock or the bus: none of these can be refused (R110, R171). -/
def deviceMove : Move → Bool
  | .elapse _ => true
  | .watchdog => true
  | .event _ => true
  | .engine _ => true
  | .query _ => true
  | .host _ _ _ => false

/-- A safe step: it answers a next state. -/
def SafeStep (s : State) : Prop := ∃ t, step s = .next t

end Sys2Proof.Safety
end

