-- ==== Sys2Proof/Certificates/Slice0/Obligations.lean ====
section
/-! DEFINITION. The statements for the provers. Each docstring names the part of spec/ it formalises, and, where a clause rests
on a decision of the spec or on a convention of the model, that decision and its log entry (notes/assumptions). Throughout,
`Quiet s` says that no bus event lands inside the phase that runs (Safety.lean). -/

open Sys2Proof Sys2Proof.Machine Sys2Proof.Safety

/-! ## The bus: address phase, end, dispatch -/

/-- 40_bus_isr.md sections 2 and 5: `START_W` enters the address phase from every bus state (in `DATA` it abandons the open
write: decision D6, log 8), `FIN` returns to `IDLE` and makes every write-in-progress predicate false; nothing else
changes. -/
def Obligations.StartAndStopSetTheBusState : Prop :=
  ∀ s : State,
    exec .startW s = .next { s with bus := .addr } ∧
    ∃ t, exec .fin s = .next t ∧ t = { s with bus := .idle } ∧ ∀ (a : Byte) (w : Nat), wip a w t = false

/-- 40_bus_isr.md section 2: the first byte of a write names the register: the cursor is that byte (taken modulo the size of
the register array, so the byte itself for every byte because the size is 256: decision D1, log 4), nothing is stored, and
the write-in-progress predicate becomes true of the fields that contain the address (the definition of that predicate is
decision D8, log 10). A byte received in `IDLE` is handled as this operation too: decision D6, log 8. -/
def Obligations.AddressByteSetsTheCursor : Prop :=
  ∀ (b : Byte) (s : State),
    (∃ t, exec (.setaddr b) s = .next t ∧ t = { s with cursor := b, bus := .data } ∧
      ∀ (a : Byte) (w : Nat), wip a w t = true ↔ a.toNat ≤ b.toNat ∧ b.toNat < a.toNat + w) ∧
    (s.bus ≠ .data → isr Config.device (.rx b) s = { s with cursor := b, bus := .data })

/-- R130: every bus event is one operation of the opcode table, chosen by the event, the bus state, the cursor and the byte
(the key of R108), and the handler does exactly what that operation does. -/
def Obligations.HandlerRunsTheOperationOfTheTable : Prop :=
  ∀ (e : BusEvent) (s : State), ∃ i,
    decode (eventKey e s) = .ok i ∧
    tableMnemonic (eventKey e s).format (eventKey e s).key = some i.mnemonic ∧
    exec i s = .next (isr Config.device e s)

/-! ## The bus: data phase -/

/-- R137: `WR.LEVEL` stores the byte in the level register of channel `n`, at address `n`, and advances the cursor. -/
def Obligations.WriteLevelStoresAndAdvances : Prop :=
  ∀ (n : Chan) (b : Byte), StoresAndAdvances (.wrLevel n b) (BitVec.ofNat 8 n.val) b

/-- 40_bus_isr.md section 3: `WR.CTRL0` replaces the whole byte: OE, HWRESET, REGRESET and the unassigned bits are those of
the byte (that HWRESET is plain storage is decision D5, log 5; the unassigned bits, decision D2, log 6). -/
def Obligations.WriteControl0ReplacesTheByte : Prop :=
  ∀ b : Byte,
    StoresAndAdvances (.wrCtrl0 b) 0x18 b ∧
    ∀ s, ∃ t, exec (.wrCtrl0 b) s = .next t ∧
      oeBit (regRead Config.device 0x18 t) = b.getLsbD 0 ∧
      hwresetBit (regRead Config.device 0x18 t) = b.getLsbD 6 ∧
      regresetBit (regRead Config.device 0x18 t) = b.getLsbD 7

/-- 40_bus_isr.md section 3, decisions D1 and D2 (logs 4 and 6): the reserved register and the unlisted addresses are plain
storage, and the cursor wraps from 0xFF to 0x00. -/
def Obligations.WriteReservedAndUnlistedStores : Prop :=
  (∀ b : Byte, StoresAndAdvances (.wrCtrl1 b) 0x19 b) ∧
  (∀ a b : Byte, a = 0x1C ∨ a = 0x1D ∨ (0x80 ≤ a.toNat ∧ a ≠ 0xDD) → StoresAndAdvances (.wrUndoc a b) a b)

/-- R140: `WR.FREQ` stores one byte of the frequency register. In a transaction the field stays protected between its two
bytes and no longer after the second; the two bytes are little-endian (R70). -/
def Obligations.WriteFrequencyBytes : Prop :=
  (∀ b : Byte, StoresAndAdvances (.wrFreqLo b) 0x1A b) ∧
  (∀ b : Byte, StoresAndAdvances (.wrFreqHi b) 0x1B b) ∧
  ∀ (lo hi : Byte) (s : State), s.bus = .data → ∃ t u,
    exec (.wrFreqLo lo) s = .next t ∧ wip 0x1A 2 t = true ∧
    exec (.wrFreqHi hi) t = .next u ∧ wip 0x1A 2 u = false ∧
    memRead Config.device 0x1A 2 u = lo.toNat + 256 * hi.toNat

/-- R142, R144, and 40_bus_isr.md section 3 for the limit: the four bytes of a channel's configuration group, at
`0x20 + 4n + j`; the timeout stays protected between its two bytes. -/
def Obligations.WriteConfigurationBytes : Prop :=
  (∀ (n : Chan) (b : Byte), StoresAndAdvances (.wrCfgMode n b) (BitVec.ofNat 8 (0x20 + 4 * n.val)) b) ∧
  (∀ (n : Chan) (b : Byte), StoresAndAdvances (.wrCfgLimit n b) (BitVec.ofNat 8 (0x21 + 4 * n.val)) b) ∧
  (∀ (n : Chan) (b : Byte), StoresAndAdvances (.wrCfgTlo n b) (BitVec.ofNat 8 (0x22 + 4 * n.val)) b) ∧
  (∀ (n : Chan) (b : Byte), StoresAndAdvances (.wrCfgThi n b) (BitVec.ofNat 8 (0x23 + 4 * n.val)) b) ∧
  ∀ (n : Chan) (lo hi : Byte) (s : State), s.bus = .data → ∃ t u,
    exec (.wrCfgTlo n lo) s = .next t ∧ wip (BitVec.ofNat 8 (0x22 + 4 * n.val)) 2 t = true ∧
    exec (.wrCfgThi n hi) t = .next u ∧ wip (BitVec.ofNat 8 (0x22 + 4 * n.val)) 2 u = false ∧
    memRead Config.device (BitVec.ofNat 8 (0x22 + 4 * n.val)) 2 u = lo.toNat + 256 * hi.toNat

/-- 40_bus_isr.md sections 3 and 5: a write to an identification register is discarded and only moves the cursor (the advance
is decision D7, log 9); a read answers the fixed codes; a read at 0xDD answers 0 (decision D3, log 7). -/
def Obligations.IdentificationRegistersAreReadOnly : Prop :=
  ∀ s : State,
    (∀ b : Byte, exec (.wrIdVersion b) s = .next { s with cursor := 0x1F }) ∧
    (∀ b : Byte, exec (.wrIdWhoami b) s = .next { s with cursor := 0x20 }) ∧
    (IdentityKept s →
      exec (.rd 0x1E) s = .next { s with cursor := 0x1F, busReply := some Config.device.versionCode } ∧
      exec (.rd 0x1F) s = .next { s with cursor := 0x20, busReply := some Config.device.whoamiCode } ∧
      exec (.rd 0xDD) s = .next { s with cursor := 0xDE, busReply := some 0x00 })

/-- 20_memory.md section 3 and 40_bus_isr.md section 5: a read request answers the byte at the cursor and advances the cursor;
nothing else changes, so reads are idempotent. That the successor of 0xFF is 0x00 is decision D1 (log 4); `busReply`, which
holds the answer, is the model's own (log 42). -/
def Obligations.ReadAnswersAndAdvances : Prop :=
  ∀ (c : Byte) (s : State),
    exec (.rd c) s = .next { s with busReply := some (regRead Config.device c s), cursor := c + 1 }

/-! ## The bus: the reset handshake -/

/-- 40_bus_isr.md section 4, decision D9 (log 11): the arm code arms from `HS_IDLE` and returns to `HS_IDLE` from every other
state; a confirm code less than 5 000 000 microseconds after the arm confirms its kind, and in every other case the handshake
returns to `HS_IDLE`. The byte is not stored; the cursor goes to 0xDE (D7, log 9). -/
def Obligations.HandshakeCodesFollowTheSequence : Prop :=
  ∀ s : State,
    (s.hs = .idle → exec .hsArm s = .next { s with hs := .armed s.now, cursor := 0xDE }) ∧
    (s.hs ≠ .idle → exec .hsArm s = .next { s with hs := .idle, cursor := 0xDE }) ∧
    (∀ t, s.hs = .armed t → s.now < t + 5000000 →
      exec .hsReset s = .next { s with hs := .confirmed .cpu s.now, cursor := 0xDE } ∧
      exec .hsBootsel s = .next { s with hs := .confirmed .bootsel s.now, cursor := 0xDE }) ∧
    ((∀ t, s.hs = .armed t → t + 5000000 ≤ s.now) →
      exec .hsReset s = .next { s with hs := .idle, cursor := 0xDE } ∧
      exec .hsBootsel s = .next { s with hs := .idle, cursor := 0xDE })

/-- 40_bus_isr.md section 4: any other byte at 0xDD returns the handshake to `HS_IDLE` from any state, and nothing is logged.
That the cursor goes to 0xDE after it is decision D7 (log 9). -/
def Obligations.OtherHandshakeByteResetsTheHandshake : Prop :=
  ∀ (b : Byte) (s : State), b ≠ 0x11 → b ≠ 0x22 → b ≠ 0x33 →
    exec (.hsOther b) s = .next { s with hs := .idle, cursor := 0xDE }

/-- 40_bus_isr.md section 4 and decision D9 (log 11): only a byte written while the cursor is 0xDD changes the handshake, and
only the right code inside the arm window makes it confirmed. -/
def Obligations.OnlyHandshakeBytesMoveTheHandshake : Prop :=
  ∀ (e : BusEvent) (s : State),
    ((isr Config.device e s).hs ≠ s.hs → (∃ b, e = .rx b) ∧ s.bus = .data ∧ s.cursor = 0xDD) ∧
    ∀ kind t, (isr Config.device e s).hs = .confirmed kind t → s.hs = .confirmed kind t ∨
      (∃ t₀, s.hs = .armed t₀ ∧ s.now < t₀ + 5000000) ∧ t = s.now ∧
        e = .rx (match kind with | .cpu => 0x22 | .bootsel => 0x33)

/-! ## The bus: transactions and protection -/

/-- 20_memory.md section 5: the protected read fails exactly while a write to the field is in progress (the definition of that
predicate is decision D8, log 10), and otherwise answers the field's bytes; bus events held during the section are handled
when it ends (decision D28, log 28). -/
def Obligations.AtomicReadFailsOrReadsTheField : Prop :=
  ∀ (a : Byte) (w : Nat) (s : State),
    (atomicRead Config.device a w s).1 =
      (if s.bus = .data ∧ a.toNat ≤ s.cursor.toNat ∧ s.cursor.toNat < a.toNat + w then none
       else some (memRead Config.device a w s)) ∧
    (atomicRead Config.device a w s).2 = isrAll Config.device s.held { s with irqMasked := false, held := [] }

/-- 20_memory.md section 5: while one transaction that writes both bytes of a 16-bit field is under way, cut off at any event,
the protected read fails or answers the old or the new value, never a mixture; at its end it answers the new value. The
transaction may start at any address, end after any byte and wrap past the end of the array (modulo 256: decision D1, log 4),
as long as it passes the field once. Where it passes 0x1E, 0x1F or 0xDD before the field, that the cursor advances past those
bytes, so that the two bytes land in the field, is decision D7, log 9. The definition of the write-in-progress predicate is
decision D8, log 10. -/
def Obligations.ProtectedReadIsNeverTorn : Prop :=
  ∀ (a b : Byte) (pre post : List Byte) (lo hi : Byte) (k : Nat) (s : State),
    (a = 0x1A ∨ ∃ n : Chan, a = BitVec.ofNat 8 (0x22 + 4 * n.val)) →
    b + BitVec.ofNat 8 pre.length = a → pre.length ≤ 254 → post.length ≤ 254 →
    let es := writeEvents b (pre ++ [lo, hi] ++ post)
    let r := (atomicRead Config.device a 2 (isrAll Config.device (es.take k) s)).1
    (r = none ∨ r = some (memRead Config.device a 2 s) ∨ r = some (lo.toNat + 256 * hi.toNat)) ∧
    (atomicRead Config.device a 2 (isrAll Config.device es s)).1 = some (lo.toNat + 256 * hi.toNat)

/-- 30_encoding.md section 5 (its rule R113, which the spec marks as its own inference): one long write transaction does what
the one-byte writes at consecutive addresses do, and the replies of consecutive read requests are the bytes at consecutive
addresses. That consecutive means modulo 256 is decision D1 (log 4); that the address advances past 0x1E, 0x1F and 0xDD
inside a long write is decision D7 (log 9). -/
def Obligations.LongTransactionsAreOneByteTransactions : Prop :=
  (∀ (a : Byte) (data : List Byte) (s : State), data ≠ [] →
    isrAll Config.device (writeEvents a data) s = isrAll Config.device (singleWrites a data) s) ∧
  ∀ (k : Nat) (s : State),
    let t := isrAll Config.device (List.replicate k .rq) s
    t = { s with cursor := t.cursor, busReply := t.busReply } ∧
    (isr Config.device .rq t).busReply = some (regRead Config.device (s.cursor + BitVec.ofNat 8 k) s)

/-- 60_exceptions.md section 2 and decision D28 (log 28): an event that arrives while interrupts are masked is held, and the
events held are handled in arrival order when the section ends, exactly as if they had arrived just after it; none is
lost. -/
def Obligations.MaskedEventsAreHeldAndHandledInOrder : Prop :=
  (∀ (e : BusEvent) (rest : List Move) (s : State), s.agenda = .event e :: rest → s.run = .running → s.irqMasked = true →
    step s = .next { s with agenda := rest, held := s.held ++ [e] }) ∧
  ∀ (es : List BusEvent) (s : State), s.run = .running → s.irqMasked = true →
    leaveSection Config.device (deliverAll Config.device es s) = deliverAll Config.device es (leaveSection Config.device s)

/-- 40_bus_isr.md section 1 and 60_exceptions.md section 4: a bus event touches one register byte at most, the cursor, the bus
state and the handshake (and `busReply`, the model's own, log 42). The register is the one at the cursor, written by a byte
received in the data phase where the cursor is neither at an identification register nor at the handshake register (plain
storage at the unlisted addresses: decision D2, log 6); every other event leaves all registers as they are. An engine phase
that neither restarts nor is hit by bus events never writes the cursor, the bus state, the handshake, the host or the clock,
and writes registers only in `REG.RESET`. -/
def Obligations.WhoMayTouchWhat : Prop :=
  (∀ (e : BusEvent) (s : State),
    let t := isr Config.device e s
    let stores := s.bus = .data ∧ s.cursor ≠ 0x1E ∧ s.cursor ≠ 0x1F ∧ s.cursor ≠ 0xDD
    t = { s with regs := t.regs, cursor := t.cursor, bus := t.bus, hs := t.hs, busReply := t.busReply } ∧
    (∀ b, e = .rx b → stores →
      ∀ x, regRead Config.device x t = if x = s.cursor then b else regRead Config.device x s) ∧
    (¬ ((∃ b, e = .rx b) ∧ stores) → t.regs = s.regs)) ∧
  ∀ (p : Phase) (i : Instr) (s t : State), decode ⟨.M, p.val, []⟩ = .ok i → Quiet s →
    restartDue Config.device s.now s.hs = none → exec i s = .next t →
    t.cursor = s.cursor ∧ t.bus = s.bus ∧ t.hs = s.hs ∧ t.busReply = s.busReply ∧ t.host = s.host ∧ t.now = s.now ∧
    t.run = s.run ∧ (i ≠ .regReset → t.regs = s.regs)

/-! ## The engine -/

/-- 10_state.md section 2, 41_engine.md section 1 (the numbering of the phases is decision D12, log 15): each of the 29 phases is
an operation that completes from every state, whatever bus events land in it, and ends at the next phase modulo 29; only
`HS.EVAL` may restart the device instead. -/
def Obligations.EveryPhaseCompletesAndAdvances : Prop :=
  ∀ p : Phase, ∃ i, decode ⟨.M, p.val, []⟩ = .ok i ∧
    ∀ s, ∃ t, exec i s = .next t ∧
      (t.phase.val = (p.val + 1) % 29 ∨
        p.val = 1 ∧ ∃ kind, restartDue Config.device s.now (window Config.device s).hs = some kind ∧
          t = restart Config.device (restartOf kind) (window Config.device s))

/-- 41_engine.md section 2, `WDT.FEED`: it sets the time of the last feed to the clock and goes to phase 1. That the clock is
taken at the start of the phase is decision D12 (log 15); that bus events may land in the phase, which then change only what
a bus operation may change, is decision D32 (log 2). -/
def Obligations.WatchdogFeedTakesTheClock : Prop :=
  ∀ s : State, ∃ t, exec .wdtFeed s = .next t ∧ t.wdtLastFeed = s.now ∧ t.phase = 1 ∧
    IsrOnly { s with wdtLastFeed := s.now, phase := 1 } t ∧
    (s.arrivals = [] → t = { s with wdtLastFeed := s.now, phase := 1 })

/-- 41_engine.md section 2, `HS.EVAL`: it samples the handshake once (after the bus events that land before the sample:
decision D10, log 12; decision D32, log 2). A confirmed code whose grace period has elapsed at the phase's clock value
restarts the device; else the phase ends, with no effect. The difference of a confirm that lands in the phase after time has
passed in it, so later than the phase's clock value, is 0 (log 44). -/
def Obligations.HandshakeEvalRestartsExactlyWhenDue : Prop :=
  ∀ s : State,
    let h := (window Config.device s).hs
    (∀ kind t₀, h = .confirmed kind t₀ → Config.device.resetGraceUs ≤ s.now - t₀ →
      exec .hsEval s = .next (restart Config.device (match kind with | .cpu => .cpu | .bootsel => .bootsel)
        (window Config.device s))) ∧
    ((∀ kind t₀, h = .confirmed kind t₀ → s.now - t₀ < Config.device.resetGraceUs) →
      ∃ t, exec .hsEval s = .next t ∧ IsrOnly { s with phase := 2 } t ∧ (s.arrivals = [] → t = { s with phase := 2 }))

/-- 10_state.md section 10, 60_exceptions.md section 3, 70_reset_and_hazards.md section 1: after power-on, and after a CPU or
watchdog restart, every register and every piece of engine, bus and allocator state has the value of the spec's table and
the outputs are high-impedance; a restart touches neither the clock nor the host driver. The document itself gives few of
those values; the spec decides the others: the unlisted bytes and CTRL1 at 0 (D2, log 6), 0xDD at 0 (D3, log 7), bit 6 of
CTRL0 (D5, log 5), cursor 0 (D6, log 8), what a restart does (D11, log 14), no applied setting, no class setting and outputs
off (D18, log 21), level and count 0 (D22, log 24), the assignment order and the pin map (D23, log 25), the boot sequence
(D26, log 30), the emptied log (D31, log 32). (Power-on's clock 0, log 34, and driver object, log 35, are the model's choice
and are not claimed.) -/
def Obligations.HardwareResetLeavesTheTableOfValues : Prop :=
  HardwareResetValues State.reset ∧
  ∀ (kind : RestartKind) (s : State), kind ≠ .bootsel →
    HardwareResetValues (restart Config.device kind s) ∧
    (restart Config.device kind s).now = s.now ∧
    (restart Config.device kind s).host = s.host

/-- 60_exceptions.md section 3, decision D11 (log 14): the bootloader restart leaves every pin high-impedance, and from the
boot loader no step answers the bus or changes anything of the device again. -/
def Obligations.BootloaderIsTerminalAndHighImpedance : Prop :=
  (∀ s : State, let t := restart Config.device .bootsel s
    t.run = .bootloader ∧ (∀ n, t.pin n = .hiz) ∧ t.now = s.now ∧ t.host = s.host) ∧
  ∀ s t : State, s.run = .bootloader → step s = .next t →
    t = { s with
      agenda := t.agenda, now := t.now, host := t.host
      freeCount := t.freeCount, link := t.link, line := t.line, beside := t.beside }

/-- 41_engine.md section 2, `REG.RESET` (order and runtime values are decision D13, log 16; the bytes at 0x1C, 0x1D and 0x80 to
0xFF at 0 are decision D2, log 6, the one at 0xDD decision D3, log 7): with no bus event in the phase, a
requested register reset leaves every register at its register-reset value (the identification registers as they were, the
request bit 0), initialises the runtime state and touches nothing else; the request bit stays 1 until every other write is
done; without a request the phase does nothing. -/
def Obligations.RegisterResetRestoresDefaultsAndClearsTheRequestLast : Prop :=
  ∀ s : State, Quiet s →
    (regresetBit (regRead Config.device 0x18 s) = true →
      (∀ k, regresetBit (regRead Config.device 0x18 (runScript Config.device ((resetScript Config.device).take k) s)) = true) ∧
      ∃ t, exec .regReset s = .next t ∧
        (∀ a, regRead Config.device a t = registerResetByte s a) ∧
        t = { s with
          regs := t.regs, phase := 3
          lastLevel := Vector.replicate 24 0
          duty := Vector.replicate 24 none
          deadline := Vector.replicate 24 none }) ∧
    (regresetBit (regRead Config.device 0x18 s) = false → exec .regReset s = .next { s with phase := 3 })

/-- 41_engine.md section 2, `CH.UPDATE n` (the skips are decision D14, log 17): a write in progress to the level, or to the
timeout when a deadline is to be armed, skips the channel with nothing changed. Otherwise the level is seen, the deadline
follows it, and the computed duty is pushed exactly when it differs from the one last pushed. -/
def Obligations.ChannelUpdateComputesAndPushes : Prop :=
  ∀ (n : Chan) (s : State), Quiet s →
    (wip (levelAddr n) 1 s = true → exec (.chUpdate n) s = .next { s with phase := chPhase n + 1 }) ∧
    (wip (levelAddr n) 1 s = false → Crossing n s → wip (cfgAddr n 2) 2 s = true →
      exec (.chUpdate n) s = .next { s with phase := chPhase n + 1 }) ∧
    (wip (levelAddr n) 1 s = false → (Crossing n s → wip (cfgAddr n 2) 2 s = false) →
      ∃ t, exec (.chUpdate n) s = .next t ∧
        t = { s with
          phase := chPhase n + 1
          lastLevel := s.lastLevel.set n (levelOf n s)
          deadline := s.deadline.set n (deadlineAfter n s)
          duty := s.duty.set n (some (dutyAfter n s))
          alloc := t.alloc } ∧
        (s.duty[n] = some (dutyAfter n s) → t.alloc = s.alloc) ∧
        (s.duty[n] ≠ some (dutyAfter n s) →
          exec (.setLevel n.val (dutyAfter n s)) s = .next { s with alloc := t.alloc }))

/-- 41_engine.md section 2 and 60_exceptions.md section 4: whatever bus events land in it, `CH.UPDATE n` changes the runtime
state, the level and the count of channel `n` alone, and nothing else of the engine, the allocator, the log or the host. -/
def Obligations.ChannelUpdateTouchesItsChannelOnly : Prop :=
  ∀ (n : Chan) (s t : State), exec (.chUpdate n) s = .next t →
    (∀ m : Chan, m ≠ n → t.lastLevel[m] = s.lastLevel[m] ∧ t.duty[m] = s.duty[m] ∧ t.deadline[m] = s.deadline[m] ∧
      t.alloc.level[m] = s.alloc.level[m] ∧ t.alloc.count[m] = s.alloc.count[m]) ∧
    t.alloc = { s.alloc with level := t.alloc.level, count := t.alloc.count } ∧
    t.log = s.log ∧ t.appliedFreq = s.appliedFreq ∧ t.appliedEnable = s.appliedEnable ∧
    t.wdtLastFeed = s.wdtLastFeed ∧ t.run = s.run ∧ t.host = s.host

/-- 41_engine.md section 3, `CalcDuty` (decisions D16 and D17; logs 19 and 20): the gamma table where the mode's bit 1 selects
it, else the linear table `e / 255`; the complement where bit 0 is set; always a fraction in 0 to 1. For every device
parameter set that is well formed, either polarity of the selection among them. -/
def Obligations.DutyIsMappedThenInverted : Prop :=
  (∀ (P : Params) (e mode : Byte), P.WellFormed →
    (0 ≤ calcDuty P e mode ∧ calcDuty P e mode ≤ 1) ∧
    (mode.getLsbD 0 = true → calcDuty P e mode = 1 - calcDuty P e (mode &&& 0xFE)) ∧
    (mode.getLsbD 0 = false → mode.getLsbD 1 ≠ P.gammaSelectInverted → calcDuty P e mode = P.gammaTable e) ∧
    (mode.getLsbD 0 = false → mode.getLsbD 1 = P.gammaSelectInverted → calcDuty P e mode = P.linearTable e)) ∧
  ∀ e : Byte, calcDuty Config.device e 0x00 = (e.toNat : Rat) / 255 ∧
    calcDuty Config.device e 0x02 = Config.device.gammaTable e

/-- 41_engine.md section 3, `UpdateDeadline` and `EffectiveLevel` (the conversion to microseconds and the closed bound are
decision D15, log 18): a deadline is armed on newly crossing above the limit, kept while above, cleared at or below; the
limit replaces the level from the deadline on. -/
def Obligations.ThrottleDeadlineAndOverride : Prop :=
  (∀ (n : Chan) (L prev limit : Byte) (dl : Option Nat) (now : Nat) (s : State), Quiet s →
    let u := updateDeadline Config.device n L prev limit dl now s
    u.state = s ∧
    (L ≤ limit → u.ok = true ∧ u.dl = none) ∧
    (limit < L → limit < prev → u.ok = true ∧ u.dl = dl) ∧
    (limit < L → prev ≤ limit → wip (cfgAddr n 2) 2 s = true → u.ok = false) ∧
    (limit < L → prev ≤ limit → wip (cfgAddr n 2) 2 s = false →
      u.ok = true ∧ u.dl = some (now + 1000 * memRead Config.device (cfgAddr n 2) 2 s))) ∧
  ∀ (L limit : Byte) (now : Nat),
    effectiveLevel L limit none now = L ∧
    ∀ t, (t ≤ now → effectiveLevel L limit (some t) now = limit) ∧ (now < t → effectiveLevel L limit (some t) now = L)

/-- 41_engine.md section 4, the document's end-to-end property: gamma on, active-low off, limit 128, timeout 1000 ms; the level
255 is first seen at `s.now`. Every later update of the channel with no register write pushes the gamma value of 255 until
1000 ms have elapsed, and that of 128 from then on. That the time is measured from the phase that first sees the level is
the spec's own inference, and the boundary microsecond is decision D15 (log 18). The registers, and the channel's runtime
state, are what the first update left; the clock is any later one. -/
def Obligations.ThrottleLimitsAfterItsTimeout : Prop :=
  ∀ (n : Chan) (s : State), Quiet s → wip (levelAddr n) 1 s = false → wip (cfgAddr n 2) 2 s = false →
    modeOf n s = 0x02 → limitOf n s = 128 → timeoutOf n s = 1000 → levelOf n s = 255 → s.lastLevel[n] ≤ (128 : Byte) →
    ∃ t, exec (.chUpdate n) s = .next t ∧ t.duty[n] = some (Config.device.gammaTable 255) ∧
      ∀ u : State, Quiet u → u.regs = s.regs → wip (levelAddr n) 1 u = false →
        u.lastLevel[n] = t.lastLevel[n] → u.deadline[n] = t.deadline[n] → s.now ≤ u.now →
        ∃ v, exec (.chUpdate n) u = .next v ∧
          v.duty[n] = some (Config.device.gammaTable (if u.now < s.now + 1000000 then 255 else 128)) ∧
          v.regs = u.regs ∧ v.lastLevel[n] = t.lastLevel[n] ∧ v.deadline[n] = t.deadline[n]

/-- 41_engine.md section 2, `FREQ.APPLY`: it skips while a write to `FREQ` is in progress; applies the value of `FREQ` when it
differs from the one last applied (none at first: decision D18, log 21); else does nothing. -/
def Obligations.FrequencyIsAppliedOnChange : Prop :=
  ∀ s : State, Quiet s →
    let f := memRead Config.device 0x1A 2 s
    (wip 0x1A 2 s = true → exec .freqApply s = .next { s with phase := 28 }) ∧
    (s.appliedFreq = some (BitVec.ofNat 16 f) → exec .freqApply s = .next { s with phase := 28 }) ∧
    (wip 0x1A 2 s = false → s.appliedFreq ≠ some (BitVec.ofNat 16 f) →
      ∃ u, exec (.applyFreq f) s = .next u ∧
        exec .freqApply s = .next { u with appliedFreq := some (BitVec.ofNat 16 f), phase := 28 })

/-- 41_engine.md section 2, `OE.APPLY`: it passes the output-enable bit on when it differs from the one last applied (false at
first: decision D18, log 21), and does nothing else. -/
def Obligations.OutputEnableIsAppliedOnChange : Prop :=
  ∀ s : State, s.arrivals = [] →
    let e := oeBit (regRead Config.device 0x18 s)
    (e = s.appliedEnable → exec .oeApply s = .next { s with phase := 0 }) ∧
    (e ≠ s.appliedEnable → ∃ u, exec (.enableOutputs e) s = .next u ∧
      exec .oeApply s = .next { u with appliedEnable := e, phase := 0 })

/-! ## The allocator -/

/-- 42_allocator.md section 1, `AssignChannel` (the pin-to-slice map is decision D23 and PRESUMED, log 25): an unbound channel
gets its pin's native timer channel when that is unclaimed or its own, else what the soft-PWM fallback answers; its level
and count are 0; no other channel changes. On a channel that is bound already nothing changes: the model's reading, log 37. -/
def Obligations.AssignPrefersTheNativeTimer : Prop :=
  ∀ (n : Chan) (s : State),
    let p := Config.device.pinOfChannel n
    let sl : SliceIx := ⟨(p / 2) % 8, Nat.mod_lt _ (by decide)⟩
    let ch : SliceChan := ⟨p % 2, Nat.mod_lt _ (by decide)⟩
    (s.alloc.binding[n] ≠ .unbound → exec (.assignChannel n.val) s = .next s) ∧
    (s.alloc.binding[n] = .unbound → ∃ t, exec (.assignChannel n.val) s = .next t ∧
      t = { s with alloc := t.alloc, log := t.log } ∧
      t.alloc = { s.alloc with
        binding := t.alloc.binding, sliceClaim := t.alloc.sliceClaim, units := t.alloc.units
        level := t.alloc.level, count := t.alloc.count } ∧
      t.alloc.level[n] = 0 ∧ t.alloc.count[n] = 0 ∧
      (∀ m : Chan, m ≠ n → t.alloc.binding[m] = s.alloc.binding[m] ∧ t.alloc.level[m] = s.alloc.level[m] ∧
        t.alloc.count[m] = s.alloc.count[m]) ∧
      (∀ (sl' : SliceIx) (ch' : SliceChan), (sl', ch') ≠ (sl, ch) →
        t.alloc.sliceClaim[sl'][ch'] = s.alloc.sliceClaim[sl'][ch']) ∧
      (s.alloc.sliceClaim[sl][ch] = none ∨ s.alloc.sliceClaim[sl][ch] = some p →
        t.alloc.binding[n] = .timer sl ch ∧ t.alloc.sliceClaim[sl][ch] = some p ∧ t.alloc.units = s.alloc.units ∧
        t.log = s.log) ∧
      (∀ q, s.alloc.sliceClaim[sl][ch] = some q → q ≠ p →
        t.alloc.binding[n] = (assignSoft Config.device p s.alloc).1 ∧
        t.alloc.sliceClaim = s.alloc.sliceClaim ∧
        t.alloc.units = (assignSoft Config.device p s.alloc).2.1.units ∧
        t.log = s.log ++ (assignSoft Config.device p s.alloc).2.2))

/-- 42_allocator.md section 1, `AssignSoft` (unit and lane order are decision D23, log 25), for every device: a free lane of a
loaded unit first, units 0 then 1, the lowest free lane; else a fresh load, in the same order; else E1 and FAILED. -/
def Obligations.SoftLanesAreReusedBeforeAFreshLoad : Prop :=
  ∀ (P : Params) (p : Pin) (a : Allocator),
    let free : UnitIx → LaneIx → Prop := fun u l => a.units[u].lanes[l] = .free
    let reusable : UnitIx → Prop := fun u => a.units[u].loaded = true ∧ ∃ l, free u l
    let loadable : UnitIx → Prop := fun u => a.units[u].loaded = false ∧ P.unitAvailable u = true ∧ ∃ l, free u l
    let taken : UnitIx → LaneIx → Binding × Allocator × List ErrorRecord := fun u l =>
      (.lane u l, { a with units := a.units.set u ⟨true, a.units[u].lanes.set l (.pin p)⟩ }, [])
    (∀ u l, reusable u → (∀ u', u' < u → ¬ reusable u') → free u l → (∀ l', l' < l → ¬ free u l') →
      assignSoft P p a = taken u l) ∧
    (∀ u l, (∀ u', ¬ reusable u') → loadable u → (∀ u', u' < u → ¬ loadable u') → free u l →
      (∀ l', l' < l → ¬ free u l') → assignSoft P p a = taken u l) ∧
    ((∀ u, ¬ reusable u) → (∀ u, ¬ loadable u) → assignSoft P p a = (.failed, a, [.resourceExhausted p]))

/-- 10_state.md section 6, 60_exceptions.md section 1, 70_reset_and_hazards.md section 1, for every device: the boot sequence
decides every channel, logs E1 with the pin for exactly the channels that failed, in channel order, and, when the pin map is
injective, never gives two channels one resource. -/
def Obligations.BootBindsEachResourceAtMostOnce : Prop :=
  ∀ P : Params,
    (∀ n : Chan, (bootAllocator P).1.binding[n] ≠ .unbound) ∧
    (bootAllocator P).2 = ((List.finRange 24).filter fun n => (bootAllocator P).1.binding[n] = .failed).map
      (fun n => .resourceExhausted (P.pinOfChannel n)) ∧
    (P.WellFormed → ∀ n m : Chan, n ≠ m → (bootAllocator P).1.binding[n] = (bootAllocator P).1.binding[m] →
      (bootAllocator P).1.binding[n] = .failed)

/-- R203: `IsConfigured` answers true exactly when the channel is bound to a timer channel or a lane, and reads only. -/
def Obligations.IsConfiguredMeansTimerOrLane : Prop :=
  ∀ (n : Chan) (s : State), ∃ b,
    exec (.isConfigured n.val) s = .next { s with callReply := some (.flag b) } ∧
    (b = true ↔ (∃ sl ch, s.alloc.binding[n] = .timer sl ch) ∨ (∃ u l, s.alloc.binding[n] = .lane u l))

/-- 42_allocator.md section 3, `SetLevel` and `GetLevel` (decisions D18 and D22; logs 21 and 24): an inert channel and a
repeated value change nothing; else the fraction is stored and the count is `ToCount` of it, or waits for the first cycle
length. `GetLevel` answers the fraction last accepted, 0 for an inert channel, and reads only. -/
def Obligations.SetLevelStoresWhatGetLevelAnswers : Prop :=
  ∀ (n : Chan) (d : Rat) (s : State), 0 ≤ d → d ≤ 1 → ∃ t,
    exec (.setLevel n.val d) s = .next t ∧
    t = { s with alloc := { s.alloc with level := t.alloc.level, count := t.alloc.count } } ∧
    (∀ m : Chan, m ≠ n → t.alloc.level[m] = s.alloc.level[m] ∧ t.alloc.count[m] = s.alloc.count[m]) ∧
    (s.alloc.binding[n].cls = none → t = s ∧
      exec (.getLevel n.val) t = .next { t with callReply := some (.level 0) }) ∧
    (d = s.alloc.level[n] → t = s) ∧
    (∀ k, s.alloc.binding[n].cls = some k →
      t.alloc.level[n] = d ∧
      exec (.getLevel n.val) t = .next { t with callReply := some (.level d) } ∧
      (d ≠ s.alloc.level[n] →
        (∀ rs, (s.alloc.cls k).res = some rs → t.alloc.count[n] = toCount d rs) ∧
        ((s.alloc.cls k).res = none → t.alloc.count[n] = s.alloc.count[n])))

/-- R204 (and, for the counts, 42_allocator.md section 2, `Rescale`): `ApplyFreq` programs both classes with the pair that
`ComputeDivRes` answers, logs E2 for each class that took the floor branch (the timer class first), recomputes the counts
of a class whose cycle length changed from the stored fractions, and keeps every level, binding, claim and output
state. -/
def Obligations.ApplyFreqProgramsAndRescales : Prop :=
  ∀ (f : Half) (s : State), ∃ t,
    exec (.applyFreq f.toNat) s = .next t ∧
    t = { s with alloc := t.alloc, log := t.log } ∧
    t.alloc = { s.alloc with timer := t.alloc.timer, lane := t.alloc.lane, count := t.alloc.count } ∧
    (∀ k : ResClass,
      let r := computeDivRes (Config.device.cls k) f
      t.alloc.cls k = ⟨some r.div, some r.res⟩ ∧
      ∀ n : Chan, s.alloc.binding[n].cls = some k →
        t.alloc.count[n] = if (s.alloc.cls k).res = some r.res then s.alloc.count[n] else toCount s.alloc.level[n] r.res) ∧
    (∀ n : Chan, s.alloc.binding[n].cls = none → t.alloc.count[n] = s.alloc.count[n]) ∧
    t.log = s.log ++
      (if (computeDivRes Config.device.timer f).err then [.freqOutOfRange .timer f] else []) ++
      (if (computeDivRes Config.device.lane f).err then [.freqOutOfRange .lane f] else [])

/-- 42_allocator.md section 2, `ComputeDivRes` and its property (rounding is decision D21, log 24; frequency 0 is decision D19,
log 22), for every well-formed device: the pair is inside the hardware's bounds; below the floor (and at 0) it is the floor
configuration with the error; in the middle branch the product is within half a divider step at full resolution of the
period in counts; in the high branch, for a frequency that at least one count represents, within half a count. -/
def Obligations.DividerAndResolutionReproduceTheFrequency : Prop :=
  ∀ (P : Params) (k : ResClass) (f : Half), P.WellFormed →
    let c := P.cls k
    let r := computeDivRes c f
    let F : Rat := c.fClk / c.cpc
    let d0 : Rat := F / (f.toNat * c.resMax)
    (c.divMin ≤ r.div ∧ r.div ≤ c.divMax ∧ 1 ≤ r.res ∧ r.res ≤ c.resMax) ∧
    (r.err = true ↔ f = 0 ∨ c.divMax < d0) ∧
    (r.err = true → r.div = c.divMax ∧ r.res = c.resMax) ∧
    (f ≠ 0 → d0 < c.divMin → r.div = c.divMin ∧
      (1 / 2 ≤ F / (f.toNat * c.divMin) → |r.div * r.res - F / f.toNat| ≤ c.divMin / 2)) ∧
    (f ≠ 0 → c.divMin ≤ d0 → d0 ≤ c.divMax → r.res = c.resMax ∧ (∃ m : Nat, r.div = m / c.divDen) ∧
      |r.div * r.res - F / f.toNat| ≤ c.resMax / (2 * c.divDen))

/-- R209: `EnableOutputs` switches every bound pin between its PWM signal and high impedance and nothing else; the pins of the
other channels stay high-impedance; counts and levels are kept. -/
def Obligations.EnableOutputsSwitchesEveryBoundPin : Prop :=
  ∀ (e : Bool) (s : State), ∃ t,
    exec (.enableOutputs e) s = .next t ∧
    t = { s with alloc := { s.alloc with outEnabled := e } } ∧
    ∀ n : Chan,
      (s.alloc.binding[n].cls = none → t.pin n = .hiz) ∧
      ∀ k, s.alloc.binding[n].cls = some k →
        t.pin n = if e then .pwm s.alloc.count[n] (s.alloc.cls k).res (s.alloc.cls k).div else .hiz

/-- 10_state.md section 6 and 42_allocator.md section 3 (the rounding of the count is decision D22, log 24), under the machine's
invariant: an enabled, bound pin with a cycle length is active for its channel's level, to within half a count of the
period; level 0 is never active and level 1 always. -/
def Obligations.PinIsActiveForItsLevel : Prop :=
  ∀ (n : Chan) (k : ResClass) (rs : Nat) (s : State), Inv s → s.alloc.outEnabled = true →
    s.alloc.binding[n].cls = some k → (s.alloc.cls k).res = some rs →
    ∃ c dv, s.pin n = .pwm c (some rs) dv ∧ c ≤ rs ∧
      |activeFraction c rs - s.alloc.level[n]| ≤ 1 / (2 * (rs : Rat)) ∧
      (s.alloc.level[n] = 0 → activeFraction c rs = 0) ∧ (s.alloc.level[n] = 1 → activeFraction c rs = 1)

/-! ## The host driver -/

/-- 43_host_driver.md section 1: construction gives the object its bus address and reaches no device state; what its shadows
hold until `Init()` is free, and nothing here depends on it (log 36). `Init()` sets every shadow to the register-reset
default with nothing dirty and nothing pending (decision D29, log 29). -/
def Obligations.ConstructThenInitGivesACleanDriver : Prop :=
  ∀ s : State,
    (∀ a : BusAddr, ∃ t, exec (.hostConstruct a.toNat) s = .next t ∧ t.host.busAddr = a ∧
      t = { s with host := t.host, freeCount := t.freeCount }) ∧
    ∃ t, exec .hostInit s = .next t ∧
      t = { s with host := t.host } ∧ t.host.busAddr = s.host.busAddr ∧ t.host.traffic = s.host.traffic ∧
      t.host.pendingReset = none ∧ (∀ r : LogicalReg, t.host.shadow r = ⟨0, 0⟩) ∧ dirtyRegs t = []

/-- R242, R243: `Set` changes the local value of its channel only and makes it dirty exactly when it differs from the chip
value; `Get` then answers that value; neither does any I/O. -/
def Obligations.SetThenGetIsLocal : Prop :=
  ∀ (c : Chan) (v : Byte) (s : State), ∃ t u,
    exec (.hostSet c.val v.toNat) s = .next t ∧
    t = { s with host := { s.host with levels := t.host.levels } } ∧
    t.host.levels[c] = ⟨v, s.host.levels[c].chip⟩ ∧
    (t.host.levels[c].dirty = true ↔ v ≠ s.host.levels[c].chip) ∧
    (∀ d : Chan, d ≠ c → t.host.levels[d] = s.host.levels[d]) ∧
    exec (.hostGet c.val) t = .next u ∧ u = { t with host := { t.host with reply := some v } }

/-- 43_host_driver.md section 2: `EnableOutputs` and `Reboot` do no I/O: the first sets the local value of CTRL0 to 1 or 0, the
second makes a reset code pending at its arm step. -/
def Obligations.EnableAndRebootOnlyNoteTheIntent : Prop :=
  ∀ (b : Bool) (s : State),
    exec (.hostEnableOutputs b) s =
      .next { s with host := { s.host with ctrl0 := ⟨if b then 0x01 else 0x00, s.host.ctrl0.chip⟩ } } ∧
    exec (.hostReboot b) s =
      .next { s with host := { s.host with pendingReset := some ⟨if b then .bootsel else .cpu, .arm⟩ } }

/-- R245: `ConfigurePort` issues the one transaction `W (0x20 + 4c) : activeLow + 2 * gammaEnable` at once, on no shadow
register, whatever goes on beside it (log 39); on a working link the mode byte of the channel has that value, no other
register changes, and nothing else of the device but the cursor and the bus state does. -/
def Obligations.ConfigurePortWritesTheModeByte : Prop :=
  ∀ (c : Chan) (gamma low : Bool) (s : State),
    let a : Byte := BitVec.ofNat 8 (0x20 + 4 * c.val)
    let m : Byte := BitVec.ofNat 8 ((if low then 1 else 0) + 2 * (if gamma then 1 else 0))
    ∃ t ok, exec (.hostConfigurePort c.val gamma low) s = .next t ∧
      t.host = { s.host with traffic := s.host.traffic ++ [⟨a, [m], ok⟩] } ∧
      (s.beside = [] → IsrOnly { s with host := t.host, link := t.link } t) ∧
      (LinkUp 1 s → ok = true ∧ DeviceKept (a + 1) s t ∧ t.hs = s.hs ∧
        ∀ x, regRead Config.device x t = if x = a then m else regRead Config.device x s)

/-- 43_host_driver.md section 2, `ConfigureFlipperLogic` (one transaction of three bytes: decision D29, log 29): the limit and
the two timeout bytes at `0x21 + 4c`, at once, on no shadow register, whatever goes on beside it (log 39); on a working link
they have those values, no other register changes, and nothing else of the device but the cursor and the bus state does. -/
def Obligations.ConfigureFlipperLogicWritesLimitAndTimeout : Prop :=
  ∀ (c : Chan) (limit : Byte) (timeout : Half) (s : State),
    let a : Byte := BitVec.ofNat 8 (0x21 + 4 * c.val)
    let lo : Byte := BitVec.ofNat 8 (timeout.toNat % 256)
    let hi : Byte := BitVec.ofNat 8 (timeout.toNat / 256)
    ∃ t ok, exec (.hostConfigureFlipperLogic c.val limit.toNat timeout.toNat) s = .next t ∧
      t.host = { s.host with traffic := s.host.traffic ++ [⟨a, [limit, lo, hi], ok⟩] } ∧
      (s.beside = [] → IsrOnly { s with host := t.host, link := t.link } t) ∧
      (LinkUp 1 s → ok = true ∧ DeviceKept (a + 3) s t ∧ t.hs = s.hs ∧ timeoutOf c t = timeout.toNat ∧
        ∀ x, regRead Config.device x t =
          if x = a then limit else if x = a + 1 then lo else if x = a + 2 then hi else regRead Config.device x s)

/-- 43_host_driver.md section 2, service tick (the order of the registers and one reset code in each tick are decision D29, log
29; how a transaction ends is an input, log 38; what goes on beside the tick is an input, log 39): exactly one transaction for
each dirty register and none for a clean one, in the order LEVEL[0] to LEVEL[23], CTRL0, and after them the next code of a
pending reset; a register is clean after an acknowledged transaction and unchanged after a failed one, and the pending reset
goes on after an acknowledged code and stays after a failed one. With nothing dirty and nothing pending the tick does
nothing. -/
def Obligations.ServiceSendsEachDirtyRegisterOnce : Prop :=
  ∀ s : State,
    (∃ (t : State) (oks : List Bool) (codes : List Traffic), exec .hostService s = .next t ∧
      oks.length = (dirtyRegs s).length ∧
      t.host.traffic = s.host.traffic ++
        List.zipWith (fun r ok => ⟨r.addr, [(s.host.shadow r).loc], ok⟩) (dirtyRegs s) oks ++ codes ∧
      (∀ r ok, (r, ok) ∈ (dirtyRegs s).zip oks →
        t.host.shadow r = ⟨(s.host.shadow r).loc, if ok then (s.host.shadow r).loc else (s.host.shadow r).chip⟩) ∧
      (∀ r, (s.host.shadow r).dirty = false → t.host.shadow r = s.host.shadow r) ∧
      (s.host.pendingReset = none → codes = [] ∧ t.host.pendingReset = none) ∧
      (∀ kind, s.host.pendingReset = some ⟨kind, .arm⟩ → ∃ ok, codes = [⟨0xDD, [0x11], ok⟩] ∧
        t.host.pendingReset = some ⟨kind, if ok then .confirm else .arm⟩) ∧
      (∀ kind, s.host.pendingReset = some ⟨kind, .confirm⟩ →
        ∃ ok, codes = [⟨0xDD, [match kind with | .cpu => 0x22 | .bootsel => 0x33], ok⟩] ∧
          t.host.pendingReset = if ok then none else some ⟨kind, .confirm⟩) ∧
      t.host = { s.host with
        levels := t.host.levels, ctrl0 := t.host.ctrl0, traffic := t.host.traffic, pendingReset := t.host.pendingReset } ∧
      (s.beside = [] → IsrOnly { s with host := t.host, link := t.link } t)) ∧
    (dirtyRegs s = [] → s.host.pendingReset = none → exec .hostService s = .next { s with line := .idle, beside := [] })

/-- 43_host_driver.md section 2 and 40_bus_isr.md section 3, on a link that acknowledges the tick's transactions, a pending
reset code among them: after a service tick every shadow is clean, each dirty register's local value stands in the device
register it names, and every other device register is as before. -/
def Obligations.ServiceBringsTheDeviceUpToDate : Prop :=
  ∀ s : State, LinkUp s.host.serviceErrands.length s →
    ∃ t, exec .hostService s = .next t ∧ dirtyRegs t = [] ∧
      ∀ x : Byte, regRead Config.device x t = upToDateByte s x

/-- 43_host_driver.md section 2, `ForwardReset`, and 40_bus_isr.md section 4 (one code in each tick: decision D29, log 29): a
service tick sends the arm code, after the dirty registers if there are any; after its acknowledgement a later tick sends the
confirm code of the kind; a failed transaction is sent again. On a working link the device is then armed (or, if its handshake
was under way, back at `HS_IDLE`), and by the confirm confirmed if the arm window is open (decision D9, log 11); the registers
are brought up to date, the cursor is at 0xDE (decision D7, log 9), the bus is idle, and nothing else of the device has
changed. -/
def Obligations.ServiceForwardsThePendingReset : Prop :=
  ∀ (kind : ResetKind) (s : State),
    let code : Byte := match kind with | .cpu => 0x22 | .bootsel => 0x33
    let up : State → Prop := fun t =>
      DeviceKept 0xDE s t ∧ ∀ x : Byte, regRead Config.device x t = upToDateByte s x
    (s.host.pendingReset = some ⟨kind, .arm⟩ → ∃ t ok, exec .hostService s = .next t ∧
      t.host.traffic.getLast? = some ⟨0xDD, [0x11], ok⟩ ∧
      t.host.pendingReset = some ⟨kind, if ok then .confirm else .arm⟩ ∧
      (LinkUp s.host.serviceErrands.length s → ok = true ∧ up t ∧
        t.hs = if s.hs = .idle then .armed s.now else .idle)) ∧
    (s.host.pendingReset = some ⟨kind, .confirm⟩ → ∃ t ok, exec .hostService s = .next t ∧
      t.host.traffic.getLast? = some ⟨0xDD, [code], ok⟩ ∧
      t.host.pendingReset = (if ok then none else some ⟨kind, .confirm⟩) ∧
      (LinkUp s.host.serviceErrands.length s → ok = true ∧ up t ∧
        (∀ t₀, s.hs = .armed t₀ → s.now < t₀ + 5000000 → t.hs = .confirmed kind s.now) ∧
        ((∀ t₀, s.hs = .armed t₀ → t₀ + 5000000 ≤ s.now) → t.hs = .idle)))

/-! ## The step -/

/-- 00_scope.md section 3, 30_encoding.md section 3, 60_exceptions.md section 2: one step runs the operation that the agent's key
decodes to: the bus event (running and unmasked), the engine's phase (with the events that land in it, and with an empty
agenda too), the engine's question to the allocator, the host call (with the other agents' steps inside it, the engine's
phases among them, which are the operations their keys decode to). The agenda is the model's own, log 1; so is the question
as a step of its own, log 33, and what goes on beside a call, log 39. -/
def Obligations.StepRunsTheDecodedOperation : Prop :=
  ∀ (s : State) (rest : List Move) (i : Instr),
    (∀ b, s.bus ≠ .data → eventKey (.rx b) s = ⟨.A, b.toNat, []⟩) ∧
    (∀ b, s.bus = .data → eventKey (.rx b) s = ⟨.W, 256 * s.cursor.toNat + b.toNat, []⟩) ∧
    eventKey .rq s = ⟨.R, s.cursor.toNat, []⟩ ∧
    (∀ e, s.agenda = .event e :: rest → s.run = .running → s.irqMasked = false → decode (eventKey e s) = .ok i →
      step s = exec i { s with agenda := rest }) ∧
    (∀ during, s.agenda = .engine during :: rest → s.run = .running → decode ⟨.M, s.phase.val, []⟩ = .ok i →
      step s = exec i { s with agenda := rest, arrivals := during }) ∧
    (s.agenda = [] → s.run = .running → decode ⟨.M, s.phase.val, []⟩ = .ok i →
      step s = exec i { s with arrivals := [] }) ∧
    (∀ n : Chan, s.agenda = .query (.getLevel n) :: rest → s.run = .running →
      step s = exec (.getLevel n.val) { s with agenda := rest }) ∧
    (∀ n : Chan, s.agenda = .query (.isConfigured n) :: rest → s.run = .running →
      step s = exec (.isConfigured n.val) { s with agenda := rest }) ∧
    (∀ sel args beside, s.agenda = .host sel args beside :: rest → decode ⟨.H, sel, args⟩ = .ok i →
      step s = exec i { s with agenda := rest, beside := beside }) ∧
    (∀ during, s.run = .running → decode ⟨.M, s.phase.val, []⟩ = .ok i →
      exec i { s with arrivals := during } = .next (besideStep Config.device (.engine during) s))

/-- 60_exceptions.md section 5 (decision D27, log 31): the watchdog's step restarts a running device exactly when the last feed
is more than the timeout old, and otherwise does nothing. -/
def Obligations.WatchdogRestartsAStalledDevice : Prop :=
  ∀ (s : State) (rest : List Move), s.agenda = .watchdog :: rest →
    (s.run = .running → s.wdtLastFeed ≤ s.now → Config.device.wdtTimeoutUs < s.now - s.wdtLastFeed →
      step s = .next (restart Config.device .wdt { s with agenda := rest })) ∧
    (s.run = .running → s.wdtLastFeed ≤ s.now → s.now - s.wdtLastFeed ≤ Config.device.wdtTimeoutUs →
      step s = .next { s with agenda := rest }) ∧
    (s.run = .bootloader → step s = .next { s with agenda := rest })

/-- 10_state.md section 7 (the unbounded clock is decision D15, log 18): the clock never decreases, and it advances by no more
than what CLOCK lets pass in the step, the time inside a phase (log 2) and inside a driver call (log 39) counted. -/
def Obligations.ClockNeverDecreases : Prop :=
  ∀ s t : State, step s = .next t → s.now ≤ t.now ∧ t.now ≤ s.now + elapsedBy s.agenda

/-- 41_engine.md section 2, 60_exceptions.md section 3, 00_scope.md section 3: the boot loader is entered only from phase 1, by a
confirmed bootloader code whose grace period has elapsed (the test is decision D10, log 12); the outputs become enabled only
in phase 28 with the output-enable bit set. So for a step, where no other agent takes a step inside it; so for each step of
another agent inside a driver call (log 39); and a driver call changes the device by such steps and by the bus events it sends
alone, which change neither the run state nor the allocator. -/
def Obligations.OnlyTheseEventsEscalate : Prop :=
  (∀ s t : State, step s = .next t → besideNext s = [] →
    (s.run = .running → t.run = .bootloader →
      s.phase = 1 ∧ ∃ t₀, (window Config.device (phaseStart s)).hs = .confirmed .bootsel t₀ ∧
        Config.device.resetGraceUs ≤ s.now - t₀) ∧
    (s.alloc.outEnabled = false → t.alloc.outEnabled = true →
      s.phase = 28 ∧ oeBit (regRead Config.device 0x18 (window Config.device (phaseStart s))) = true)) ∧
  (∀ (b : Beside) (s : State),
    let t := besideStep Config.device b s
    (s.run = .running → t.run = .bootloader →
      s.phase = 1 ∧ ∃ during t₀, b = .engine during ∧
        (window Config.device { s with arrivals := during }).hs = .confirmed .bootsel t₀ ∧
        Config.device.resetGraceUs ≤ s.now - t₀) ∧
    (s.alloc.outEnabled = false → t.alloc.outEnabled = true →
      s.phase = 28 ∧ ∃ during, b = .engine during ∧
        oeBit (regRead Config.device 0x18 (window Config.device { s with arrivals := during })) = true)) ∧
  (∀ s : State, (takeLine Config.device s).run = s.run ∧ (takeLine Config.device s).alloc = s.alloc) ∧
  ∀ Q : State → Prop,
    (∀ b u, Q u → Q (besideStep Config.device b u)) → (∀ u, Q u → Q (takeLine Config.device u)) →
    (∀ u v : State, Q u →
      v = { u with
        host := v.host, agenda := v.agenda, freeCount := v.freeCount
        line := v.line, beside := v.beside, link := v.link } → Q v) →
    ∀ sel args beside rest s t, s.agenda = .host sel args beside :: rest → step s = .next t → Q s → Q t

/-- 30_encoding.md section 4, 41_engine.md section 4: no step of the device's own agents, of the clock or of the bus is ever
refused or faults: every event, every phase and every question to the allocator has a meaning in every state. -/
def Obligations.NoDeviceStepIsRefused : Prop :=
  ∀ s : State, (∀ m rest, s.agenda = m :: rest → deviceMove m = true) → SafeStep s

/-- Every well-formed operation completes from every state, and an operation whose operands lie outside their ranges is
refused by name: the model's reading of 91_not_in_source.md entry N14, log 41. -/
def Obligations.WellFormedOperationsComplete : Prop :=
  ∀ (i : Instr) (s : State),
    (i.wellFormed = true → ∃ t, exec i s = .next t) ∧
    (i.wellFormed = false → exec i s = .refused .illFormed)

/-- The invariant holds after power-on: canonical registers, identification codes, unmasked interrupts, the boot mapping,
levels in 0 to 1, inert channels at 0, counts that follow levels, settings in bounds, timestamps not in the future, and
high-impedance pins in the boot loader. -/
def Obligations.InvariantHoldsAfterPowerOn : Prop := Inv State.reset

/-- Every step of the machine keeps the invariant, from every state that has it. -/
def Obligations.EveryStepKeepsTheInvariant : Prop :=
  ∀ s t : State, Inv s → step s = .next t → Inv t

/-! ## Decoding -/

/-- Words written out from 30_encoding.md R103 and R106 to R109 decode to the operations they stand for. -/
def Obligations.WrittenOutKeysDecode : Prop :=
  decode ⟨.E, 0b11, []⟩ = .ok .fin ∧
  decode ⟨.A, 0b00110100, []⟩ = .ok (.setaddr 0x34) ∧
  decode ⟨.W, 0b0001011110000000, []⟩ = .ok (.wrLevel 23 0x80) ∧
  decode ⟨.W, 0b0001100000000001, []⟩ = .ok (.wrCtrl0 0x01) ∧
  decode ⟨.W, 0b0001101100000011, []⟩ = .ok (.wrFreqHi 0x03) ∧
  decode ⟨.W, 0b0011010110000000, []⟩ = .ok (.wrCfgLimit 5 0x80) ∧
  decode ⟨.W, 0b0111111100010010, []⟩ = .ok (.wrCfgThi 23 0x12) ∧
  decode ⟨.W, 0b1101110100110011, []⟩ = .ok .hsBootsel ∧
  decode ⟨.W, 0b1101110101000100, []⟩ = .ok (.hsOther 0x44) ∧
  decode ⟨.R, 0b00011010, []⟩ = .ok (.rd 0x1A) ∧
  decode ⟨.M, 0b11010, []⟩ = .ok (.chUpdate 23) ∧
  decode ⟨.F, 0b001, [1000]⟩ = .ok (.applyFreq 1000) ∧
  decode ⟨.H, 0b0010, [5, 255]⟩ = .ok (.hostSet 5 255)

/-- Decoding the encoding of any well-formed operation gives it back. -/
def Obligations.DecodeOfEncodeIsTheOperation : Prop :=
  ∀ i : Instr, i.wellFormed = true → decode (encode i) = .ok i

/-- Whatever decodes is a well-formed operation, and its encoding is the key and operands it was decoded from: no two encodings
stand for one operation. -/
def Obligations.DecodedOperationsEncodeBack : Prop :=
  ∀ (e : Encoded) (i : Instr), decode e = .ok i → i.wellFormed = true ∧ encode i = e

/-- 30_encoding.md section 3: the decoder agrees with the rows of opcode_table.json, the first matching row of the format
winning: what decodes has the mnemonic of its row. -/
def Obligations.DecoderAgreesWithTheOpcodeTable : Prop :=
  ∀ (e : Encoded) (i : Instr), decode e = .ok i → tableMnemonic e.format e.key = some i.mnemonic
end

