-- ==== Sys2Proof/Laws/Config.lean ====
section
/-! SUPPORT. The device's parameters meet what the spec requires of them, whatever the open constants are. -/

namespace Sys2Proof

theorem Config.unitClamp_mem (q : Rat) : 0 ≤ Config.unitClamp q ∧ Config.unitClamp q ≤ 1 := by
  unfold Config.unitClamp
  split
  · norm_num
  · split
    · norm_num
    · constructor <;> linarith

/-- A duty fraction is kept by the clamp, so the table ranges over every table of duty fractions. -/
theorem Config.unitClamp_of_mem {q : Rat} (h0 : 0 ≤ q) (h1 : q ≤ 1) : Config.unitClamp q = q := by
  simp [Config.unitClamp, not_lt.mpr h0, not_lt.mpr h1]

theorem Config.pinOfChannel_injective (i j : Chan) (h : Config.pinOfChannel i = Config.pinOfChannel j) : i = j := by
  unfold Config.pinOfChannel at h
  split at h
  · next hi => exact hi i j h
  · exact Fin.ext h

theorem Config.linearTable_mem (e : Byte) : 0 ≤ Config.linearTable e ∧ Config.linearTable e ≤ 1 := by
  have : (e.toNat : Rat) ≤ 255 := by exact_mod_cast Nat.lt_succ_iff.mp e.isLt
  unfold Config.linearTable
  constructor
  · positivity
  · rw [div_le_one (by norm_num)]; exact this

theorem isInt_natCast (n : Nat) : ((n : Rat)).isInt := by simp [Rat.isInt]

theorem Config.laneDiv_isInt (a : Nat) :
    ((a : Rat) / ((max 1 Config.laneDivDen : Nat) : Rat) * ((max 1 Config.laneDivDen : Nat) : Rat)).isInt := by
  rw [div_mul_cancel₀ _ (by positivity)]
  exact isInt_natCast a

/-- The device meets the requirements on its parameters. -/
theorem Config.device_wellFormed : Config.device.WellFormed where
  regfileHolds := by decide
  regfileByte := by decide
  pinInjective := Config.pinOfChannel_injective
  gammaUnit := fun e => Config.unitClamp_mem (Config.gammaRaw e)
  linearUnit := Config.linearTable_mem
  clkPos := by
    rintro (_ | _)
    · norm_num [Params.cls, Config.device, Config.timerParams]
    · simp only [Params.cls, Config.device, Config.laneParams]; positivity
  divMinPos := by
    rintro (_ | _)
    · norm_num [Params.cls, Config.device, Config.timerParams]
    · simp only [Params.cls, Config.device, Config.laneParams]; positivity
  divOrder := by
    rintro (_ | _)
    · norm_num [Params.cls, Config.device, Config.timerParams]
    · simp only [Params.cls, Config.device, Config.laneParams]
      gcongr
      omega
  divDenPos := by
    rintro (_ | _)
    · norm_num [Params.cls, Config.device, Config.timerParams]
    · simp only [Params.cls, Config.device, Config.laneParams]; positivity
  divMinSteps := by
    rintro (_ | _)
    · simp only [Params.cls, Config.device, Config.timerParams]; decide +kernel
    · exact Config.laneDiv_isInt _
  divMaxSteps := by
    rintro (_ | _)
    · simp only [Params.cls, Config.device, Config.timerParams]; decide +kernel
    · exact Config.laneDiv_isInt _
  resMaxPos := by
    rintro (_ | _)
    · norm_num [Params.cls, Config.device, Config.timerParams]
    · simp [Params.cls, Config.device, Config.laneParams]
  cpcPos := by
    rintro (_ | _)
    · norm_num [Params.cls, Config.device, Config.timerParams]
    · simp [Params.cls, Config.device, Config.laneParams]
  timerCpc := rfl
  timerFloor := by norm_num [Config.device, Config.timerParams]

end Sys2Proof
end

