-- ==== Sys2Proof/Laws/Allocator.lean ====
section
/-! SUPPORT. What each allocator function changes, said once. -/

namespace Sys2Proof.Machine

/-- A channel that has a binding is not assigned again (R201). -/
theorem assignChannel_bound (P : Params) (n : Chan) (a : Allocator) (h : a.binding[n] ≠ .unbound) :
    assignChannel P n a = (a, []) := by
  unfold assignChannel
  rw [if_neg h]

/-- `SetLevel` on an inert channel does nothing (R207). -/
theorem setLevel_inert (n : Chan) (d : Rat) (a : Allocator) (h : a.binding[n].cls = none) : setLevel n d a = a := by
  unfold setLevel
  rw [h]

/-- `SetLevel` with the value last written does nothing (R207). -/
theorem setLevel_same (n : Chan) (a : Allocator) : setLevel n a.level[n] a = a := by
  unfold setLevel
  split <;> simp

/-- `SetLevel` changes levels and counts only. -/
theorem setLevel_changes (n : Chan) (d : Rat) (a : Allocator) :
    setLevel n d a = { a with level := (setLevel n d a).level, count := (setLevel n d a).count } := by
  unfold setLevel writeLevel
  split
  · rfl
  · split
    · rfl
    · split <;> rfl

/-- `SetLevel n` keeps the level and the count of every other channel. -/
theorem setLevel_other (n m : Chan) (hm : m ≠ n) (d : Rat) (a : Allocator) :
    (setLevel n d a).level[m] = a.level[m] ∧ (setLevel n d a).count[m] = a.count[m] := by
  have h : n.val ≠ m.val := fun e => hm (Fin.ext e.symm)
  unfold setLevel writeLevel
  split
  · exact ⟨rfl, rfl⟩
  · split
    · exact ⟨rfl, rfl⟩
    · split <;> simp [h]

/-- The level a bound channel has after `SetLevel` (R207). -/
theorem setLevel_level (n : Chan) (d : Rat) (a : Allocator) (h : a.binding[n].cls ≠ none) :
    (setLevel n d a).level[n] = d := by
  unfold setLevel writeLevel
  split
  · next h' => exact absurd h' h
  · split
    · next hd => exact hd.symm
    · split <;> simp

@[simp] theorem setCls_binding (a : Allocator) (k : ResClass) (c : ClassSetting) : (a.setCls k c).binding = a.binding := by
  cases k <;> rfl

@[simp] theorem setCls_level (a : Allocator) (k : ResClass) (c : ClassSetting) : (a.setCls k c).level = a.level := by
  cases k <;> rfl

@[simp] theorem setCls_count (a : Allocator) (k : ResClass) (c : ClassSetting) : (a.setCls k c).count = a.count := by
  cases k <;> rfl

@[simp] theorem setCls_cls_same (a : Allocator) (k : ResClass) (c : ClassSetting) : (a.setCls k c).cls k = c := by
  cases k <;> rfl

theorem setCls_cls_other (a : Allocator) {k j : ResClass} (h : j ≠ k) (c : ClassSetting) :
    (a.setCls k c).cls j = a.cls j := by
  cases k <;> cases j <;> first | rfl | exact absurd rfl h

/-- The counts after `Rescale` (R206). -/
theorem rescale_count (k : ResClass) (rs : Nat) (a : Allocator) (n : Chan) :
    (rescale k rs a).count[n] = if a.binding[n].cls = some k then toCount a.level[n] rs else a.count[n] := by
  simp [rescale]

/-- `Rescale` keeps the levels: the fraction is the reference (R206). -/
@[simp] theorem rescale_level (k : ResClass) (rs : Nat) (a : Allocator) : (rescale k rs a).level = a.level := by
  simp only [rescale]

/-- `Rescale` keeps the settings. -/
@[simp] theorem rescale_cls (k j : ResClass) (rs : Nat) (a : Allocator) : (rescale k rs a).cls j = a.cls j := by
  cases j <;> simp only [rescale, Allocator.cls]

/-- The setting of the class programmed by `ApplyFreq` (R204). -/
@[simp] theorem programClass_cls (k : ResClass) (r : DivRes) (a : Allocator) :
    (programClass k r a).cls k = ⟨some r.div, some r.res⟩ := by
  unfold programClass
  by_cases h : (a.cls k).res = some r.res
  · simp only [h, if_true, setCls_cls_same]
  · simp only [h, if_false, rescale_cls, setCls_cls_same]

/-- Programming a class changes its setting and counts only. -/
theorem programClass_changes (k : ResClass) (r : DivRes) (a : Allocator) :
    programClass k r a =
      { a.setCls k ⟨some r.div, some r.res⟩ with count := (programClass k r a).count } := by
  unfold programClass
  by_cases h : (a.cls k).res = some r.res
  · simp only [h, if_true]
  · simp only [h, if_false, rescale]

/-- The clamp of counts stays inside its bounds. -/
theorem clampCount_mem {lo hi : Nat} (h : lo ≤ hi) (v : Nat) : lo ≤ clampCount v lo hi ∧ clampCount v lo hi ≤ hi := by
  unfold clampCount
  omega

/-- The clamp of dividers stays inside its bounds. -/
theorem clampDiv_mem {lo hi : Rat} (h : lo ≤ hi) (v : Rat) : lo ≤ clampDiv v lo hi ∧ clampDiv v lo hi ≤ hi := by
  unfold clampDiv
  by_cases h1 : v ≤ lo
  · simp [h1, h]
  · by_cases h2 : v ≤ hi
    · simp [h1, h2]; exact (not_le.mp h1).le
    · simp [h1, h2, h]

/-- `ToCount` at the ends of the range (R210). -/
theorem toCount_zero (rs : Nat) : toCount 0 rs = 0 := by
  simp only [toCount, roundHalfUp, zero_mul]
  decide +kernel

end Sys2Proof.Machine
end

