-- ==== Sys2Proof/Laws/Boot.lean ====
section
/-! SUPPORT. What an assignment can change, and what the boot sequence leaves (42_allocator.md R201, R202;
70_reset_and_hazards.md R311). -/

namespace Sys2Proof.Machine

/-! ## The reset states take the boot allocator -/

@[simp] theorem powerOn_alloc (P : Params) : (State.powerOn P).alloc = (bootAllocator P).1 := by
  simp only [State.powerOn]

@[simp] theorem powerOn_log (P : Params) : (State.powerOn P).log = (bootAllocator P).2 := by
  simp only [State.powerOn]

@[simp] theorem hardwareReset_alloc (P : Params) (s : State) : (hardwareReset P s).alloc = (bootAllocator P).1 := by
  simp only [hardwareReset]

@[simp] theorem hardwareReset_log (P : Params) (s : State) : (hardwareReset P s).log = (bootAllocator P).2 := by
  simp only [hardwareReset]

/-! ## Assignment -/

/-- `AssignSoft` changes the units only, and answers a lane or FAILED. -/
theorem assignSoft_changes (P : Params) (p : Pin) (a : Allocator) :
    (assignSoft P p a).2.1 = { a with units := (assignSoft P p a).2.1.units } ∧ (assignSoft P p a).1 ≠ .unbound := by
  unfold assignSoft
  split
  · exact ⟨rfl, by simp⟩
  · exact ⟨rfl, by simp⟩

/-- The choice of a resource changes claims and units only. -/
theorem chooseResource_changes (P : Params) (p : Pin) (a : Allocator) :
    (chooseResource P p a).2.1 =
      { a with units := (chooseResource P p a).2.1.units, sliceClaim := (chooseResource P p a).2.1.sliceClaim } ∧
    (chooseResource P p a).1 ≠ .unbound := by
  unfold chooseResource
  simp only
  split
  · exact ⟨rfl, by simp⟩
  · split
    · exact ⟨rfl, by simp⟩
    · refine ⟨?_, (assignSoft_changes P p a).2⟩
      conv_lhs => rw [(assignSoft_changes P p a).1]
      rw [(assignSoft_changes P p a).1]

/-- What one assignment keeps: settings and output state, zero levels and counts, the other channels' bindings. -/
theorem assignChannel_keeps (P : Params) (n : Chan) (a : Allocator) :
    let r := assignChannel P n a
    r.1.timer = a.timer ∧ r.1.lane = a.lane ∧ r.1.outEnabled = a.outEnabled ∧
    ((∀ m : Chan, a.level[m] = 0 ∧ a.count[m] = 0) → ∀ m : Chan, r.1.level[m] = 0 ∧ r.1.count[m] = 0) ∧
    r.1.binding[n] ≠ .unbound ∧ (∀ m : Chan, m ≠ n → r.1.binding[m] = a.binding[m]) := by
  intro r
  have cr := chooseResource_changes P (P.pinOfChannel n) a
  by_cases h : a.binding[n] = .unbound
  · have hr : r = ({ (chooseResource P (P.pinOfChannel n) a).2.1 with
        binding := (chooseResource P (P.pinOfChannel n) a).2.1.binding.set n (chooseResource P (P.pinOfChannel n) a).1
        level := (chooseResource P (P.pinOfChannel n) a).2.1.level.set n 0
        count := (chooseResource P (P.pinOfChannel n) a).2.1.count.set n 0 },
        (chooseResource P (P.pinOfChannel n) a).2.2) := by
      show assignChannel P n a = _
      unfold assignChannel
      rw [if_pos h]
    rw [hr, cr.1]
    refine ⟨rfl, rfl, rfl, ?_, ?_, ?_⟩
    · intro hz m
      have := hz m
      simp only [Fin.getElem_fin, Vector.getElem_set]
      constructor <;> split <;> first | rfl | exact this.1 | exact this.2
    · simp [cr.2]
    · intro m hm
      have : n.val ≠ m.val := fun e => hm (Fin.ext e.symm)
      simp [this]
  · have hr : r = (a, []) := assignChannel_bound P n a h
    rw [hr]
    exact ⟨rfl, rfl, rfl, fun h => h, h, fun _ _ => rfl⟩

/-- What the assignment of a list of channels keeps. -/
theorem assignAll_keeps (P : Params) (l : List Chan) (a : Allocator) :
    let r := assignAll P l a
    r.1.timer = a.timer ∧ r.1.lane = a.lane ∧ r.1.outEnabled = a.outEnabled ∧
    ((∀ m : Chan, a.level[m] = 0 ∧ a.count[m] = 0) → ∀ m : Chan, r.1.level[m] = 0 ∧ r.1.count[m] = 0) ∧
    ∀ m : Chan, m ∉ l → r.1.binding[m] = a.binding[m] := by
  induction l generalizing a with
  | nil => exact ⟨rfl, rfl, rfl, fun h => h, fun _ _ => rfl⟩
  | cons n l ih =>
    have h1 := assignChannel_keeps P n a
    have h2 := ih (assignChannel P n a).1
    simp only at h1 h2
    simp only [assignAll]
    refine ⟨h2.1.trans h1.1, h2.2.1.trans h1.2.1, h2.2.2.1.trans h1.2.2.1, fun hz => h2.2.2.2.1 (h1.2.2.2.1 hz), ?_⟩
    intro m hm
    rw [List.mem_cons, not_or] at hm
    exact (h2.2.2.2.2 m hm.2).trans (h1.2.2.2.2.2 m hm.1)

/-- The boot sequence leaves no setting, disabled outputs, and zero levels and counts. -/
theorem bootAllocator_keeps (P : Params) :
    (bootAllocator P).1.timer = ⟨none, none⟩ ∧ (bootAllocator P).1.lane = ⟨none, none⟩ ∧
    (bootAllocator P).1.outEnabled = false ∧
    ∀ m : Chan, (bootAllocator P).1.level[m] = 0 ∧ (bootAllocator P).1.count[m] = 0 := by
  have := assignAll_keeps P (List.finRange 24) (emptyAllocator P)
  simp only at this
  unfold bootAllocator
  refine ⟨this.1, this.2.1, this.2.2.1, this.2.2.2.1 ?_⟩
  intro m
  simp [emptyAllocator]

/-- The first channel assigned, from empty pools, gets its native timer channel, and keeps it. -/
theorem assignAll_first (P : Params) (n : Chan) (l : List Chan) (hn : n ∉ l) :
    (assignAll P (n :: l) (emptyAllocator P)).1.binding[n] =
      .timer (P.timerOfPin (P.pinOfChannel n)).1 (P.timerOfPin (P.pinOfChannel n)).2 := by
  have h := (assignAll_keeps P l (assignChannel P n (emptyAllocator P)).1).2.2.2.2 n hn
  simp only [assignAll]
  rw [h]
  have hb : (emptyAllocator P).binding[n] = .unbound := by simp [emptyAllocator]
  have hc : ∀ (s : SliceIx) (c : SliceChan), (emptyAllocator P).sliceClaim[s][c] = none := by
    intro s c; simp [emptyAllocator]
  unfold assignChannel
  rw [if_pos hb]
  simp only [chooseResource, hc, if_true]
  simp

/-- Channel 0 gets its native timer channel at boot. -/
theorem bootAllocator_first (P : Params) :
    (bootAllocator P).1.binding[(0 : Chan)] =
      .timer (P.timerOfPin (P.pinOfChannel 0)).1 (P.timerOfPin (P.pinOfChannel 0)).2 := by
  have h : (0 : Chan) :: (List.finRange 24).tail = List.finRange 24 := by decide +kernel
  have hn : (0 : Chan) ∉ (List.finRange 24).tail := by decide +kernel
  have := assignAll_first P 0 _ hn
  rw [h] at this
  unfold bootAllocator
  exact this

end Sys2Proof.Machine
end

