-- ==== Sys2Proof/Laws/Memory.lean ====
section
/-! SUPPORT. The laws of the register file: read after write, other addresses kept, canonical form kept. -/

namespace Sys2Proof.Machine

variable {dflt : Nat → Byte}

theorem Memory.read_erase_same (a : Nat) (m : Memory) : Memory.read dflt a (Memory.erase a m) = dflt a := by
  induction m with
  | nil => rfl
  | cons c rest ih =>
    by_cases h : c.1 = a
    · simpa [Memory.erase, h] using ih
    · simp only [Memory.erase, List.filter_cons, bne_iff_ne, ne_eq, h, not_false_eq_true, ite_true, Memory.read, ite_false]
      exact ih

theorem Memory.read_erase_other {a b : Nat} (h : b ≠ a) (m : Memory) :
    Memory.read dflt b (Memory.erase a m) = Memory.read dflt b m := by
  induction m with
  | nil => rfl
  | cons c rest ih =>
    by_cases hc : c.1 = a
    · have hb : ¬ c.1 = b := fun e => h (e.symm.trans hc)
      simp only [Memory.erase, List.filter_cons, hc, bne_self_eq_false, Bool.false_eq_true, ite_false, Memory.read]
      rw [if_neg (fun e => h e.symm)]
      exact ih
    · simp only [Memory.erase, List.filter_cons, bne_iff_ne, ne_eq, hc, not_false_eq_true, ite_true, Memory.read]
      by_cases hb : c.1 = b
      · simp [hb]
      · simp only [hb, ite_false]; exact ih

theorem Memory.read_insert_other {a b : Nat} (h : b ≠ a) (v : Byte) (m : Memory) :
    Memory.read dflt b (Memory.insert a v m) = Memory.read dflt b m := by
  induction m with
  | nil => simp [Memory.insert, Memory.read, Ne.symm h]
  | cons c rest ih =>
    by_cases hl : a < c.1
    · simp [Memory.insert, hl, Memory.read, Ne.symm h]
    · simp only [Memory.insert, hl, ite_false, Memory.read, ih]

theorem Memory.read_insert_same {a : Nat} (v : Byte) {m : Memory} (h : ∀ c ∈ m, c.1 ≠ a) :
    Memory.read dflt a (Memory.insert a v m) = v := by
  induction m with
  | nil => simp [Memory.insert, Memory.read]
  | cons c rest ih =>
    by_cases hl : a < c.1
    · simp [Memory.insert, hl, Memory.read]
    · have hc : c.1 ≠ a := h c (by simp)
      simp only [Memory.insert, hl, ite_false, Memory.read, hc]
      exact ih fun d hd => h d (by simp [hd])

theorem Memory.erase_mem_ne {a : Nat} {m : Memory} : ∀ c ∈ Memory.erase a m, c.1 ≠ a := by
  intro c hc
  simpa using (List.mem_filter.mp hc).2

theorem Memory.read_write_same (a : Nat) (v : Byte) (m : Memory) :
    Memory.read dflt a (Memory.write dflt a v m) = v := by
  by_cases h : v = dflt a
  · simp [Memory.write, h, Memory.read_erase_same]
  · simp only [Memory.write, h, ite_false]
    exact Memory.read_insert_same v Memory.erase_mem_ne

theorem Memory.read_write_other {a b : Nat} (h : b ≠ a) (v : Byte) (m : Memory) :
    Memory.read dflt b (Memory.write dflt a v m) = Memory.read dflt b m := by
  by_cases hv : v = dflt a
  · simp [Memory.write, hv, Memory.read_erase_other h]
  · simp only [Memory.write, hv, ite_false, Memory.read_insert_other h, Memory.read_erase_other h]

theorem Memory.mem_insert {a : Nat} {v : Byte} {m : Memory} {c : Host.Cell} :
    c ∈ Memory.insert a v m ↔ c = (a, v) ∨ c ∈ m := by
  induction m with
  | nil => simp [Memory.insert]
  | cons d rest ih =>
    by_cases h : a < d.1
    · simp [Memory.insert, h]
    · simp only [Memory.insert, h, ite_false, List.mem_cons, ih]; tauto

theorem Memory.insert_sorted {a : Nat} {v : Byte} {m : Memory} (hs : m.Pairwise fun c d => c.1 < d.1)
    (hne : ∀ c ∈ m, c.1 ≠ a) : (Memory.insert a v m).Pairwise fun c d => c.1 < d.1 := by
  induction m with
  | nil => simp [Memory.insert]
  | cons d rest ih =>
    have hd := List.pairwise_cons.mp hs
    by_cases h : a < d.1
    · simp only [Memory.insert, h, ite_true, List.pairwise_cons]
      refine ⟨fun c hc => ?_, hd⟩
      rcases List.mem_cons.mp hc with rfl | hc
      · exact h
      · exact h.trans (hd.1 c hc)
    · simp only [Memory.insert, h, ite_false, List.pairwise_cons]
      refine ⟨fun c hc => ?_, ih hd.2 fun c hc => hne c (by simp [hc])⟩
      rcases Memory.mem_insert.mp hc with rfl | hc
      · have := hne d (by simp)
        simp only; omega
      · exact hd.1 c hc

/-- A write keeps the canonical form. -/
theorem Memory.write_wf {size a : Nat} (ha : a < size) (v : Byte) {m : Memory} (h : Memory.wf size dflt m) :
    Memory.wf size dflt (Memory.write dflt a v m) := by
  have he : Memory.wf size dflt (Memory.erase a m) :=
    ⟨h.1.filter _, fun c hc => h.2 c (List.mem_of_mem_filter hc)⟩
  by_cases hv : v = dflt a
  · simpa [Memory.write, hv] using he
  · simp only [Memory.write, hv, ite_false]
    refine ⟨Memory.insert_sorted he.1 Memory.erase_mem_ne, fun c hc => ?_⟩
    rcases Memory.mem_insert.mp hc with rfl | hc
    · exact ⟨ha, hv⟩
    · exact he.2 c hc

theorem Memory.nil_wf (size : Nat) : Memory.wf size dflt [] := ⟨List.Pairwise.nil, by simp⟩

/-- Every byte address lies in the register file of the device. -/
theorem byte_lt_regfileSize (a : Byte) : a.toNat < Config.device.regfileSize := a.isLt

/-- Read after write: the byte written, and every other byte as before. -/
@[simp] theorem regRead_regWrite (P : Params) (a b v : Byte) (s : State) :
    regRead P b (regWrite P a v s) = if b = a then v else regRead P b s := by
  by_cases h : b = a
  · subst h; simp [regRead, regWrite, Memory.read_write_same]
  · have : b.toNat ≠ a.toNat := fun e => h (BitVec.eq_of_toNat_eq e)
    simp [regRead, regWrite, Memory.read_write_other this, h]

/-- A register write keeps the canonical form. -/
theorem regWrite_wf (P : Params) (a v : Byte) (ha : a.toNat < P.regfileSize) {s : State}
    (h : Memory.wf P.regfileSize (resetByte P) s.regs) : Memory.wf P.regfileSize (resetByte P) (regWrite P a v s).regs :=
  Memory.write_wf ha v h

/-- A read depends on the memory only. -/
theorem regRead_congr (P : Params) (a : Byte) {s t : State} (h : t.regs = s.regs) : regRead P a t = regRead P a s := by
  simp [regRead, h]

/-- A one-byte `MemRead` is the byte. -/
@[simp] theorem memRead_one (P : Params) (a : Byte) (s : State) : memRead P a 1 s = (regRead P a s).toNat := by
  simp [memRead]

/-- `LE16(lo, hi) = hi * 256 + lo` (R11). -/
theorem le16_toNat (lo hi : Byte) : (le16 lo hi).toNat = lo.toNat + 256 * hi.toNat := by
  simp only [le16, BitVec.toNat_append]
  rw [Nat.shiftLeft_eq, Nat.mul_comm _ (2 ^ 8), ← Nat.two_pow_add_eq_or_of_lt (by exact lo.isLt)]
  omega

/-- A two-byte `MemRead` is the little-endian value of the two bytes (R70). -/
theorem memRead_two (P : Params) (a : Byte) (s : State) :
    memRead P a 2 s = (le16 (regRead P a s) (regRead P (a + 1) s)).toNat := by
  simp [memRead, le16_toNat]

/-- A 16-bit value is assembled from its two bytes (R11, R70). -/
@[simp] theorem le16_bytes (v : Half) : le16 (loByte v) (hiByte v) = v := by
  apply BitVec.eq_of_toNat_eq
  rw [le16_toNat]
  simp only [loByte, hiByte, BitVec.toNat_setWidth, BitVec.toNat_ushiftRight, Nat.shiftRight_eq_div_pow]
  have := v.isLt
  omega

end Sys2Proof.Machine
end

