-- ==== Sys2Proof/Laws/State.lean ====
section
/-! SUPPORT. The fields of State after each of the shared updates: one lemma for each field and update, true by unfolding. -/

namespace Sys2Proof.Machine

/-! ## regWrite -/

@[simp] theorem regWrite_cursor (P : Params) (a v : Byte) (s : State) : (regWrite P a v s).cursor = s.cursor := rfl
@[simp] theorem regWrite_bus (P : Params) (a v : Byte) (s : State) : (regWrite P a v s).bus = s.bus := rfl
@[simp] theorem regWrite_hs (P : Params) (a v : Byte) (s : State) : (regWrite P a v s).hs = s.hs := rfl
@[simp] theorem regWrite_irqMasked (P : Params) (a v : Byte) (s : State) : (regWrite P a v s).irqMasked = s.irqMasked := rfl
@[simp] theorem regWrite_held (P : Params) (a v : Byte) (s : State) : (regWrite P a v s).held = s.held := rfl
@[simp] theorem regWrite_phase (P : Params) (a v : Byte) (s : State) : (regWrite P a v s).phase = s.phase := rfl
@[simp] theorem regWrite_lastLevel (P : Params) (a v : Byte) (s : State) : (regWrite P a v s).lastLevel = s.lastLevel := rfl
@[simp] theorem regWrite_duty (P : Params) (a v : Byte) (s : State) : (regWrite P a v s).duty = s.duty := rfl
@[simp] theorem regWrite_deadline (P : Params) (a v : Byte) (s : State) : (regWrite P a v s).deadline = s.deadline := rfl
@[simp] theorem regWrite_appliedFreq (P : Params) (a v : Byte) (s : State) : (regWrite P a v s).appliedFreq = s.appliedFreq := rfl
@[simp] theorem regWrite_appliedEnable (P : Params) (a v : Byte) (s : State) : (regWrite P a v s).appliedEnable = s.appliedEnable := rfl
@[simp] theorem regWrite_wdtLastFeed (P : Params) (a v : Byte) (s : State) : (regWrite P a v s).wdtLastFeed = s.wdtLastFeed := rfl
@[simp] theorem regWrite_alloc (P : Params) (a v : Byte) (s : State) : (regWrite P a v s).alloc = s.alloc := rfl
@[simp] theorem regWrite_now (P : Params) (a v : Byte) (s : State) : (regWrite P a v s).now = s.now := rfl
@[simp] theorem regWrite_log (P : Params) (a v : Byte) (s : State) : (regWrite P a v s).log = s.log := rfl
@[simp] theorem regWrite_run (P : Params) (a v : Byte) (s : State) : (regWrite P a v s).run = s.run := rfl
@[simp] theorem regWrite_host (P : Params) (a v : Byte) (s : State) : (regWrite P a v s).host = s.host := rfl
@[simp] theorem regWrite_busReply (P : Params) (a v : Byte) (s : State) : (regWrite P a v s).busReply = s.busReply := rfl
@[simp] theorem regWrite_callReply (P : Params) (a v : Byte) (s : State) : (regWrite P a v s).callReply = s.callReply := rfl
@[simp] theorem regWrite_freeCount (P : Params) (a v : Byte) (s : State) : (regWrite P a v s).freeCount = s.freeCount := rfl
@[simp] theorem regWrite_agenda (P : Params) (a v : Byte) (s : State) : (regWrite P a v s).agenda = s.agenda := rfl
@[simp] theorem regWrite_arrivals (P : Params) (a v : Byte) (s : State) : (regWrite P a v s).arrivals = s.arrivals := rfl
@[simp] theorem regWrite_line (P : Params) (a v : Byte) (s : State) : (regWrite P a v s).line = s.line := rfl
@[simp] theorem regWrite_beside (P : Params) (a v : Byte) (s : State) : (regWrite P a v s).beside = s.beside := rfl
@[simp] theorem regWrite_link (P : Params) (a v : Byte) (s : State) : (regWrite P a v s).link = s.link := rfl

/-! ## memWrite16 -/

@[simp] theorem memWrite16_cursor (P : Params) (a : Byte) (v : Half) (s : State) : (memWrite16 P a v s).cursor = s.cursor := rfl
@[simp] theorem memWrite16_bus (P : Params) (a : Byte) (v : Half) (s : State) : (memWrite16 P a v s).bus = s.bus := rfl
@[simp] theorem memWrite16_hs (P : Params) (a : Byte) (v : Half) (s : State) : (memWrite16 P a v s).hs = s.hs := rfl
@[simp] theorem memWrite16_irqMasked (P : Params) (a : Byte) (v : Half) (s : State) : (memWrite16 P a v s).irqMasked = s.irqMasked := rfl
@[simp] theorem memWrite16_held (P : Params) (a : Byte) (v : Half) (s : State) : (memWrite16 P a v s).held = s.held := rfl
@[simp] theorem memWrite16_phase (P : Params) (a : Byte) (v : Half) (s : State) : (memWrite16 P a v s).phase = s.phase := rfl
@[simp] theorem memWrite16_lastLevel (P : Params) (a : Byte) (v : Half) (s : State) : (memWrite16 P a v s).lastLevel = s.lastLevel := rfl
@[simp] theorem memWrite16_duty (P : Params) (a : Byte) (v : Half) (s : State) : (memWrite16 P a v s).duty = s.duty := rfl
@[simp] theorem memWrite16_deadline (P : Params) (a : Byte) (v : Half) (s : State) : (memWrite16 P a v s).deadline = s.deadline := rfl
@[simp] theorem memWrite16_appliedFreq (P : Params) (a : Byte) (v : Half) (s : State) : (memWrite16 P a v s).appliedFreq = s.appliedFreq := rfl
@[simp] theorem memWrite16_appliedEnable (P : Params) (a : Byte) (v : Half) (s : State) : (memWrite16 P a v s).appliedEnable = s.appliedEnable := rfl
@[simp] theorem memWrite16_wdtLastFeed (P : Params) (a : Byte) (v : Half) (s : State) : (memWrite16 P a v s).wdtLastFeed = s.wdtLastFeed := rfl
@[simp] theorem memWrite16_alloc (P : Params) (a : Byte) (v : Half) (s : State) : (memWrite16 P a v s).alloc = s.alloc := rfl
@[simp] theorem memWrite16_now (P : Params) (a : Byte) (v : Half) (s : State) : (memWrite16 P a v s).now = s.now := rfl
@[simp] theorem memWrite16_log (P : Params) (a : Byte) (v : Half) (s : State) : (memWrite16 P a v s).log = s.log := rfl
@[simp] theorem memWrite16_run (P : Params) (a : Byte) (v : Half) (s : State) : (memWrite16 P a v s).run = s.run := rfl
@[simp] theorem memWrite16_host (P : Params) (a : Byte) (v : Half) (s : State) : (memWrite16 P a v s).host = s.host := rfl
@[simp] theorem memWrite16_busReply (P : Params) (a : Byte) (v : Half) (s : State) : (memWrite16 P a v s).busReply = s.busReply := rfl
@[simp] theorem memWrite16_callReply (P : Params) (a : Byte) (v : Half) (s : State) : (memWrite16 P a v s).callReply = s.callReply := rfl
@[simp] theorem memWrite16_freeCount (P : Params) (a : Byte) (v : Half) (s : State) : (memWrite16 P a v s).freeCount = s.freeCount := rfl
@[simp] theorem memWrite16_agenda (P : Params) (a : Byte) (v : Half) (s : State) : (memWrite16 P a v s).agenda = s.agenda := rfl
@[simp] theorem memWrite16_arrivals (P : Params) (a : Byte) (v : Half) (s : State) : (memWrite16 P a v s).arrivals = s.arrivals := rfl
@[simp] theorem memWrite16_line (P : Params) (a : Byte) (v : Half) (s : State) : (memWrite16 P a v s).line = s.line := rfl
@[simp] theorem memWrite16_beside (P : Params) (a : Byte) (v : Half) (s : State) : (memWrite16 P a v s).beside = s.beside := rfl
@[simp] theorem memWrite16_link (P : Params) (a : Byte) (v : Half) (s : State) : (memWrite16 P a v s).link = s.link := rfl

/-! ## storeAdvance -/

@[simp] theorem storeAdvance_cursor (P : Params) (a b : Byte) (s : State) : (storeAdvance P a b s).cursor = nextCursor P a := rfl
@[simp] theorem storeAdvance_bus (P : Params) (a b : Byte) (s : State) : (storeAdvance P a b s).bus = s.bus := rfl
@[simp] theorem storeAdvance_hs (P : Params) (a b : Byte) (s : State) : (storeAdvance P a b s).hs = s.hs := rfl
@[simp] theorem storeAdvance_irqMasked (P : Params) (a b : Byte) (s : State) : (storeAdvance P a b s).irqMasked = s.irqMasked := rfl
@[simp] theorem storeAdvance_held (P : Params) (a b : Byte) (s : State) : (storeAdvance P a b s).held = s.held := rfl
@[simp] theorem storeAdvance_phase (P : Params) (a b : Byte) (s : State) : (storeAdvance P a b s).phase = s.phase := rfl
@[simp] theorem storeAdvance_lastLevel (P : Params) (a b : Byte) (s : State) : (storeAdvance P a b s).lastLevel = s.lastLevel := rfl
@[simp] theorem storeAdvance_duty (P : Params) (a b : Byte) (s : State) : (storeAdvance P a b s).duty = s.duty := rfl
@[simp] theorem storeAdvance_deadline (P : Params) (a b : Byte) (s : State) : (storeAdvance P a b s).deadline = s.deadline := rfl
@[simp] theorem storeAdvance_appliedFreq (P : Params) (a b : Byte) (s : State) : (storeAdvance P a b s).appliedFreq = s.appliedFreq := rfl
@[simp] theorem storeAdvance_appliedEnable (P : Params) (a b : Byte) (s : State) : (storeAdvance P a b s).appliedEnable = s.appliedEnable := rfl
@[simp] theorem storeAdvance_wdtLastFeed (P : Params) (a b : Byte) (s : State) : (storeAdvance P a b s).wdtLastFeed = s.wdtLastFeed := rfl
@[simp] theorem storeAdvance_alloc (P : Params) (a b : Byte) (s : State) : (storeAdvance P a b s).alloc = s.alloc := rfl
@[simp] theorem storeAdvance_now (P : Params) (a b : Byte) (s : State) : (storeAdvance P a b s).now = s.now := rfl
@[simp] theorem storeAdvance_log (P : Params) (a b : Byte) (s : State) : (storeAdvance P a b s).log = s.log := rfl
@[simp] theorem storeAdvance_run (P : Params) (a b : Byte) (s : State) : (storeAdvance P a b s).run = s.run := rfl
@[simp] theorem storeAdvance_host (P : Params) (a b : Byte) (s : State) : (storeAdvance P a b s).host = s.host := rfl
@[simp] theorem storeAdvance_busReply (P : Params) (a b : Byte) (s : State) : (storeAdvance P a b s).busReply = s.busReply := rfl
@[simp] theorem storeAdvance_callReply (P : Params) (a b : Byte) (s : State) : (storeAdvance P a b s).callReply = s.callReply := rfl
@[simp] theorem storeAdvance_freeCount (P : Params) (a b : Byte) (s : State) : (storeAdvance P a b s).freeCount = s.freeCount := rfl
@[simp] theorem storeAdvance_agenda (P : Params) (a b : Byte) (s : State) : (storeAdvance P a b s).agenda = s.agenda := rfl
@[simp] theorem storeAdvance_arrivals (P : Params) (a b : Byte) (s : State) : (storeAdvance P a b s).arrivals = s.arrivals := rfl
@[simp] theorem storeAdvance_line (P : Params) (a b : Byte) (s : State) : (storeAdvance P a b s).line = s.line := rfl
@[simp] theorem storeAdvance_beside (P : Params) (a b : Byte) (s : State) : (storeAdvance P a b s).beside = s.beside := rfl
@[simp] theorem storeAdvance_link (P : Params) (a b : Byte) (s : State) : (storeAdvance P a b s).link = s.link := rfl

/-! ## dropAdvance -/

@[simp] theorem dropAdvance_regs (P : Params) (a : Byte) (s : State) : (dropAdvance P a s).regs = s.regs := rfl
@[simp] theorem dropAdvance_cursor (P : Params) (a : Byte) (s : State) : (dropAdvance P a s).cursor = nextCursor P a := rfl
@[simp] theorem dropAdvance_bus (P : Params) (a : Byte) (s : State) : (dropAdvance P a s).bus = s.bus := rfl
@[simp] theorem dropAdvance_hs (P : Params) (a : Byte) (s : State) : (dropAdvance P a s).hs = s.hs := rfl
@[simp] theorem dropAdvance_irqMasked (P : Params) (a : Byte) (s : State) : (dropAdvance P a s).irqMasked = s.irqMasked := rfl
@[simp] theorem dropAdvance_held (P : Params) (a : Byte) (s : State) : (dropAdvance P a s).held = s.held := rfl
@[simp] theorem dropAdvance_phase (P : Params) (a : Byte) (s : State) : (dropAdvance P a s).phase = s.phase := rfl
@[simp] theorem dropAdvance_lastLevel (P : Params) (a : Byte) (s : State) : (dropAdvance P a s).lastLevel = s.lastLevel := rfl
@[simp] theorem dropAdvance_duty (P : Params) (a : Byte) (s : State) : (dropAdvance P a s).duty = s.duty := rfl
@[simp] theorem dropAdvance_deadline (P : Params) (a : Byte) (s : State) : (dropAdvance P a s).deadline = s.deadline := rfl
@[simp] theorem dropAdvance_appliedFreq (P : Params) (a : Byte) (s : State) : (dropAdvance P a s).appliedFreq = s.appliedFreq := rfl
@[simp] theorem dropAdvance_appliedEnable (P : Params) (a : Byte) (s : State) : (dropAdvance P a s).appliedEnable = s.appliedEnable := rfl
@[simp] theorem dropAdvance_wdtLastFeed (P : Params) (a : Byte) (s : State) : (dropAdvance P a s).wdtLastFeed = s.wdtLastFeed := rfl
@[simp] theorem dropAdvance_alloc (P : Params) (a : Byte) (s : State) : (dropAdvance P a s).alloc = s.alloc := rfl
@[simp] theorem dropAdvance_now (P : Params) (a : Byte) (s : State) : (dropAdvance P a s).now = s.now := rfl
@[simp] theorem dropAdvance_log (P : Params) (a : Byte) (s : State) : (dropAdvance P a s).log = s.log := rfl
@[simp] theorem dropAdvance_run (P : Params) (a : Byte) (s : State) : (dropAdvance P a s).run = s.run := rfl
@[simp] theorem dropAdvance_host (P : Params) (a : Byte) (s : State) : (dropAdvance P a s).host = s.host := rfl
@[simp] theorem dropAdvance_busReply (P : Params) (a : Byte) (s : State) : (dropAdvance P a s).busReply = s.busReply := rfl
@[simp] theorem dropAdvance_callReply (P : Params) (a : Byte) (s : State) : (dropAdvance P a s).callReply = s.callReply := rfl
@[simp] theorem dropAdvance_freeCount (P : Params) (a : Byte) (s : State) : (dropAdvance P a s).freeCount = s.freeCount := rfl
@[simp] theorem dropAdvance_agenda (P : Params) (a : Byte) (s : State) : (dropAdvance P a s).agenda = s.agenda := rfl
@[simp] theorem dropAdvance_arrivals (P : Params) (a : Byte) (s : State) : (dropAdvance P a s).arrivals = s.arrivals := rfl
@[simp] theorem dropAdvance_line (P : Params) (a : Byte) (s : State) : (dropAdvance P a s).line = s.line := rfl
@[simp] theorem dropAdvance_beside (P : Params) (a : Byte) (s : State) : (dropAdvance P a s).beside = s.beside := rfl
@[simp] theorem dropAdvance_link (P : Params) (a : Byte) (s : State) : (dropAdvance P a s).link = s.link := rfl

/-! ## handshakeAdvance -/

@[simp] theorem handshakeAdvance_regs (P : Params) (h : Handshake) (s : State) : (handshakeAdvance P h s).regs = s.regs := rfl
@[simp] theorem handshakeAdvance_cursor (P : Params) (h : Handshake) (s : State) : (handshakeAdvance P h s).cursor = nextCursor P resetAddr := rfl
@[simp] theorem handshakeAdvance_bus (P : Params) (h : Handshake) (s : State) : (handshakeAdvance P h s).bus = s.bus := rfl
@[simp] theorem handshakeAdvance_hs (P : Params) (h : Handshake) (s : State) : (handshakeAdvance P h s).hs = h := rfl
@[simp] theorem handshakeAdvance_irqMasked (P : Params) (h : Handshake) (s : State) : (handshakeAdvance P h s).irqMasked = s.irqMasked := rfl
@[simp] theorem handshakeAdvance_held (P : Params) (h : Handshake) (s : State) : (handshakeAdvance P h s).held = s.held := rfl
@[simp] theorem handshakeAdvance_phase (P : Params) (h : Handshake) (s : State) : (handshakeAdvance P h s).phase = s.phase := rfl
@[simp] theorem handshakeAdvance_lastLevel (P : Params) (h : Handshake) (s : State) : (handshakeAdvance P h s).lastLevel = s.lastLevel := rfl
@[simp] theorem handshakeAdvance_duty (P : Params) (h : Handshake) (s : State) : (handshakeAdvance P h s).duty = s.duty := rfl
@[simp] theorem handshakeAdvance_deadline (P : Params) (h : Handshake) (s : State) : (handshakeAdvance P h s).deadline = s.deadline := rfl
@[simp] theorem handshakeAdvance_appliedFreq (P : Params) (h : Handshake) (s : State) : (handshakeAdvance P h s).appliedFreq = s.appliedFreq := rfl
@[simp] theorem handshakeAdvance_appliedEnable (P : Params) (h : Handshake) (s : State) : (handshakeAdvance P h s).appliedEnable = s.appliedEnable := rfl
@[simp] theorem handshakeAdvance_wdtLastFeed (P : Params) (h : Handshake) (s : State) : (handshakeAdvance P h s).wdtLastFeed = s.wdtLastFeed := rfl
@[simp] theorem handshakeAdvance_alloc (P : Params) (h : Handshake) (s : State) : (handshakeAdvance P h s).alloc = s.alloc := rfl
@[simp] theorem handshakeAdvance_now (P : Params) (h : Handshake) (s : State) : (handshakeAdvance P h s).now = s.now := rfl
@[simp] theorem handshakeAdvance_log (P : Params) (h : Handshake) (s : State) : (handshakeAdvance P h s).log = s.log := rfl
@[simp] theorem handshakeAdvance_run (P : Params) (h : Handshake) (s : State) : (handshakeAdvance P h s).run = s.run := rfl
@[simp] theorem handshakeAdvance_host (P : Params) (h : Handshake) (s : State) : (handshakeAdvance P h s).host = s.host := rfl
@[simp] theorem handshakeAdvance_busReply (P : Params) (h : Handshake) (s : State) : (handshakeAdvance P h s).busReply = s.busReply := rfl
@[simp] theorem handshakeAdvance_callReply (P : Params) (h : Handshake) (s : State) : (handshakeAdvance P h s).callReply = s.callReply := rfl
@[simp] theorem handshakeAdvance_freeCount (P : Params) (h : Handshake) (s : State) : (handshakeAdvance P h s).freeCount = s.freeCount := rfl
@[simp] theorem handshakeAdvance_agenda (P : Params) (h : Handshake) (s : State) : (handshakeAdvance P h s).agenda = s.agenda := rfl
@[simp] theorem handshakeAdvance_arrivals (P : Params) (h : Handshake) (s : State) : (handshakeAdvance P h s).arrivals = s.arrivals := rfl
@[simp] theorem handshakeAdvance_line (P : Params) (h : Handshake) (s : State) : (handshakeAdvance P h s).line = s.line := rfl
@[simp] theorem handshakeAdvance_beside (P : Params) (h : Handshake) (s : State) : (handshakeAdvance P h s).beside = s.beside := rfl
@[simp] theorem handshakeAdvance_link (P : Params) (h : Handshake) (s : State) : (handshakeAdvance P h s).link = s.link := rfl

/-! ## startW -/

@[simp] theorem startW_regs (s : State) : (startW s).regs = s.regs := rfl
@[simp] theorem startW_cursor (s : State) : (startW s).cursor = s.cursor := rfl
@[simp] theorem startW_bus (s : State) : (startW s).bus = .addr := rfl
@[simp] theorem startW_hs (s : State) : (startW s).hs = s.hs := rfl
@[simp] theorem startW_irqMasked (s : State) : (startW s).irqMasked = s.irqMasked := rfl
@[simp] theorem startW_held (s : State) : (startW s).held = s.held := rfl
@[simp] theorem startW_phase (s : State) : (startW s).phase = s.phase := rfl
@[simp] theorem startW_lastLevel (s : State) : (startW s).lastLevel = s.lastLevel := rfl
@[simp] theorem startW_duty (s : State) : (startW s).duty = s.duty := rfl
@[simp] theorem startW_deadline (s : State) : (startW s).deadline = s.deadline := rfl
@[simp] theorem startW_appliedFreq (s : State) : (startW s).appliedFreq = s.appliedFreq := rfl
@[simp] theorem startW_appliedEnable (s : State) : (startW s).appliedEnable = s.appliedEnable := rfl
@[simp] theorem startW_wdtLastFeed (s : State) : (startW s).wdtLastFeed = s.wdtLastFeed := rfl
@[simp] theorem startW_alloc (s : State) : (startW s).alloc = s.alloc := rfl
@[simp] theorem startW_now (s : State) : (startW s).now = s.now := rfl
@[simp] theorem startW_log (s : State) : (startW s).log = s.log := rfl
@[simp] theorem startW_run (s : State) : (startW s).run = s.run := rfl
@[simp] theorem startW_host (s : State) : (startW s).host = s.host := rfl
@[simp] theorem startW_busReply (s : State) : (startW s).busReply = s.busReply := rfl
@[simp] theorem startW_callReply (s : State) : (startW s).callReply = s.callReply := rfl
@[simp] theorem startW_freeCount (s : State) : (startW s).freeCount = s.freeCount := rfl
@[simp] theorem startW_agenda (s : State) : (startW s).agenda = s.agenda := rfl
@[simp] theorem startW_arrivals (s : State) : (startW s).arrivals = s.arrivals := rfl
@[simp] theorem startW_line (s : State) : (startW s).line = s.line := rfl
@[simp] theorem startW_beside (s : State) : (startW s).beside = s.beside := rfl
@[simp] theorem startW_link (s : State) : (startW s).link = s.link := rfl

/-! ## setaddr -/

@[simp] theorem setaddr_regs (P : Params) (b : Byte) (s : State) : (setaddr P b s).regs = s.regs := rfl
@[simp] theorem setaddr_cursor (P : Params) (b : Byte) (s : State) : (setaddr P b s).cursor = cursorOf P b := rfl
@[simp] theorem setaddr_bus (P : Params) (b : Byte) (s : State) : (setaddr P b s).bus = .data := rfl
@[simp] theorem setaddr_hs (P : Params) (b : Byte) (s : State) : (setaddr P b s).hs = s.hs := rfl
@[simp] theorem setaddr_irqMasked (P : Params) (b : Byte) (s : State) : (setaddr P b s).irqMasked = s.irqMasked := rfl
@[simp] theorem setaddr_held (P : Params) (b : Byte) (s : State) : (setaddr P b s).held = s.held := rfl
@[simp] theorem setaddr_phase (P : Params) (b : Byte) (s : State) : (setaddr P b s).phase = s.phase := rfl
@[simp] theorem setaddr_lastLevel (P : Params) (b : Byte) (s : State) : (setaddr P b s).lastLevel = s.lastLevel := rfl
@[simp] theorem setaddr_duty (P : Params) (b : Byte) (s : State) : (setaddr P b s).duty = s.duty := rfl
@[simp] theorem setaddr_deadline (P : Params) (b : Byte) (s : State) : (setaddr P b s).deadline = s.deadline := rfl
@[simp] theorem setaddr_appliedFreq (P : Params) (b : Byte) (s : State) : (setaddr P b s).appliedFreq = s.appliedFreq := rfl
@[simp] theorem setaddr_appliedEnable (P : Params) (b : Byte) (s : State) : (setaddr P b s).appliedEnable = s.appliedEnable := rfl
@[simp] theorem setaddr_wdtLastFeed (P : Params) (b : Byte) (s : State) : (setaddr P b s).wdtLastFeed = s.wdtLastFeed := rfl
@[simp] theorem setaddr_alloc (P : Params) (b : Byte) (s : State) : (setaddr P b s).alloc = s.alloc := rfl
@[simp] theorem setaddr_now (P : Params) (b : Byte) (s : State) : (setaddr P b s).now = s.now := rfl
@[simp] theorem setaddr_log (P : Params) (b : Byte) (s : State) : (setaddr P b s).log = s.log := rfl
@[simp] theorem setaddr_run (P : Params) (b : Byte) (s : State) : (setaddr P b s).run = s.run := rfl
@[simp] theorem setaddr_host (P : Params) (b : Byte) (s : State) : (setaddr P b s).host = s.host := rfl
@[simp] theorem setaddr_busReply (P : Params) (b : Byte) (s : State) : (setaddr P b s).busReply = s.busReply := rfl
@[simp] theorem setaddr_callReply (P : Params) (b : Byte) (s : State) : (setaddr P b s).callReply = s.callReply := rfl
@[simp] theorem setaddr_freeCount (P : Params) (b : Byte) (s : State) : (setaddr P b s).freeCount = s.freeCount := rfl
@[simp] theorem setaddr_agenda (P : Params) (b : Byte) (s : State) : (setaddr P b s).agenda = s.agenda := rfl
@[simp] theorem setaddr_arrivals (P : Params) (b : Byte) (s : State) : (setaddr P b s).arrivals = s.arrivals := rfl
@[simp] theorem setaddr_line (P : Params) (b : Byte) (s : State) : (setaddr P b s).line = s.line := rfl
@[simp] theorem setaddr_beside (P : Params) (b : Byte) (s : State) : (setaddr P b s).beside = s.beside := rfl
@[simp] theorem setaddr_link (P : Params) (b : Byte) (s : State) : (setaddr P b s).link = s.link := rfl

/-! ## fin -/

@[simp] theorem fin_regs (s : State) : (fin s).regs = s.regs := rfl
@[simp] theorem fin_cursor (s : State) : (fin s).cursor = s.cursor := rfl
@[simp] theorem fin_bus (s : State) : (fin s).bus = .idle := rfl
@[simp] theorem fin_hs (s : State) : (fin s).hs = s.hs := rfl
@[simp] theorem fin_irqMasked (s : State) : (fin s).irqMasked = s.irqMasked := rfl
@[simp] theorem fin_held (s : State) : (fin s).held = s.held := rfl
@[simp] theorem fin_phase (s : State) : (fin s).phase = s.phase := rfl
@[simp] theorem fin_lastLevel (s : State) : (fin s).lastLevel = s.lastLevel := rfl
@[simp] theorem fin_duty (s : State) : (fin s).duty = s.duty := rfl
@[simp] theorem fin_deadline (s : State) : (fin s).deadline = s.deadline := rfl
@[simp] theorem fin_appliedFreq (s : State) : (fin s).appliedFreq = s.appliedFreq := rfl
@[simp] theorem fin_appliedEnable (s : State) : (fin s).appliedEnable = s.appliedEnable := rfl
@[simp] theorem fin_wdtLastFeed (s : State) : (fin s).wdtLastFeed = s.wdtLastFeed := rfl
@[simp] theorem fin_alloc (s : State) : (fin s).alloc = s.alloc := rfl
@[simp] theorem fin_now (s : State) : (fin s).now = s.now := rfl
@[simp] theorem fin_log (s : State) : (fin s).log = s.log := rfl
@[simp] theorem fin_run (s : State) : (fin s).run = s.run := rfl
@[simp] theorem fin_host (s : State) : (fin s).host = s.host := rfl
@[simp] theorem fin_busReply (s : State) : (fin s).busReply = s.busReply := rfl
@[simp] theorem fin_callReply (s : State) : (fin s).callReply = s.callReply := rfl
@[simp] theorem fin_freeCount (s : State) : (fin s).freeCount = s.freeCount := rfl
@[simp] theorem fin_agenda (s : State) : (fin s).agenda = s.agenda := rfl
@[simp] theorem fin_arrivals (s : State) : (fin s).arrivals = s.arrivals := rfl
@[simp] theorem fin_line (s : State) : (fin s).line = s.line := rfl
@[simp] theorem fin_beside (s : State) : (fin s).beside = s.beside := rfl
@[simp] theorem fin_link (s : State) : (fin s).link = s.link := rfl

/-! ## rd -/

@[simp] theorem rd_regs (P : Params) (c : Byte) (s : State) : (rd P c s).regs = s.regs := rfl
@[simp] theorem rd_cursor (P : Params) (c : Byte) (s : State) : (rd P c s).cursor = nextCursor P c := rfl
@[simp] theorem rd_bus (P : Params) (c : Byte) (s : State) : (rd P c s).bus = s.bus := rfl
@[simp] theorem rd_hs (P : Params) (c : Byte) (s : State) : (rd P c s).hs = s.hs := rfl
@[simp] theorem rd_irqMasked (P : Params) (c : Byte) (s : State) : (rd P c s).irqMasked = s.irqMasked := rfl
@[simp] theorem rd_held (P : Params) (c : Byte) (s : State) : (rd P c s).held = s.held := rfl
@[simp] theorem rd_phase (P : Params) (c : Byte) (s : State) : (rd P c s).phase = s.phase := rfl
@[simp] theorem rd_lastLevel (P : Params) (c : Byte) (s : State) : (rd P c s).lastLevel = s.lastLevel := rfl
@[simp] theorem rd_duty (P : Params) (c : Byte) (s : State) : (rd P c s).duty = s.duty := rfl
@[simp] theorem rd_deadline (P : Params) (c : Byte) (s : State) : (rd P c s).deadline = s.deadline := rfl
@[simp] theorem rd_appliedFreq (P : Params) (c : Byte) (s : State) : (rd P c s).appliedFreq = s.appliedFreq := rfl
@[simp] theorem rd_appliedEnable (P : Params) (c : Byte) (s : State) : (rd P c s).appliedEnable = s.appliedEnable := rfl
@[simp] theorem rd_wdtLastFeed (P : Params) (c : Byte) (s : State) : (rd P c s).wdtLastFeed = s.wdtLastFeed := rfl
@[simp] theorem rd_alloc (P : Params) (c : Byte) (s : State) : (rd P c s).alloc = s.alloc := rfl
@[simp] theorem rd_now (P : Params) (c : Byte) (s : State) : (rd P c s).now = s.now := rfl
@[simp] theorem rd_log (P : Params) (c : Byte) (s : State) : (rd P c s).log = s.log := rfl
@[simp] theorem rd_run (P : Params) (c : Byte) (s : State) : (rd P c s).run = s.run := rfl
@[simp] theorem rd_host (P : Params) (c : Byte) (s : State) : (rd P c s).host = s.host := rfl
@[simp] theorem rd_busReply (P : Params) (c : Byte) (s : State) : (rd P c s).busReply = some (regRead P c s) := rfl
@[simp] theorem rd_callReply (P : Params) (c : Byte) (s : State) : (rd P c s).callReply = s.callReply := rfl
@[simp] theorem rd_freeCount (P : Params) (c : Byte) (s : State) : (rd P c s).freeCount = s.freeCount := rfl
@[simp] theorem rd_agenda (P : Params) (c : Byte) (s : State) : (rd P c s).agenda = s.agenda := rfl
@[simp] theorem rd_arrivals (P : Params) (c : Byte) (s : State) : (rd P c s).arrivals = s.arrivals := rfl
@[simp] theorem rd_line (P : Params) (c : Byte) (s : State) : (rd P c s).line = s.line := rfl
@[simp] theorem rd_beside (P : Params) (c : Byte) (s : State) : (rd P c s).beside = s.beside := rfl
@[simp] theorem rd_link (P : Params) (c : Byte) (s : State) : (rd P c s).link = s.link := rfl

/-! ## enterSection -/

@[simp] theorem enterSection_regs (s : State) : (enterSection s).regs = s.regs := rfl
@[simp] theorem enterSection_cursor (s : State) : (enterSection s).cursor = s.cursor := rfl
@[simp] theorem enterSection_bus (s : State) : (enterSection s).bus = s.bus := rfl
@[simp] theorem enterSection_hs (s : State) : (enterSection s).hs = s.hs := rfl
@[simp] theorem enterSection_irqMasked (s : State) : (enterSection s).irqMasked = true := rfl
@[simp] theorem enterSection_held (s : State) : (enterSection s).held = s.held := rfl
@[simp] theorem enterSection_phase (s : State) : (enterSection s).phase = s.phase := rfl
@[simp] theorem enterSection_lastLevel (s : State) : (enterSection s).lastLevel = s.lastLevel := rfl
@[simp] theorem enterSection_duty (s : State) : (enterSection s).duty = s.duty := rfl
@[simp] theorem enterSection_deadline (s : State) : (enterSection s).deadline = s.deadline := rfl
@[simp] theorem enterSection_appliedFreq (s : State) : (enterSection s).appliedFreq = s.appliedFreq := rfl
@[simp] theorem enterSection_appliedEnable (s : State) : (enterSection s).appliedEnable = s.appliedEnable := rfl
@[simp] theorem enterSection_wdtLastFeed (s : State) : (enterSection s).wdtLastFeed = s.wdtLastFeed := rfl
@[simp] theorem enterSection_alloc (s : State) : (enterSection s).alloc = s.alloc := rfl
@[simp] theorem enterSection_now (s : State) : (enterSection s).now = s.now := rfl
@[simp] theorem enterSection_log (s : State) : (enterSection s).log = s.log := rfl
@[simp] theorem enterSection_run (s : State) : (enterSection s).run = s.run := rfl
@[simp] theorem enterSection_host (s : State) : (enterSection s).host = s.host := rfl
@[simp] theorem enterSection_busReply (s : State) : (enterSection s).busReply = s.busReply := rfl
@[simp] theorem enterSection_callReply (s : State) : (enterSection s).callReply = s.callReply := rfl
@[simp] theorem enterSection_freeCount (s : State) : (enterSection s).freeCount = s.freeCount := rfl
@[simp] theorem enterSection_agenda (s : State) : (enterSection s).agenda = s.agenda := rfl
@[simp] theorem enterSection_arrivals (s : State) : (enterSection s).arrivals = s.arrivals := rfl
@[simp] theorem enterSection_line (s : State) : (enterSection s).line = s.line := rfl
@[simp] theorem enterSection_beside (s : State) : (enterSection s).beside = s.beside := rfl
@[simp] theorem enterSection_link (s : State) : (enterSection s).link = s.link := rfl

/-! ## initRuntime -/

@[simp] theorem initRuntime_regs (s : State) : (initRuntime s).regs = s.regs := rfl
@[simp] theorem initRuntime_cursor (s : State) : (initRuntime s).cursor = s.cursor := rfl
@[simp] theorem initRuntime_bus (s : State) : (initRuntime s).bus = s.bus := rfl
@[simp] theorem initRuntime_hs (s : State) : (initRuntime s).hs = s.hs := rfl
@[simp] theorem initRuntime_irqMasked (s : State) : (initRuntime s).irqMasked = s.irqMasked := rfl
@[simp] theorem initRuntime_held (s : State) : (initRuntime s).held = s.held := rfl
@[simp] theorem initRuntime_phase (s : State) : (initRuntime s).phase = s.phase := rfl
@[simp] theorem initRuntime_lastLevel (s : State) : (initRuntime s).lastLevel = Vector.replicate 24 0 := rfl
@[simp] theorem initRuntime_duty (s : State) : (initRuntime s).duty = Vector.replicate 24 none := rfl
@[simp] theorem initRuntime_deadline (s : State) : (initRuntime s).deadline = Vector.replicate 24 none := rfl
@[simp] theorem initRuntime_appliedFreq (s : State) : (initRuntime s).appliedFreq = s.appliedFreq := rfl
@[simp] theorem initRuntime_appliedEnable (s : State) : (initRuntime s).appliedEnable = s.appliedEnable := rfl
@[simp] theorem initRuntime_wdtLastFeed (s : State) : (initRuntime s).wdtLastFeed = s.wdtLastFeed := rfl
@[simp] theorem initRuntime_alloc (s : State) : (initRuntime s).alloc = s.alloc := rfl
@[simp] theorem initRuntime_now (s : State) : (initRuntime s).now = s.now := rfl
@[simp] theorem initRuntime_log (s : State) : (initRuntime s).log = s.log := rfl
@[simp] theorem initRuntime_run (s : State) : (initRuntime s).run = s.run := rfl
@[simp] theorem initRuntime_host (s : State) : (initRuntime s).host = s.host := rfl
@[simp] theorem initRuntime_busReply (s : State) : (initRuntime s).busReply = s.busReply := rfl
@[simp] theorem initRuntime_callReply (s : State) : (initRuntime s).callReply = s.callReply := rfl
@[simp] theorem initRuntime_freeCount (s : State) : (initRuntime s).freeCount = s.freeCount := rfl
@[simp] theorem initRuntime_agenda (s : State) : (initRuntime s).agenda = s.agenda := rfl
@[simp] theorem initRuntime_arrivals (s : State) : (initRuntime s).arrivals = s.arrivals := rfl
@[simp] theorem initRuntime_line (s : State) : (initRuntime s).line = s.line := rfl
@[simp] theorem initRuntime_beside (s : State) : (initRuntime s).beside = s.beside := rfl
@[simp] theorem initRuntime_link (s : State) : (initRuntime s).link = s.link := rfl

/-! ## pinsHiz -/

@[simp] theorem pinsHiz_regs (s : State) : (pinsHiz s).regs = s.regs := rfl
@[simp] theorem pinsHiz_cursor (s : State) : (pinsHiz s).cursor = s.cursor := rfl
@[simp] theorem pinsHiz_bus (s : State) : (pinsHiz s).bus = s.bus := rfl
@[simp] theorem pinsHiz_hs (s : State) : (pinsHiz s).hs = s.hs := rfl
@[simp] theorem pinsHiz_irqMasked (s : State) : (pinsHiz s).irqMasked = s.irqMasked := rfl
@[simp] theorem pinsHiz_held (s : State) : (pinsHiz s).held = s.held := rfl
@[simp] theorem pinsHiz_phase (s : State) : (pinsHiz s).phase = s.phase := rfl
@[simp] theorem pinsHiz_lastLevel (s : State) : (pinsHiz s).lastLevel = s.lastLevel := rfl
@[simp] theorem pinsHiz_duty (s : State) : (pinsHiz s).duty = s.duty := rfl
@[simp] theorem pinsHiz_deadline (s : State) : (pinsHiz s).deadline = s.deadline := rfl
@[simp] theorem pinsHiz_appliedFreq (s : State) : (pinsHiz s).appliedFreq = s.appliedFreq := rfl
@[simp] theorem pinsHiz_appliedEnable (s : State) : (pinsHiz s).appliedEnable = s.appliedEnable := rfl
@[simp] theorem pinsHiz_wdtLastFeed (s : State) : (pinsHiz s).wdtLastFeed = s.wdtLastFeed := rfl
@[simp] theorem pinsHiz_now (s : State) : (pinsHiz s).now = s.now := rfl
@[simp] theorem pinsHiz_log (s : State) : (pinsHiz s).log = s.log := rfl
@[simp] theorem pinsHiz_run (s : State) : (pinsHiz s).run = s.run := rfl
@[simp] theorem pinsHiz_host (s : State) : (pinsHiz s).host = s.host := rfl
@[simp] theorem pinsHiz_busReply (s : State) : (pinsHiz s).busReply = s.busReply := rfl
@[simp] theorem pinsHiz_callReply (s : State) : (pinsHiz s).callReply = s.callReply := rfl
@[simp] theorem pinsHiz_freeCount (s : State) : (pinsHiz s).freeCount = s.freeCount := rfl
@[simp] theorem pinsHiz_agenda (s : State) : (pinsHiz s).agenda = s.agenda := rfl
@[simp] theorem pinsHiz_arrivals (s : State) : (pinsHiz s).arrivals = s.arrivals := rfl
@[simp] theorem pinsHiz_line (s : State) : (pinsHiz s).line = s.line := rfl
@[simp] theorem pinsHiz_beside (s : State) : (pinsHiz s).beside = s.beside := rfl
@[simp] theorem pinsHiz_link (s : State) : (pinsHiz s).link = s.link := rfl

/-! ## setPending -/

@[simp] theorem setPending_regs (v : Option PendingReset) (s : State) : (setPending v s).regs = s.regs := rfl
@[simp] theorem setPending_cursor (v : Option PendingReset) (s : State) : (setPending v s).cursor = s.cursor := rfl
@[simp] theorem setPending_bus (v : Option PendingReset) (s : State) : (setPending v s).bus = s.bus := rfl
@[simp] theorem setPending_hs (v : Option PendingReset) (s : State) : (setPending v s).hs = s.hs := rfl
@[simp] theorem setPending_irqMasked (v : Option PendingReset) (s : State) : (setPending v s).irqMasked = s.irqMasked := rfl
@[simp] theorem setPending_held (v : Option PendingReset) (s : State) : (setPending v s).held = s.held := rfl
@[simp] theorem setPending_phase (v : Option PendingReset) (s : State) : (setPending v s).phase = s.phase := rfl
@[simp] theorem setPending_lastLevel (v : Option PendingReset) (s : State) : (setPending v s).lastLevel = s.lastLevel := rfl
@[simp] theorem setPending_duty (v : Option PendingReset) (s : State) : (setPending v s).duty = s.duty := rfl
@[simp] theorem setPending_deadline (v : Option PendingReset) (s : State) : (setPending v s).deadline = s.deadline := rfl
@[simp] theorem setPending_appliedFreq (v : Option PendingReset) (s : State) : (setPending v s).appliedFreq = s.appliedFreq := rfl
@[simp] theorem setPending_appliedEnable (v : Option PendingReset) (s : State) : (setPending v s).appliedEnable = s.appliedEnable := rfl
@[simp] theorem setPending_wdtLastFeed (v : Option PendingReset) (s : State) : (setPending v s).wdtLastFeed = s.wdtLastFeed := rfl
@[simp] theorem setPending_alloc (v : Option PendingReset) (s : State) : (setPending v s).alloc = s.alloc := rfl
@[simp] theorem setPending_now (v : Option PendingReset) (s : State) : (setPending v s).now = s.now := rfl
@[simp] theorem setPending_log (v : Option PendingReset) (s : State) : (setPending v s).log = s.log := rfl
@[simp] theorem setPending_run (v : Option PendingReset) (s : State) : (setPending v s).run = s.run := rfl
@[simp] theorem setPending_busReply (v : Option PendingReset) (s : State) : (setPending v s).busReply = s.busReply := rfl
@[simp] theorem setPending_callReply (v : Option PendingReset) (s : State) : (setPending v s).callReply = s.callReply := rfl
@[simp] theorem setPending_freeCount (v : Option PendingReset) (s : State) : (setPending v s).freeCount = s.freeCount := rfl
@[simp] theorem setPending_agenda (v : Option PendingReset) (s : State) : (setPending v s).agenda = s.agenda := rfl
@[simp] theorem setPending_arrivals (v : Option PendingReset) (s : State) : (setPending v s).arrivals = s.arrivals := rfl
@[simp] theorem setPending_line (v : Option PendingReset) (s : State) : (setPending v s).line = s.line := rfl
@[simp] theorem setPending_beside (v : Option PendingReset) (s : State) : (setPending v s).beside = s.beside := rfl
@[simp] theorem setPending_link (v : Option PendingReset) (s : State) : (setPending v s).link = s.link := rfl

/-! ## beginCall -/

@[simp] theorem beginCall_regs (P : Params) (errands : List Errand) (s : State) : (beginCall P errands s).regs = s.regs := rfl
@[simp] theorem beginCall_cursor (P : Params) (errands : List Errand) (s : State) : (beginCall P errands s).cursor = s.cursor := rfl
@[simp] theorem beginCall_bus (P : Params) (errands : List Errand) (s : State) : (beginCall P errands s).bus = s.bus := rfl
@[simp] theorem beginCall_hs (P : Params) (errands : List Errand) (s : State) : (beginCall P errands s).hs = s.hs := rfl
@[simp] theorem beginCall_irqMasked (P : Params) (errands : List Errand) (s : State) : (beginCall P errands s).irqMasked = s.irqMasked := rfl
@[simp] theorem beginCall_held (P : Params) (errands : List Errand) (s : State) : (beginCall P errands s).held = s.held := rfl
@[simp] theorem beginCall_phase (P : Params) (errands : List Errand) (s : State) : (beginCall P errands s).phase = s.phase := rfl
@[simp] theorem beginCall_lastLevel (P : Params) (errands : List Errand) (s : State) : (beginCall P errands s).lastLevel = s.lastLevel := rfl
@[simp] theorem beginCall_duty (P : Params) (errands : List Errand) (s : State) : (beginCall P errands s).duty = s.duty := rfl
@[simp] theorem beginCall_deadline (P : Params) (errands : List Errand) (s : State) : (beginCall P errands s).deadline = s.deadline := rfl
@[simp] theorem beginCall_appliedFreq (P : Params) (errands : List Errand) (s : State) : (beginCall P errands s).appliedFreq = s.appliedFreq := rfl
@[simp] theorem beginCall_appliedEnable (P : Params) (errands : List Errand) (s : State) : (beginCall P errands s).appliedEnable = s.appliedEnable := rfl
@[simp] theorem beginCall_wdtLastFeed (P : Params) (errands : List Errand) (s : State) : (beginCall P errands s).wdtLastFeed = s.wdtLastFeed := rfl
@[simp] theorem beginCall_alloc (P : Params) (errands : List Errand) (s : State) : (beginCall P errands s).alloc = s.alloc := rfl
@[simp] theorem beginCall_now (P : Params) (errands : List Errand) (s : State) : (beginCall P errands s).now = s.now := rfl
@[simp] theorem beginCall_log (P : Params) (errands : List Errand) (s : State) : (beginCall P errands s).log = s.log := rfl
@[simp] theorem beginCall_run (P : Params) (errands : List Errand) (s : State) : (beginCall P errands s).run = s.run := rfl
@[simp] theorem beginCall_host (P : Params) (errands : List Errand) (s : State) : (beginCall P errands s).host = s.host := rfl
@[simp] theorem beginCall_busReply (P : Params) (errands : List Errand) (s : State) : (beginCall P errands s).busReply = s.busReply := rfl
@[simp] theorem beginCall_callReply (P : Params) (errands : List Errand) (s : State) : (beginCall P errands s).callReply = s.callReply := rfl
@[simp] theorem beginCall_freeCount (P : Params) (errands : List Errand) (s : State) : (beginCall P errands s).freeCount = s.freeCount := rfl
@[simp] theorem beginCall_agenda (P : Params) (errands : List Errand) (s : State) : (beginCall P errands s).agenda = s.agenda := rfl
@[simp] theorem beginCall_arrivals (P : Params) (errands : List Errand) (s : State) : (beginCall P errands s).arrivals = s.arrivals := rfl
@[simp] theorem beginCall_line (P : Params) (errands : List Errand) (s : State) : (beginCall P errands s).line = ⟨[], callTraffic P errands s, []⟩ := rfl
@[simp] theorem beginCall_beside (P : Params) (errands : List Errand) (s : State) : (beginCall P errands s).beside = s.beside := rfl
@[simp] theorem beginCall_link (P : Params) (errands : List Errand) (s : State) : (beginCall P errands s).link = s.link.drop errands.length := rfl

/-! ## converse -/

@[simp] theorem converse_regs (P : Params) (errands : List Errand) (s : State) : (converse P errands s).regs = (sendAll P errands s).regs := rfl
@[simp] theorem converse_cursor (P : Params) (errands : List Errand) (s : State) : (converse P errands s).cursor = (sendAll P errands s).cursor := rfl
@[simp] theorem converse_bus (P : Params) (errands : List Errand) (s : State) : (converse P errands s).bus = (sendAll P errands s).bus := rfl
@[simp] theorem converse_hs (P : Params) (errands : List Errand) (s : State) : (converse P errands s).hs = (sendAll P errands s).hs := rfl
@[simp] theorem converse_irqMasked (P : Params) (errands : List Errand) (s : State) : (converse P errands s).irqMasked = (sendAll P errands s).irqMasked := rfl
@[simp] theorem converse_held (P : Params) (errands : List Errand) (s : State) : (converse P errands s).held = (sendAll P errands s).held := rfl
@[simp] theorem converse_phase (P : Params) (errands : List Errand) (s : State) : (converse P errands s).phase = (sendAll P errands s).phase := rfl
@[simp] theorem converse_lastLevel (P : Params) (errands : List Errand) (s : State) : (converse P errands s).lastLevel = (sendAll P errands s).lastLevel := rfl
@[simp] theorem converse_duty (P : Params) (errands : List Errand) (s : State) : (converse P errands s).duty = (sendAll P errands s).duty := rfl
@[simp] theorem converse_deadline (P : Params) (errands : List Errand) (s : State) : (converse P errands s).deadline = (sendAll P errands s).deadline := rfl
@[simp] theorem converse_appliedFreq (P : Params) (errands : List Errand) (s : State) : (converse P errands s).appliedFreq = (sendAll P errands s).appliedFreq := rfl
@[simp] theorem converse_appliedEnable (P : Params) (errands : List Errand) (s : State) : (converse P errands s).appliedEnable = (sendAll P errands s).appliedEnable := rfl
@[simp] theorem converse_wdtLastFeed (P : Params) (errands : List Errand) (s : State) : (converse P errands s).wdtLastFeed = (sendAll P errands s).wdtLastFeed := rfl
@[simp] theorem converse_alloc (P : Params) (errands : List Errand) (s : State) : (converse P errands s).alloc = (sendAll P errands s).alloc := rfl
@[simp] theorem converse_now (P : Params) (errands : List Errand) (s : State) : (converse P errands s).now = (sendAll P errands s).now := rfl
@[simp] theorem converse_log (P : Params) (errands : List Errand) (s : State) : (converse P errands s).log = (sendAll P errands s).log := rfl
@[simp] theorem converse_run (P : Params) (errands : List Errand) (s : State) : (converse P errands s).run = (sendAll P errands s).run := rfl
@[simp] theorem converse_host (P : Params) (errands : List Errand) (s : State) : (converse P errands s).host = (errands.zip (verdicts (nextEnds errands.length s.link) (sendAll P errands s).line.heard)).foldl HostDriver.settle s.host := rfl
@[simp] theorem converse_busReply (P : Params) (errands : List Errand) (s : State) : (converse P errands s).busReply = (sendAll P errands s).busReply := rfl
@[simp] theorem converse_callReply (P : Params) (errands : List Errand) (s : State) : (converse P errands s).callReply = (sendAll P errands s).callReply := rfl
@[simp] theorem converse_freeCount (P : Params) (errands : List Errand) (s : State) : (converse P errands s).freeCount = (sendAll P errands s).freeCount := rfl
@[simp] theorem converse_agenda (P : Params) (errands : List Errand) (s : State) : (converse P errands s).agenda = (sendAll P errands s).agenda := rfl
@[simp] theorem converse_arrivals (P : Params) (errands : List Errand) (s : State) : (converse P errands s).arrivals = (sendAll P errands s).arrivals := rfl
@[simp] theorem converse_line (P : Params) (errands : List Errand) (s : State) : (converse P errands s).line = .idle := rfl
@[simp] theorem converse_beside (P : Params) (errands : List Errand) (s : State) : (converse P errands s).beside = [] := rfl
@[simp] theorem converse_link (P : Params) (errands : List Errand) (s : State) : (converse P errands s).link = (sendAll P errands s).link := rfl

/-! ## applyFreq -/

@[simp] theorem applyFreq_regs (P : Params) (f : Half) (s : State) : (applyFreq P f s).regs = s.regs := rfl
@[simp] theorem applyFreq_cursor (P : Params) (f : Half) (s : State) : (applyFreq P f s).cursor = s.cursor := rfl
@[simp] theorem applyFreq_bus (P : Params) (f : Half) (s : State) : (applyFreq P f s).bus = s.bus := rfl
@[simp] theorem applyFreq_hs (P : Params) (f : Half) (s : State) : (applyFreq P f s).hs = s.hs := rfl
@[simp] theorem applyFreq_irqMasked (P : Params) (f : Half) (s : State) : (applyFreq P f s).irqMasked = s.irqMasked := rfl
@[simp] theorem applyFreq_held (P : Params) (f : Half) (s : State) : (applyFreq P f s).held = s.held := rfl
@[simp] theorem applyFreq_phase (P : Params) (f : Half) (s : State) : (applyFreq P f s).phase = s.phase := rfl
@[simp] theorem applyFreq_lastLevel (P : Params) (f : Half) (s : State) : (applyFreq P f s).lastLevel = s.lastLevel := rfl
@[simp] theorem applyFreq_duty (P : Params) (f : Half) (s : State) : (applyFreq P f s).duty = s.duty := rfl
@[simp] theorem applyFreq_deadline (P : Params) (f : Half) (s : State) : (applyFreq P f s).deadline = s.deadline := rfl
@[simp] theorem applyFreq_appliedFreq (P : Params) (f : Half) (s : State) : (applyFreq P f s).appliedFreq = s.appliedFreq := rfl
@[simp] theorem applyFreq_appliedEnable (P : Params) (f : Half) (s : State) : (applyFreq P f s).appliedEnable = s.appliedEnable := rfl
@[simp] theorem applyFreq_wdtLastFeed (P : Params) (f : Half) (s : State) : (applyFreq P f s).wdtLastFeed = s.wdtLastFeed := rfl
@[simp] theorem applyFreq_alloc (P : Params) (f : Half) (s : State) : (applyFreq P f s).alloc = applyFreqAlloc P f s.alloc := rfl
@[simp] theorem applyFreq_now (P : Params) (f : Half) (s : State) : (applyFreq P f s).now = s.now := rfl
@[simp] theorem applyFreq_log (P : Params) (f : Half) (s : State) : (applyFreq P f s).log = s.log ++ applyFreqLog P f := rfl
@[simp] theorem applyFreq_run (P : Params) (f : Half) (s : State) : (applyFreq P f s).run = s.run := rfl
@[simp] theorem applyFreq_host (P : Params) (f : Half) (s : State) : (applyFreq P f s).host = s.host := rfl
@[simp] theorem applyFreq_busReply (P : Params) (f : Half) (s : State) : (applyFreq P f s).busReply = s.busReply := rfl
@[simp] theorem applyFreq_callReply (P : Params) (f : Half) (s : State) : (applyFreq P f s).callReply = s.callReply := rfl
@[simp] theorem applyFreq_freeCount (P : Params) (f : Half) (s : State) : (applyFreq P f s).freeCount = s.freeCount := rfl
@[simp] theorem applyFreq_agenda (P : Params) (f : Half) (s : State) : (applyFreq P f s).agenda = s.agenda := rfl
@[simp] theorem applyFreq_arrivals (P : Params) (f : Half) (s : State) : (applyFreq P f s).arrivals = s.arrivals := rfl
@[simp] theorem applyFreq_line (P : Params) (f : Half) (s : State) : (applyFreq P f s).line = s.line := rfl
@[simp] theorem applyFreq_beside (P : Params) (f : Half) (s : State) : (applyFreq P f s).beside = s.beside := rfl
@[simp] theorem applyFreq_link (P : Params) (f : Half) (s : State) : (applyFreq P f s).link = s.link := rfl

/-! ## The register file after the compound writes -/

@[simp] theorem regRead_storeAdvance (P : Params) (a b x : Byte) (s : State) :
    regRead P x (storeAdvance P a b s) = if x = a then b else regRead P x s :=
  regRead_regWrite P a x b s

@[simp] theorem regRead_memWrite16 (P : Params) (a x : Byte) (v : Half) (s : State) :
    regRead P x (memWrite16 P a v s) =
      if x = a + 1 then hiByte v else if x = a then loByte v else regRead P x s := by
  simp [memWrite16]

end Sys2Proof.Machine
end

