-- ==== Sys2Proof/Laws/Sections.lean ====
section
/-! SUPPORT. What the interrupt handler, the windows, the interrupt-disabled sections and the engine's accesses can change,
said once; and what they are when no bus event lands. -/

namespace Sys2Proof.Safety

open Sys2Proof.Machine

theorem IsrOnly.refl (s : State) : IsrOnly s s := rfl

theorem IsrOnly.trans {s t u : State} (h : IsrOnly s t) (k : IsrOnly t u) : IsrOnly s u := by
  unfold IsrOnly at *
  rw [k, h]

section
variable {s t : State} (h : IsrOnly s t)
include h
theorem IsrOnly.alloc : t.alloc = s.alloc := by rw [h]
theorem IsrOnly.host : t.host = s.host := by rw [h]
theorem IsrOnly.run : t.run = s.run := by rw [h]
theorem IsrOnly.phase : t.phase = s.phase := by rw [h]
theorem IsrOnly.lastLevel : t.lastLevel = s.lastLevel := by rw [h]
theorem IsrOnly.duty : t.duty = s.duty := by rw [h]
theorem IsrOnly.deadline : t.deadline = s.deadline := by rw [h]
theorem IsrOnly.appliedFreq : t.appliedFreq = s.appliedFreq := by rw [h]
theorem IsrOnly.appliedEnable : t.appliedEnable = s.appliedEnable := by rw [h]
theorem IsrOnly.wdtLastFeed : t.wdtLastFeed = s.wdtLastFeed := by rw [h]
theorem IsrOnly.log : t.log = s.log := by rw [h]
theorem IsrOnly.callReply : t.callReply = s.callReply := by rw [h]
theorem IsrOnly.freeCount : t.freeCount = s.freeCount := by rw [h]
theorem IsrOnly.agenda : t.agenda = s.agenda := by rw [h]
theorem IsrOnly.link : t.link = s.link := by rw [h]
theorem IsrOnly.beside : t.beside = s.beside := by rw [h]
end

end Sys2Proof.Safety

namespace Sys2Proof.Machine

open Sys2Proof.Safety

/-- One data byte changes what a bus operation may change. -/
theorem dataByte_isrOnly (P : Params) (b : Byte) (s : State) : IsrOnly s (dataByte P b s) := by
  unfold dataByte wrReset
  split <;> first | rfl | (repeat' split) <;> rfl

/-- The handler changes what a bus operation may change (R151). -/
theorem isr_isrOnly (P : Params) (e : BusEvent) (s : State) : IsrOnly s (isr P e s) := by
  cases e with
  | startW => rfl
  | rx b =>
    simp only [isr]
    split
    · exact dataByte_isrOnly P b s
    · rfl
  | rq => rfl
  | fin => rfl

theorem isrAll_isrOnly (P : Params) (es : List BusEvent) (s : State) : IsrOnly s (isrAll P es s) := by
  induction es generalizing s with
  | nil => rfl
  | cons e es ih => exact (isr_isrOnly P e s).trans (ih _)

theorem deliver_isrOnly (P : Params) (e : BusEvent) (s : State) : IsrOnly s (deliver P e s) := by
  unfold deliver
  split
  · rfl
  · split
    · rfl
    · exact isr_isrOnly P e s

theorem deliverAll_isrOnly (P : Params) (es : List BusEvent) (s : State) : IsrOnly s (deliverAll P es s) := by
  induction es generalizing s with
  | nil => rfl
  | cons e es ih => exact (deliver_isrOnly P e s).trans (ih _)

/-- The next event of a driver call changes what a bus operation may change, and the traffic in flight. -/
theorem takeLine_isrOnly (P : Params) (s : State) : IsrOnly s (takeLine P s) := by
  have send : ∀ (e : BusEvent) (w : List BusEvent) (q : List (List BusEvent)), IsrOnly s (sendEvent P e w q s) :=
    fun e w q => IsrOnly.trans (t := { s with line := _ }) rfl (deliver_isrOnly P e _)
  unfold takeLine
  split
  · exact send _ _ _
  · rfl
  · rfl
  · exact send _ _ _

theorem land_isrOnly (P : Params) (l : Landing) (s : State) : IsrOnly s (land P l s) := by
  cases l with
  | event e => exact deliver_isrOnly P e s
  | line => exact takeLine_isrOnly P s

theorem arrive_isrOnly (P : Params) (a : Arrival) (s : State) : IsrOnly s (arrive P a s) :=
  IsrOnly.trans (t := { s with now := s.now + a.elapse }) rfl (land_isrOnly P a.lands _)

theorem arriveAll_isrOnly (P : Params) (batch : List Arrival) (s : State) : IsrOnly s (arriveAll P batch s) := by
  induction batch generalizing s with
  | nil => rfl
  | cons a batch ih => exact (arrive_isrOnly P a s).trans (ih _)

theorem window_isrOnly (P : Params) (s : State) : IsrOnly s (window P s) := by
  unfold window
  split
  · rfl
  · exact IsrOnly.trans (t := { s with arrivals := _ }) rfl (arriveAll_isrOnly P _ _)

theorem drain_isrOnly (P : Params) (s : State) : IsrOnly s (drain P s) :=
  IsrOnly.trans (t := { s with arrivals := [] }) rfl (arriveAll_isrOnly P _ _)

theorem leaveSection_isrOnly (P : Params) (s : State) : IsrOnly s (leaveSection P s) :=
  IsrOnly.trans (t := { s with irqMasked := false, held := [] }) rfl (isrAll_isrOnly P _ _)

theorem engRead_isrOnly (P : Params) (a : Byte) (s : State) : IsrOnly s (engRead P a s).2 := window_isrOnly P s

theorem engWrite_isrOnly (P : Params) (a v : Byte) (s : State) : IsrOnly s (engWrite P a v s) :=
  (window_isrOnly P s).trans rfl

theorem engWrite16_isrOnly (P : Params) (a : Byte) (v : Half) (s : State) : IsrOnly s (engWrite16 P a v s) :=
  ((window_isrOnly P s).trans (t := window P s) (u := memWrite16 P a v (enterSection (window P s))) rfl).trans
    (leaveSection_isrOnly P _)

theorem engAtomicRead_isrOnly (P : Params) (a : Byte) (w : Nat) (s : State) : IsrOnly s (engAtomicRead P a w s).2 :=
  ((window_isrOnly P s).trans (u := enterSection (window P s)) rfl).trans (leaveSection_isrOnly P _)

/-- The end of a phase: an ISR-only change, and the phase counter. -/
theorem endPhase_changes (P : Params) (p : Phase) (s : State) : IsrOnly { s with phase := p } (endPhase P p s) := by
  have h := drain_isrOnly P s
  unfold IsrOnly endPhase at *
  rw [h]

/-! ## No bus event lands -/

theorem window_quiet (P : Params) {s : State} (h : s.arrivals = []) : window P s = s := by simp [window, h]

theorem drain_quiet (P : Params) {s : State} (h : s.arrivals = []) : drain P s = s := by
  simp only [drain, h, List.flatten_nil, arriveAll, List.foldl_nil]
  cases s; simp_all

theorem endPhase_quiet (P : Params) (p : Phase) {s : State} (h : s.arrivals = []) :
    endPhase P p s = { s with phase := p } := by simp [endPhase, drain_quiet P h]

theorem engRead_quiet (P : Params) (a : Byte) {s : State} (h : s.arrivals = []) :
    engRead P a s = (regRead P a s, s) := by simp [engRead, window_quiet P h]

theorem engWrite_quiet (P : Params) (a v : Byte) {s : State} (h : s.arrivals = []) :
    engWrite P a v s = regWrite P a v s := by simp [engWrite, window_quiet P h]

theorem engWrite16_quiet (P : Params) (a : Byte) (v : Half) {s : State} (h : Quiet s) :
    engWrite16 P a v s = memWrite16 P a v s := by
  obtain ⟨h1, h2, h3⟩ := h
  cases s
  simp_all [engWrite16, window, leaveSection, isrAll, memWrite16, regWrite, enterSection]

/-- The protected read when nothing is held: none while a write to the field is in progress, else the value; the state is
as before (R80). -/
theorem engAtomicRead_quiet (P : Params) (a : Byte) (w : Nat) {s : State} (h : Quiet s) :
    engAtomicRead P a w s = (if wip a w s then none else some (memRead P a w s), s) := by
  obtain ⟨h1, h2, h3⟩ := h
  have hm : memRead P a w (enterSection s) = memRead P a w s := by
    induction w generalizing a with
    | zero => rfl
    | succ w ih => simp only [memRead, ih]; rfl
  have hs : leaveSection P (enterSection s) = s := by
    cases s
    simp_all [leaveSection, isrAll, enterSection]
  have hw : wip a w (enterSection s) = wip a w s := rfl
  simp only [engAtomicRead, atomicRead, window_quiet P h3, hm, hs, hw]

end Sys2Proof.Machine
end

