-- ==== Sys2Proof/Laws/Bus.lean ====
section
/-! SUPPORT. What a data byte can do, said once, and how sequences of bus events compose (40_bus_isr.md). -/

namespace Sys2Proof.Machine

open Sys2Proof.Safety

/-- The cursor stays inside the array (R30). -/
theorem nextCursor_lt (P : Params) (h : P.WellFormed) (a : Byte) : (nextCursor P a).toNat < P.regfileSize := by
  have h1 := h.regfileHolds
  have h2 := h.regfileByte
  have h3 : (a.toNat + 1) % P.regfileSize < P.regfileSize := Nat.mod_lt _ (by omega)
  simp only [nextCursor, BitVec.toNat_ofNat]
  exact lt_of_le_of_lt (Nat.mod_le _ _) h3

/-- Short of the end of the array, the next address is one above (R16 item 2). -/
theorem nextCursor_of_lt (P : Params) (a : Byte) (h : a.toNat + 1 < P.regfileSize) : nextCursor P a = a + 1 := by
  apply BitVec.eq_of_toNat_eq
  simp [nextCursor, Nat.mod_eq_of_lt h]

/-- The device's cursor wraps as a byte does (R16 item 2, D1). -/
@[simp] theorem nextCursor_device (a : Byte) : nextCursor Config.device a = a + 1 := by
  apply BitVec.eq_of_toNat_eq
  simp [nextCursor, Config.device, Config.regfileSize]

/-- Every byte is an address of the device (R132, D1). -/
@[simp] theorem cursorOf_device (b : Byte) : cursorOf Config.device b = b := by
  apply BitVec.eq_of_toNat_eq
  have : b.toNat < 256 := b.isLt
  simp [cursorOf, Config.device, Config.regfileSize, this]

theorem isr_rx_data (P : Params) (b : Byte) (s : State) (h : s.bus = .data) : isr P (.rx b) s = dataByte P b s := by
  simp [isr, h]

/-! ## The address decode is exact (R103) -/

theorem levelAddr_of_class (c : Byte) (n : Chan) (h : addressClass c = .level n) : levelAddr n = c := by
  revert h; revert n; revert c; decide +kernel

theorem cfgAddr_of_class (c : Byte) (n : Chan) (j : Fin 4) (h : addressClass c = .cfg n j) : cfgAddr n j = c := by
  revert h; revert j; revert n; revert c; decide +kernel

theorem address_of_class (c : Byte) :
    (addressClass c = .ctrl0 → c = 0x18) ∧ (addressClass c = .ctrl1 → c = 0x19) ∧
    (addressClass c = .freqLo → c = 0x1A) ∧ (addressClass c = .freqHi → c = 0x1B) ∧
    (addressClass c = .version → c = 0x1E) ∧ (addressClass c = .whoami → c = 0x1F) ∧
    (addressClass c = .reset → c = 0xDD) := by
  revert c; decide +kernel

/-! ## A data byte (R133) -/

/-- The cursor advances, registers and handshake may change, nothing else does. -/
theorem dataByte_changes (P : Params) (b : Byte) (s : State) :
    dataByte P b s =
      { s with regs := (dataByte P b s).regs, hs := (dataByte P b s).hs, cursor := nextCursor P s.cursor } := by
  have st : ∀ a, a = s.cursor → storeAdvance P a b s =
      { s with regs := (storeAdvance P a b s).regs, hs := (storeAdvance P a b s).hs, cursor := nextCursor P s.cursor } := by
    rintro a rfl
    simp only [storeAdvance]
    rfl
  have hc := address_of_class s.cursor
  unfold dataByte
  split
  · next n h => exact st _ (levelAddr_of_class _ _ h)
  · next h => exact st _ (hc.1 h).symm
  · next h => exact st _ (hc.2.1 h).symm
  · next h => exact st _ (hc.2.2.1 h).symm
  · next h => exact st _ (by rw [hc.2.2.2.1 h]; decide)
  · exact st _ rfl
  · next h => simp only [wrIdVersion, dropAdvance, hc.2.2.2.2.1 h]; rfl
  · next h => simp only [wrIdWhoami, dropAdvance, hc.2.2.2.2.2.1 h]; rfl
  · next n h => exact st _ (cfgAddr_of_class _ _ _ h)
  · next n h => exact st _ (cfgAddr_of_class _ _ _ h)
  · next n h => exact st _ (cfgAddr_of_class _ _ _ h)
  · next n h => exact st _ (cfgAddr_of_class _ _ _ h)
  · next h =>
    unfold wrReset
    repeat' split
    all_goals simp only [hsArm, hsReset, hsBootsel, hsOther, handshakeAdvance, hc.2.2.2.2.2.2 h]; rfl

/-- The register a data byte leaves at address `x`: the byte at the cursor, unless the address is read-only or the
handshake register. -/
theorem dataByte_regRead (P : Params) (b x : Byte) (s : State) :
    regRead P x (dataByte P b s) =
      if x = s.cursor ∧ x ≠ 0x1E ∧ x ≠ 0x1F ∧ x ≠ 0xDD then b else regRead P x s := by
  have hc := address_of_class s.cursor
  have st : ∀ a, a = s.cursor → s.cursor ≠ 0x1E ∧ s.cursor ≠ 0x1F ∧ s.cursor ≠ 0xDD →
      regRead P x (storeAdvance P a b s) =
        if x = s.cursor ∧ x ≠ 0x1E ∧ x ≠ 0x1F ∧ x ≠ 0xDD then b else regRead P x s := by
    rintro a rfl hn
    have h : regRead P x (storeAdvance P s.cursor b s) = regRead P x (regWrite P s.cursor b s) := rfl
    rw [h]
    by_cases hx : x = s.cursor
    · rw [if_pos ⟨hx, by rw [hx]; exact hn⟩, hx]
      simp
    · simp [hx]
  have ne : ∀ k : AddrClass, addressClass s.cursor = k → k ≠ .version → k ≠ .whoami → k ≠ .reset →
      s.cursor ≠ 0x1E ∧ s.cursor ≠ 0x1F ∧ s.cursor ≠ 0xDD := by
    rintro k rfl h1 h2 h3
    refine ⟨fun e => h1 ?_, fun e => h2 ?_, fun e => h3 ?_⟩ <;> rw [e] <;> decide
  have same : ∀ v : Byte, s.cursor = v → v = 0x1E ∨ v = 0x1F ∨ v = 0xDD →
      regRead P x s = if x = s.cursor ∧ x ≠ 0x1E ∧ x ≠ 0x1F ∧ x ≠ 0xDD then b else regRead P x s := by
    intro v e hv
    rw [if_neg]
    rintro ⟨rfl, h1, h2, h3⟩
    rw [e] at h1 h2 h3
    rcases hv with h | h | h
    · exact h1 h
    · exact h2 h
    · exact h3 h
  unfold dataByte
  split
  · next n h => exact st _ (levelAddr_of_class _ _ h) (ne _ h (by simp) (by simp) (by simp))
  · next h => exact st _ (hc.1 h).symm (ne _ h (by simp) (by simp) (by simp))
  · next h => exact st _ (hc.2.1 h).symm (ne _ h (by simp) (by simp) (by simp))
  · next h => exact st _ (hc.2.2.1 h).symm (ne _ h (by simp) (by simp) (by simp))
  · next h => exact st _ (by rw [hc.2.2.2.1 h]; decide) (ne _ h (by simp) (by simp) (by simp))
  · next h => exact st _ rfl (ne _ h (by simp) (by simp) (by simp))
  · next h => exact same _ (hc.2.2.2.2.1 h) (.inl rfl)
  · next h => exact same _ (hc.2.2.2.2.2.1 h) (.inr (.inl rfl))
  · next n h => exact st _ (cfgAddr_of_class _ _ _ h) (ne _ h (by simp) (by simp) (by simp))
  · next n h => exact st _ (cfgAddr_of_class _ _ _ h) (ne _ h (by simp) (by simp) (by simp))
  · next n h => exact st _ (cfgAddr_of_class _ _ _ h) (ne _ h (by simp) (by simp) (by simp))
  · next n h => exact st _ (cfgAddr_of_class _ _ _ h) (ne _ h (by simp) (by simp) (by simp))
  · next h =>
    rw [← same _ (hc.2.2.2.2.2.2 h) (.inr (.inr rfl))]
    unfold wrReset
    repeat' split
    all_goals rfl

@[simp] theorem dataByte_bus (P : Params) (b : Byte) (s : State) : (dataByte P b s).bus = s.bus := by
  rw [dataByte_changes]

@[simp] theorem dataByte_cursor (P : Params) (b : Byte) (s : State) : (dataByte P b s).cursor = nextCursor P s.cursor := by
  rw [dataByte_changes]

/-! ## Sequences of events -/

@[simp] theorem isrAll_nil (P : Params) (s : State) : isrAll P [] s = s := rfl

@[simp] theorem isrAll_cons (P : Params) (e : BusEvent) (es : List BusEvent) (s : State) :
    isrAll P (e :: es) s = isrAll P es (isr P e s) := rfl

theorem isrAll_append (P : Params) (es fs : List BusEvent) (s : State) :
    isrAll P (es ++ fs) s = isrAll P fs (isrAll P es s) := by
  simp [isrAll]

/-- The handler leaves the mask, the held events, the events still to land, the clock and the traffic in flight as they
are. -/
theorem isr_keeps_mask (P : Params) (e : BusEvent) (s : State) :
    (isr P e s).irqMasked = s.irqMasked ∧ (isr P e s).held = s.held ∧ (isr P e s).arrivals = s.arrivals ∧
    (isr P e s).now = s.now ∧ (isr P e s).line = s.line := by
  cases e with
  | rx b =>
    simp only [isr]
    split
    · rw [dataByte_changes]; exact ⟨rfl, rfl, rfl, rfl, rfl⟩
    · exact ⟨rfl, rfl, rfl, rfl, rfl⟩
  | _ => exact ⟨rfl, rfl, rfl, rfl, rfl⟩

/-- A running device with interrupts on handles every event as it arrives. -/
theorem deliverAll_running (P : Params) (es : List BusEvent) (s : State) (h : s.run = .running) (hm : s.irqMasked = false) :
    deliverAll P es s = isrAll P es s := by
  induction es generalizing s with
  | nil => rfl
  | cons e es ih =>
    have e1 : deliver P e s = isr P e s := by simp [deliver, h, hm]
    show deliverAll P es (deliver P e s) = _
    rw [e1, isrAll_cons]
    exact ih _ (by rw [(isr_isrOnly P e s).run, h]) (by rw [(isr_keeps_mask P e s).1, hm])

/-- The boot loader answers nothing (R285). -/
theorem deliverAll_bootloader (P : Params) (es : List BusEvent) (s : State) (h : s.run = .bootloader) :
    deliverAll P es s = s := by
  induction es generalizing s with
  | nil => rfl
  | cons e es ih =>
    have e1 : deliver P e s = s := by simp [deliver, h]
    show deliverAll P es (deliver P e s) = _
    rw [e1]
    exact ih s h

end Sys2Proof.Machine
end

