-- ==== Sys2Proof/Laws/Engine.lean ====
section
/-! SUPPORT. The engine's shared operations when no bus event lands inside them (41_engine.md), and the bounds of its
arithmetic. -/

namespace Sys2Proof.Machine

open Sys2Proof.Safety

/-- A 16-bit field is below 65536 (R70). -/
theorem memRead_two_lt (P : Params) (a : Byte) (s : State) : memRead P a 2 s < 65536 := by
  have h1 : (regRead P a s).toNat < 256 := (regRead P a s).isLt
  have h2 : (regRead P (a + 1) s).toNat < 256 := (regRead P _ s).isLt
  simp only [memRead]
  omega

/-- A computed duty is a fraction in 0 to 1 (R13, R167). -/
theorem calcDuty_unit (P : Params) (h : P.WellFormed) (e mode : Byte) : 0 ≤ calcDuty P e mode ∧ calcDuty P e mode ≤ 1 := by
  have h1 := h.gammaUnit e
  have h2 := h.linearUnit e
  unfold calcDuty
  simp only
  split <;> split <;> constructor <;> linarith [h1.1, h1.2, h2.1, h2.2]

/-- `UpdateDeadline` with no event in between (R168). -/
theorem updateDeadline_quiet (P : Params) (n : Chan) (L prev limit : Byte) (dl : Option Nat) (now : Nat) (s : State)
    (h : Quiet s) :
    updateDeadline P n L prev limit dl now s =
      if limit < L then
        if prev ≤ limit then
          if wip (cfgAddr n 2) 2 s then ⟨false, dl, s⟩
          else ⟨true, some (now + 1000 * memRead P (cfgAddr n 2) 2 s), s⟩
        else ⟨true, dl, s⟩
      else ⟨true, none, s⟩ := by
  unfold updateDeadline
  rw [engAtomicRead_quiet P (cfgAddr n 2) 2 h]
  split
  · split
    · by_cases hw : wip (cfgAddr n 2) 2 s = true <;> simp [hw]
    · rfl
  · rfl

/-- The phase after `CH.UPDATE n`. -/
theorem nextPhase_chPhase (n : Chan) : nextPhase (chPhase n) = chPhase n + 1 := by revert n; decide

/-! ## The register reset -/

/-- The register writes of a register reset change registers only, when no event lands. -/
theorem runScript_quiet (P : Params) (ws : List ResetWrite) (s : State) (h : Quiet s) :
    runScript P ws s = { s with regs := (runScript P ws s).regs } := by
  induction ws generalizing s with
  | nil => rfl
  | cons w ws ih =>
    show runScript P ws (resetWrite P w s) = { s with regs := (runScript P ws (resetWrite P w s)).regs }
    have e : resetWrite P w s = { s with regs := (resetWrite P w s).regs } := by
      cases w with
      | byte a v => simp only [resetWrite, engWrite_quiet _ _ _ h.2.2]; rfl
      | field a v => simp only [resetWrite, engWrite16_quiet _ _ _ h]; rfl
    have hq : Quiet (resetWrite P w s) := by rw [e]; exact h
    rw [ih _ hq]
    generalize (runScript P ws (resetWrite P w s)).regs = r
    rw [e]

/-- What one write of the script leaves at address `x`, from the byte that was there. -/
def ResetWrite.leaves (w : ResetWrite) (x old : Byte) : Byte :=
  match w with
  | .byte a v => if x = a then v else old
  | .field a v => if x = a + 1 then hiByte v else if x = a then loByte v else old

/-- The register a script leaves at address `x`, when no event lands. -/
theorem runScript_regRead (P : Params) (ws : List ResetWrite) (s : State) (h : Quiet s) (x : Byte) :
    regRead P x (runScript P ws s) = ws.foldl (fun old w => w.leaves x old) (regRead P x s) := by
  induction ws generalizing s with
  | nil => rfl
  | cons w ws ih =>
    show regRead P x (runScript P ws (resetWrite P w s)) = _
    have hq : Quiet (resetWrite P w s) := by
      have e := runScript_quiet P [w] s h
      have e' : runScript P [w] s = resetWrite P w s := rfl
      rw [e'] at e
      rw [e]
      exact h
    rw [ih _ hq, List.foldl_cons]
    congr 1
    cases w with
    | byte a v => simp only [resetWrite, engWrite_quiet _ _ _ h.2.2, ResetWrite.leaves]; simp
    | field a v => simp only [resetWrite, engWrite16_quiet _ _ _ h, ResetWrite.leaves, memWrite16]; simp

/-! ## Counts (R210) -/

/-- The count of a duty lies in 0 to the cycle length, within half a count of the exact product. -/
theorem toCount_bounds (d : Rat) (rs : Nat) (h0 : 0 ≤ d) (h1 : d ≤ 1) :
    toCount d rs ≤ rs ∧ ((toCount d rs : Nat) : Rat) ≤ d * rs + 1 / 2 ∧ d * rs - 1 / 2 < (toCount d rs : Nat) := by
  have hr : (0 : Rat) ≤ rs := by exact_mod_cast Nat.zero_le rs
  have hx : 0 ≤ d * rs := mul_nonneg h0 hr
  have h2 : 0 ≤ (d * rs + 1 / 2).floor := by rw [Rat.le_floor_iff]; push_cast; linarith
  have e : ((toCount d rs : Nat) : Rat) = ((d * rs + 1 / 2).floor : Rat) := by
    unfold toCount roundHalfUp
    have h3 : (((d * rs + 1 / 2).floor.toNat : Nat) : Int) = (d * rs + 1 / 2).floor := Int.toNat_of_nonneg h2
    exact_mod_cast congrArg (fun z : Int => (z : Rat)) h3
  have a := Rat.floor_le (d * rs + 1 / 2)
  have b := Rat.lt_floor_add_one (d * rs + 1 / 2)
  push_cast at b
  refine ⟨?_, by rw [e]; exact a, by rw [e]; linarith⟩
  have h4 : ((toCount d rs : Nat) : Rat) < rs + 1 := by rw [e]; nlinarith
  have h5 : toCount d rs < rs + 1 := by exact_mod_cast h4
  omega

/-! ## `ApplyFreq` (R204, R206) -/

/-- The counts after a class is programmed. -/
theorem programClass_count (k : ResClass) (r : DivRes) (a : Allocator) (n : Chan) :
    (programClass k r a).count[n] =
      if a.binding[n].cls = some k then
        if (a.cls k).res = some r.res then a.count[n] else toCount a.level[n] r.res
      else a.count[n] := by
  unfold programClass
  simp only
  by_cases h : (a.cls k).res = some r.res
  · rw [if_pos h]; simp [h]
  · rw [if_neg h, rescale_count]; simp [h]

/-- Programming one class keeps the setting of the other. -/
theorem programClass_cls_other (k j : ResClass) (r : DivRes) (a : Allocator) (h : j ≠ k) :
    (programClass k r a).cls j = a.cls j := by
  rw [programClass_changes]
  have := setCls_cls_other a h ⟨some r.div, some r.res⟩
  cases j <;> exact this

/-- What `ApplyFreq` changes in the allocator: settings and counts. -/
theorem applyFreqAlloc_changes (P : Params) (f : Half) (a : Allocator) :
    applyFreqAlloc P f a =
      { a with
        timer := (applyFreqAlloc P f a).timer, lane := (applyFreqAlloc P f a).lane
        count := (applyFreqAlloc P f a).count } := by
  unfold applyFreqAlloc
  rw [programClass_changes .lane, programClass_changes .timer]
  rfl

/-- Both classes get what `ComputeDivRes` answers. -/
theorem applyFreqAlloc_cls (P : Params) (f : Half) (a : Allocator) (k : ResClass) :
    (applyFreqAlloc P f a).cls k = ⟨some (computeDivRes (P.cls k) f).div, some (computeDivRes (P.cls k) f).res⟩ := by
  unfold applyFreqAlloc
  cases k with
  | lane => exact programClass_cls _ _ _
  | timer => rw [programClass_cls_other _ _ _ _ (by simp)]; exact programClass_cls _ _ _

end Sys2Proof.Machine
end

