-- ==== Sys2Proof/Laws/Driver.lean ====
section
/-! SUPPORT. What a driver call can change, said once: nothing beside it touches the driver, the link or the inputs; with
nothing beside it, it changes what the interrupt handler may change; and on a working link it is the handler run on the
events of its transactions (43_host_driver.md). -/

namespace Sys2Proof.Machine

open Sys2Proof.Safety

/-! ## The phases touch neither the driver nor the inputs -/

/-- `t` has the driver, the link, the agenda, what goes on beside a call, and the draw counter of `s`. -/
structure DriverKept (s t : State) : Prop where
  host      : t.host = s.host
  link      : t.link = s.link
  agenda    : t.agenda = s.agenda
  beside    : t.beside = s.beside
  freeCount : t.freeCount = s.freeCount

theorem DriverKept.refl (s : State) : DriverKept s s := ⟨rfl, rfl, rfl, rfl, rfl⟩

theorem DriverKept.trans {s t u : State} (h : DriverKept s t) (k : DriverKept t u) : DriverKept s u :=
  ⟨k.host.trans h.host, k.link.trans h.link, k.agenda.trans h.agenda, k.beside.trans h.beside,
    k.freeCount.trans h.freeCount⟩

theorem DriverKept.ofIsrOnly {s t : State} (h : IsrOnly s t) : DriverKept s t :=
  ⟨h.host, h.link, h.agenda, h.beside, h.freeCount⟩

theorem endPhase_driverKept (P : Params) (p : Phase) (s : State) : DriverKept s (endPhase P p s) :=
  DriverKept.trans (t := { s with phase := p }) ⟨rfl, rfl, rfl, rfl, rfl⟩ (.ofIsrOnly (endPhase_changes P p s))

theorem restart_driverKept (P : Params) (k : RestartKind) (s : State) : DriverKept s (restart P k s) := by
  cases k <;> exact ⟨rfl, rfl, rfl, rfl, rfl⟩

theorem runScript_driverKept (P : Params) (ws : List ResetWrite) (s : State) : DriverKept s (runScript P ws s) := by
  induction ws generalizing s with
  | nil => exact .refl s
  | cons w ws ih =>
    refine DriverKept.trans (t := resetWrite P w s) ?_ (ih _)
    cases w with
    | byte a v => exact .ofIsrOnly (engWrite_isrOnly P a v s)
    | field a v => exact .ofIsrOnly (engWrite16_isrOnly P a v s)

theorem clearRequest_driverKept (P : Params) (s : State) : DriverKept s (clearRequest P s) := by
  have h : DriverKept (window P s) (clearRequest P s) :=
    DriverKept.trans (t := regWrite P ctrl0Addr
      (regRead P ctrl0Addr (enterSection (window P s)) &&& 0x7F) (enterSection (window P s))) ⟨rfl, rfl, rfl, rfl, rfl⟩
      (.ofIsrOnly (leaveSection_isrOnly P _))
  exact (DriverKept.ofIsrOnly (window_isrOnly P s)).trans h

theorem wdtFeed_driverKept (P : Params) (s : State) : DriverKept s (wdtFeed P s) :=
  DriverKept.trans (t := { s with wdtLastFeed := s.now }) ⟨rfl, rfl, rfl, rfl, rfl⟩ (endPhase_driverKept P 1 _)

theorem hsEval_driverKept (P : Params) (s : State) : DriverKept s (hsEval P s) := by
  have hw := DriverKept.ofIsrOnly (window_isrOnly P s)
  unfold hsEval
  simp only
  split
  · exact hw.trans (restart_driverKept P _ _)
  · exact hw.trans (endPhase_driverKept P _ _)

theorem regReset_driverKept (P : Params) (s : State) : DriverKept s (regReset P s) := by
  have hr := DriverKept.ofIsrOnly (engRead_isrOnly P ctrl0Addr s)
  unfold regReset
  simp only
  split
  · have h1 := runScript_driverKept P (resetScript P) (engRead P ctrl0Addr s).2
    have h2 : DriverKept (runScript P (resetScript P) (engRead P ctrl0Addr s).2)
      (initRuntime (runScript P (resetScript P) (engRead P ctrl0Addr s).2)) := ⟨rfl, rfl, rfl, rfl, rfl⟩
    exact (((hr.trans h1).trans h2).trans (clearRequest_driverKept P _)).trans (endPhase_driverKept P 3 _)
  · exact hr.trans (endPhase_driverKept P 3 _)

theorem updateDeadline_isrOnly (P : Params) (n : Chan) (L prev limit : Byte) (dl : Option Nat) (now : Nat) (s : State) :
    IsrOnly s (updateDeadline P n L prev limit dl now s).state := by
  have h := engAtomicRead_isrOnly P (cfgAddr n 2) 2 s
  unfold updateDeadline
  split
  · split
    · split
      · next heq => rw [heq] at h; exact h
      · next heq => rw [heq] at h; exact h
    · rfl
  · rfl

theorem chUpdatePush_driverKept (P : Params) (n : Chan) (t : Nat) (L limit : Byte) (s : State) :
    DriverKept s (chUpdatePush P n t L limit s) := by
  have hr := DriverKept.ofIsrOnly (engRead_isrOnly P (cfgAddr n 0) s)
  unfold chUpdatePush
  simp only
  split
  · exact hr.trans (endPhase_driverKept P _ _)
  · refine DriverKept.trans ?_ (endPhase_driverKept P _ _)
    exact ⟨hr.host, hr.link, hr.agenda, hr.beside, hr.freeCount⟩

theorem chUpdateSeen_driverKept (P : Params) (n : Chan) (t : Nat) (L : Byte) (s : State) :
    DriverKept s (chUpdateSeen P n t L s) := by
  have hr := DriverKept.ofIsrOnly (engRead_isrOnly P (cfgAddr n 1) s)
  unfold chUpdateSeen
  simp only
  split
  · exact hr.trans (chUpdatePush_driverKept P n t L _ _)
  · have hu := DriverKept.ofIsrOnly (updateDeadline_isrOnly P n L (engRead P (cfgAddr n 1) s).2.lastLevel[n]
      (engRead P (cfgAddr n 1) s).1 (engRead P (cfgAddr n 1) s).2.deadline[n] t (engRead P (cfgAddr n 1) s).2)
    split
    · have hk := hr.trans hu
      refine DriverKept.trans ?_ (chUpdatePush_driverKept P n t L _ _)
      exact ⟨hk.host, hk.link, hk.agenda, hk.beside, hk.freeCount⟩
    · exact (hr.trans hu).trans (endPhase_driverKept P _ _)

theorem chUpdate_driverKept (P : Params) (n : Chan) (s : State) : DriverKept s (chUpdate P n s) := by
  have h := DriverKept.ofIsrOnly (engAtomicRead_isrOnly P (levelAddr n) 1 s)
  unfold chUpdate
  split
  · next heq => rw [heq] at h; exact h.trans (endPhase_driverKept P _ _)
  · next heq => rw [heq] at h; exact h.trans (chUpdateSeen_driverKept P n _ _ _)

theorem freqApply_driverKept (P : Params) (s : State) : DriverKept s (freqApply P s) := by
  have h := DriverKept.ofIsrOnly (engAtomicRead_isrOnly P freqAddr 2 s)
  unfold freqApply
  split
  · next heq => rw [heq] at h; exact h.trans (endPhase_driverKept P _ _)
  · next f w heq =>
    rw [heq] at h
    split
    · exact h.trans (endPhase_driverKept P _ _)
    · refine DriverKept.trans ?_ (endPhase_driverKept P _ _)
      exact ⟨h.host, h.link, h.agenda, h.beside, h.freeCount⟩

theorem oeApply_driverKept (P : Params) (s : State) : DriverKept s (oeApply P s) := by
  have hr := DriverKept.ofIsrOnly (engRead_isrOnly P ctrl0Addr s)
  unfold oeApply
  simp only
  split
  · exact hr.trans (endPhase_driverKept P _ _)
  · refine DriverKept.trans ?_ (endPhase_driverKept P _ _)
    exact ⟨hr.host, hr.link, hr.agenda, hr.beside, hr.freeCount⟩

/-- No phase touches the driver, the link or the inputs. -/
theorem runPhase_driverKept (P : Params) (s : State) : DriverKept s (runPhase P s) := by
  unfold runPhase
  split
  · exact wdtFeed_driverKept P s
  split
  · exact hsEval_driverKept P s
  split
  · exact regReset_driverKept P s
  split
  · exact chUpdate_driverKept P _ s
  split
  · exact freqApply_driverKept P s
  · exact oeApply_driverKept P s

/-- No step of another agent inside a call touches the driver, the link or the inputs. -/
theorem besideStep_driverKept (P : Params) (b : Beside) (s : State) : DriverKept s (besideStep P b s) := by
  cases b with
  | elapse us => exact ⟨rfl, rfl, rfl, rfl, rfl⟩
  | watchdog =>
    simp only [besideStep, watchdogStep]
    split
    · exact restart_driverKept P _ s
    · exact .refl s
  | engine during =>
    simp only [besideStep, enginePhase]
    split
    · exact .refl s
    · exact DriverKept.trans (t := { s with arrivals := during }) ⟨rfl, rfl, rfl, rfl, rfl⟩ (runPhase_driverKept P _)

/-! ## The driver at the end of a transaction (R244) -/

@[simp] theorem take_traffic (n : Note) (h : HostDriver) : (h.take n).traffic = h.traffic := by
  cases n with
  | sent r v => cases r <;> rfl
  | _ => rfl

@[simp] theorem take_busAddr (n : Note) (h : HostDriver) : (h.take n).busAddr = h.busAddr := by
  cases n with
  | sent r v => cases r <;> rfl
  | _ => rfl

@[simp] theorem take_reply (n : Note) (h : HostDriver) : (h.take n).reply = h.reply := by
  cases n with
  | sent r v => cases r <;> rfl
  | _ => rfl

/-- Each transaction that is over is recorded, whatever its end. -/
@[simp] theorem settle_traffic (h : HostDriver) (x : Errand × Bool) :
    (h.settle x).traffic = h.traffic ++ [⟨x.1.addr, x.1.data, x.2⟩] := by
  unfold HostDriver.settle
  simp only
  split
  · exact take_traffic _ _
  · rfl

/-- A failed transaction changes nothing but the record. -/
theorem settle_failed (h : HostDriver) (x : Errand) :
    h.settle (x, false) = { h with traffic := h.traffic ++ [⟨x.addr, x.data, false⟩] } := rfl

/-- An acknowledged transaction of a shadow register leaves it clean. -/
theorem settle_sent_shadow (h : HostDriver) (r : LogicalReg) :
    (h.settle (h.regErrand r, true)).shadow r = ⟨(h.shadow r).loc, (h.shadow r).loc⟩ := by
  cases r with
  | level c =>
    simp [HostDriver.settle, HostDriver.take, HostDriver.regErrand, HostDriver.setShadow, HostDriver.shadow]
  | ctrl0 => rfl

/-! ## The traffic of a call -/

/-- A property that other agents' steps, the call's events and the consumption of `beside` keep holds after the traffic. -/
theorem transmit_induction (P : Params) (Q : State → Prop) (hb : ∀ b u, Q u → Q (besideStep P b u))
    (hl : ∀ u, Q u → Q (takeLine P u)) (hc : ∀ u bs, Q u → Q { u with beside := bs }) (n : Nat) (s : State) (h : Q s) :
    Q (transmit P n s) := by
  have hw : ∀ u, Q u → Q (besideWindow P u) := by
    intro u hu
    unfold besideWindow
    split
    · exact hu
    · next batch rest _ =>
      have h0 := hc u rest hu
      have fold : ∀ (batch : List Beside) (v : State), Q v → Q (batch.foldl (fun s b => besideStep P b s) v) := by
        intro batch
        induction batch with
        | nil => exact fun v hv => hv
        | cons b batch ih => exact fun v hv => ih _ (hb b v hv)
      exact fold batch _ h0
  induction n generalizing s with
  | zero => exact h
  | succ n ih =>
    unfold transmit
    split
    · exact h
    · exact ih _ (hl _ (hw _ h))

/-- The traffic of a call leaves the driver, the link, the agenda and the draw counter as they are. -/
theorem transmit_keeps (P : Params) (n : Nat) (s : State) :
    (transmit P n s).host = s.host ∧ (transmit P n s).link = s.link ∧ (transmit P n s).agenda = s.agenda ∧
    (transmit P n s).freeCount = s.freeCount := by
  refine transmit_induction P
    (fun u => u.host = s.host ∧ u.link = s.link ∧ u.agenda = s.agenda ∧ u.freeCount = s.freeCount) ?_ ?_ ?_ n s
    ⟨rfl, rfl, rfl, rfl⟩
  · intro b u ⟨h1, h2, h3, h4⟩
    have k := besideStep_driverKept P b u
    exact ⟨k.host.trans h1, k.link.trans h2, k.agenda.trans h3, k.freeCount.trans h4⟩
  · intro u ⟨h1, h2, h3, h4⟩
    have k := takeLine_isrOnly P u
    exact ⟨k.host.trans h1, k.link.trans h2, k.agenda.trans h3, k.freeCount.trans h4⟩
  · exact fun u bs h => h

theorem besideWindow_alone (P : Params) {s : State} (h : s.beside = []) : besideWindow P s = s := by
  simp [besideWindow, h]

/-- With nothing beside it, the traffic changes what a bus operation may change. -/
theorem transmit_isrOnly (P : Params) (n : Nat) (s : State) (h : s.beside = []) : IsrOnly s (transmit P n s) := by
  induction n generalizing s with
  | zero => rfl
  | succ n ih =>
    unfold transmit
    split
    · rfl
    · rw [besideWindow_alone P h]
      have k := takeLine_isrOnly P s
      exact k.trans (ih _ (by rw [k.beside, h]))

/-- A call with nothing beside it changes the driver, the link, and what a bus operation may change. -/
theorem converse_isrOnly (P : Params) (errands : List Errand) (s : State) (h : s.beside = []) :
    IsrOnly { s with host := (converse P errands s).host, link := (converse P errands s).link } (converse P errands s) := by
  have k : IsrOnly (beginCall P errands s) (sendAll P errands s) := transmit_isrOnly P _ _ h
  unfold IsrOnly at *
  simp only [converse]
  rw [k]
  simp only [beginCall, h]

/-! ## A working link -/

theorem dataByte_inputs (P : Params) (b : Byte) (s : State) (l : Line) (k : List LinkOutcome) :
    dataByte P b { s with line := l, link := k } = { dataByte P b s with line := l, link := k } := by
  unfold dataByte
  dsimp only
  cases addressClass s.cursor with
  | cfg n j => fin_cases j <;> rfl
  | reset =>
    simp only [wrReset]
    by_cases h1 : b = 0x11
    · rw [if_pos h1, if_pos h1]; rfl
    · rw [if_neg h1, if_neg h1]
      by_cases h2 : b = 0x22
      · rw [if_pos h2, if_pos h2]; rfl
      · rw [if_neg h2, if_neg h2]
        by_cases h3 : b = 0x33
        · rw [if_pos h3, if_pos h3]; rfl
        · rw [if_neg h3, if_neg h3]; rfl
  | _ => rfl

/-- The handler looks neither at the traffic still to come nor at how it ends. -/
theorem isr_inputs (P : Params) (e : BusEvent) (s : State) (l : Line) (k : List LinkOutcome) :
    isr P e { s with line := l, link := k } = { isr P e s with line := l, link := k } := by
  cases e with
  | rx b =>
    by_cases h : s.bus = .data
    · rw [isr_rx_data P b s h, isr_rx_data P b { s with line := l, link := k } h, dataByte_inputs]
    · simp only [isr, h, if_false]; rfl
  | _ => rfl

theorem isrAll_inputs (P : Params) (es : List BusEvent) (s : State) (l : Line) (k : List LinkOutcome) :
    isrAll P es { s with line := l, link := k } = { isrAll P es s with line := l, link := k } := by
  induction es generalizing s with
  | nil => rfl
  | cons e es ih => rw [isrAll_cons, isrAll_cons, isr_inputs, ih]

theorem isr_line (P : Params) (e : BusEvent) (s : State) (l : Line) :
    isr P e { s with line := l } = { isr P e s with line := l } := by
  have h := isr_inputs P e s l s.link
  have k := (isr_isrOnly P e s).link
  rw [← k] at h
  rw [show ({ s with line := l } : State) = { s with line := l, link := (isr P e s).link } by rw [k], h]

theorem isrAll_line (P : Params) (es : List BusEvent) (s : State) (l : Line) :
    isrAll P es { s with line := l } = { isrAll P es s with line := l } := by
  induction es generalizing s with
  | nil => rfl
  | cons e es ih => rw [isrAll_cons, isrAll_cons, isr_line, ih]

/-- An event of a call, on a running device with interrupts on, is handled as any other. -/
theorem sendEvent_running (P : Params) (e : BusEvent) (w : List BusEvent) (q : List (List BusEvent)) (s : State)
    (hr : s.run = .running) (hm : s.irqMasked = false) :
    sendEvent P e w q s =
      { isr P e s with line := ⟨w, q, if w = [] then s.line.heard ++ [true] else s.line.heard⟩ } := by
  unfold sendEvent deliver
  rw [if_neg (by simp [hr]), if_neg (by simp [hm]), isr_line]
  simp [hr]

/-- On a running, unmasked device with nothing beside the call, the traffic is the handler run on its events. -/
theorem transmit_running (P : Params) (n : Nat) (s : State) (hr : s.run = .running) (hm : s.irqMasked = false)
    (hb : s.beside = []) (hn : s.line.wire.length + (s.line.queue.map fun es => es.length + 1).sum ≤ n) :
    transmit P n s =
      { isrAll P (s.line.wire ++ s.line.queue.flatten) s with
        line := ⟨[], [], s.line.heard ++ List.replicate ((if s.line.wire = [] then 0 else 1) + s.line.queue.length) true⟩ } := by
  induction n generalizing s with
  | zero =>
    obtain ⟨⟨w, q, hd⟩⟩ : ∃ l, s.line = l := ⟨_, rfl⟩
    rename_i hl
    rw [hl] at hn ⊢
    have hw : w = [] := List.length_eq_zero_iff.mp (by simp only at hn; omega)
    have hq : q = [] := by
      cases q with
      | nil => rfl
      | cons a q => simp at hn
    subst hw hq
    simp only [transmit, List.flatten_nil, isrAll_nil, if_true, List.length_nil, Nat.add_zero,
      List.replicate_zero, List.append_nil]
    rw [← hl]
  | succ n ih =>
    obtain ⟨⟨w, q, hd⟩, hl⟩ : ∃ l, s.line = l := ⟨_, rfl⟩
    have next : ∀ (e : BusEvent) (w' : List BusEvent) (q' : List (List BusEvent)),
        w'.length + (q'.map fun es => es.length + 1).sum ≤ n →
        transmit P n (sendEvent P e w' q' s) =
          { isrAll P (e :: (w' ++ q'.flatten)) s with
            line := ⟨[], [], hd ++ List.replicate (1 + q'.length) true⟩ } := by
      intro e w' q' hle
      rw [sendEvent_running P e w' q' s hr hm, hl]
      have k := isr_isrOnly P e s
      have k2 := isr_keeps_mask P e s
      rw [ih]
      · rw [isrAll_line, isrAll_cons]
        by_cases hw' : w' = []
        · simp [hw', List.replicate_succ, Nat.add_comm 1]
        · simp [hw']
      · exact k.run.trans hr
      · exact k2.1.trans hm
      · exact k.beside.trans hb
      · exact hle
    unfold transmit
    rw [besideWindow_alone P hb, hl]
    rw [hl] at hn
    cases w with
    | cons e w =>
      have hi : Line.isIdle ⟨e :: w, q, hd⟩ = false := rfl
      have ht : takeLine P s = sendEvent P e w q s := by simp [takeLine, hl]
      rw [hi, ht, if_neg (by simp), next e w q (by simp only [List.length_cons] at hn; omega)]
      simp
    | nil =>
      cases q with
      | nil =>
        have hi : Line.isIdle ⟨[], [], hd⟩ = true := rfl
        rw [hi, if_pos rfl]
        simp only [List.flatten_nil, isrAll_nil, if_true, List.length_nil, Nat.add_zero,
          List.replicate_zero, List.append_nil]
        rw [← hl]
      | cons es q =>
        have hi : Line.isIdle ⟨[], es :: q, hd⟩ = false := rfl
        rw [hi, if_neg (by simp)]
        cases es with
        | cons e es =>
          have ht : takeLine P s = sendEvent P e es q s := by simp [takeLine, hl]
          rw [ht, next e es q (by
            simp only [List.length_nil, List.map_cons, List.length_cons, List.sum_cons] at hn; omega)]
          simp [Nat.add_comm 1]
        | nil =>
          have ht : takeLine P s = { s with line := ⟨[], q, hd ++ [true]⟩ } := by simp [takeLine, hl]
          rw [ht, ih]
          · simp [isrAll_line, List.replicate_succ]
          · exact hr
          · exact hm
          · exact hb
          · simp only [List.length_nil, List.map_cons, List.sum_cons] at hn ⊢; omega

theorem nextEnds_acked (n : Nat) (link : List LinkOutcome) (h : ∀ o ∈ link.take n, o = .acked) :
    nextEnds n link = List.replicate n .acked := by
  induction n generalizing link with
  | zero => rfl
  | succ n ih =>
    cases link with
    | nil =>
      simp only [nextEnds, List.headD_nil, List.tail_nil, List.replicate_succ]
      rw [ih [] (by simp)]
    | cons o link =>
      simp only [nextEnds, List.headD_cons, List.tail_cons, List.replicate_succ]
      rw [h o (by simp), ih link (fun x hx => h x (by simp [hx]))]

theorem verdicts_acked (n : Nat) (heard : List Bool) (h : ∀ b ∈ heard, b = true) :
    verdicts (List.replicate n .acked) heard = List.replicate n true := by
  induction n generalizing heard with
  | zero => rfl
  | succ n ih =>
    simp only [List.replicate_succ, verdicts, beq_self_eq_true, Bool.true_and]
    rw [ih heard.tail (fun b hb => h b (List.mem_of_mem_tail hb))]
    cases heard with
    | nil => rfl
    | cons b l => simp [h b (by simp)]

/-- The ends of a call's transactions are as many as the transactions. -/
@[simp] theorem length_nextEnds (n : Nat) (link : List LinkOutcome) : (nextEnds n link).length = n := by
  induction n generalizing link with
  | zero => rfl
  | succ n ih => simp [nextEnds, ih]

@[simp] theorem length_verdicts (os : List LinkOutcome) (heard : List Bool) : (verdicts os heard).length = os.length := by
  induction os generalizing heard with
  | nil => rfl
  | cons o os ih => simp [verdicts, ih]

theorem callTraffic_acked (P : Params) (errands : List Errand) (s : State) (ha : s.host.busAddr = P.busAddr)
    (hl : ∀ o ∈ s.link.take errands.length, o = .acked) :
    callTraffic P errands s = errands.map fun x => writeEvents x.addr x.data := by
  unfold callTraffic
  rw [nextEnds_acked _ _ hl]
  have h : addressesDevice P s = true := by simp [addressesDevice, ha]
  simp only [h, if_true]
  clear hl
  induction errands with
  | nil => rfl
  | cons x errands ih => simp only [List.length_cons, List.replicate_succ, List.zipWith_cons_cons, ih, List.map_cons]; rfl

/-- A call on a working link: the handler is run on the events of all its transactions, and each is acknowledged. -/
theorem converse_working (P : Params) (errands : List Errand) (s : State) (ha : s.host.busAddr = P.busAddr)
    (hr : s.run = .running) (hm : s.irqMasked = false) (hb : s.beside = [])
    (hl : ∀ o ∈ s.link.take errands.length, o = .acked) :
    converse P errands s =
      { isrAll P (errands.flatMap fun x => writeEvents x.addr x.data) s with
        line := .idle, link := s.link.drop errands.length
        host := (errands.zip (List.replicate errands.length true)).foldl HostDriver.settle s.host } := by
  have ht : sendAll P errands s =
      { isrAll P (errands.flatMap fun x => writeEvents x.addr x.data) s with
        line := ⟨[], [], List.replicate errands.length true⟩, link := s.link.drop errands.length } := by
    have e := transmit_running P _ (beginCall P errands s) hr hm hb le_rfl
    simp only [beginCall_line, List.length_nil, Nat.zero_add, List.nil_append, if_true] at e
    unfold sendAll
    rw [e, callTraffic_acked P errands s ha hl]
    simp only [beginCall, isrAll_inputs, List.length_map, List.flatMap_def]
  have hv : verdicts (nextEnds errands.length s.link) (sendAll P errands s).line.heard =
      List.replicate errands.length true := by
    rw [nextEnds_acked _ _ hl, ht]
    exact verdicts_acked _ _ (by intro b hb; exact (List.mem_replicate.mp hb).2)
  have k := isrAll_isrOnly P (errands.flatMap fun x => writeEvents x.addr x.data) s
  simp only [converse, hv]
  rw [ht]
  simp only [k.beside, hb]

end Sys2Proof.Machine
end

