-- ==== Sys2Proof/Machine/Generic.lean ====
section
/-! DEFINITION. The machine for every set of parameters (00_scope.md R9: "A model takes each as an argument"). `exec` and
`step`, whose types the host fixes, are this machine at `Config.device` (Laws/Generic.lean proves it). -/

namespace Sys2Proof.Machine

/-- The meaning of the operations on a device with parameters `P`. -/
def execFor (P : Params) (i : Instr) (s : State) : Host.Outcome State Fault Refusal :=
  match i with
  | .startW => .next (startW s)
  | .fin => .next (fin s)
  | .setaddr b => .next (setaddr P b s)
  | .wrLevel n b => .next (wrLevel P n b s)
  | .wrCtrl0 b => .next (wrCtrl0 P b s)
  | .wrCtrl1 b => .next (wrCtrl1 P b s)
  | .wrFreqLo b => .next (wrFreqLo P b s)
  | .wrFreqHi b => .next (wrFreqHi P b s)
  | .wrUndoc a b => if unlistedAddress a then .next (wrUndoc P a b s) else .refused .illFormed
  | .wrIdVersion _ => .next (wrIdVersion P s)
  | .wrIdWhoami _ => .next (wrIdWhoami P s)
  | .wrCfgMode n b => .next (wrCfgMode P n b s)
  | .wrCfgLimit n b => .next (wrCfgLimit P n b s)
  | .wrCfgTlo n b => .next (wrCfgTlo P n b s)
  | .wrCfgThi n b => .next (wrCfgThi P n b s)
  | .hsArm => .next (hsArm P s)
  | .hsReset => .next (hsReset P s)
  | .hsBootsel => .next (hsBootsel P s)
  | .hsOther b => if handshakeCode b then .refused .illFormed else .next (hsOther P s)
  | .rd c => .next (rd P c s)
  | .wdtFeed => .next (wdtFeed P s)
  | .hsEval => .next (hsEval P s)
  | .regReset => .next (regReset P s)
  | .chUpdate n => .next (chUpdate P n s)
  | .freqApply => .next (freqApply P s)
  | .oeApply => .next (oeApply P s)
  | .assignChannel n =>
    withChan n fun c =>
      let r := assignChannel P c s.alloc
      { s with alloc := r.1, log := s.log ++ r.2 }
  | .applyFreq f => if f < 65536 then .next (applyFreq P (BitVec.ofNat 16 f) s) else .refused .illFormed
  | .hostConfigurePort c gammaEnable activeLow => withChan c fun c => hostConfigurePort P c gammaEnable activeLow s
  | .hostConfigureFlipperLogic c limit timeout =>
    if limit < 256 ∧ timeout < 65536 then
      withChan c fun c => hostConfigureFlipperLogic P c (BitVec.ofNat 8 limit) (BitVec.ofNat 16 timeout) s
    else .refused .illFormed
  | .hostService => .next (service P s)
  -- no parameter stands in these
  | .setLevel n d => execSetLevel n d s
  | .getLevel n => execGetLevel n s
  | .enableOutputs e => execEnableOutputs e s
  | .isConfigured n => execIsConfigured n s
  | .hostConstruct addr => execHostConstruct addr s
  | .hostInit => execHostInit s
  | .hostSet c v => execHostSet c v s
  | .hostGet c => execHostGet c s
  | .hostEnableOutputs enable => execHostEnableOutputs enable s
  | .hostReboot toBootloader => execHostReboot toBootloader s

/-- One step of the machine with parameters `P`. -/
def stepFor (P : Params) (s : State) : Host.Outcome State Fault Refusal := stepWith P (execFor P) s

end Sys2Proof.Machine
end

