-- ==== Sys2Proof/Laws/Generic.lean ====
section
/-! SUPPORT. The machine of the host's interface is the machine for any parameters, taken at the device's (00_scope.md R9);
and a phase inside a driver call is the operation that its key decodes to. -/

namespace Sys2Proof.Machine

/-- `exec` is the meaning of the operations at the device's parameters. -/
theorem exec_eq_execFor (i : Instr) (s : State) : exec i s = execFor Config.device i s := by
  cases i <;> rfl

/-- `step` is the step at the device's parameters. -/
theorem step_eq_stepFor : step = stepFor Config.device := by
  have h : exec = execFor Config.device := funext fun i => funext fun s => exec_eq_execFor i s
  unfold stepFor
  rw [← h]
  rfl

/-- The phase that the engine is at, run inside a driver call, is the operation that its key decodes to, for every device. -/
theorem execFor_phase (P : Params) (i : Instr) (s : State) (h : decode (phaseKey s) = .ok i) :
    execFor P i s = .next (runPhase P s) := by
  have hk : ∀ p : Phase, s.phase = p → decode ⟨.M, p.val, []⟩ = .ok i := by rintro p rfl; exact h
  unfold runPhase
  generalize s.phase = p at hk
  have hk := hk p rfl
  clear h
  fin_cases p <;> (cases hk; rfl)

end Sys2Proof.Machine
end

