-- ==== Sys2Proof/Laws/Invariant.lean ====
section
/-! SUPPORT. The parts of the machine's invariant (Safety.lean) that hold inside a phase too, and that the shared
operations keep them. -/

namespace Sys2Proof.Safety

open Sys2Proof.Machine

/-- The part of the invariant about registers and timestamps. -/
structure RegInv (s : State) : Prop where
  canonical : RegsCanonical s
  identity  : IdentityKept s
  clock     : ClockSane s

/-- The part of the invariant about the allocator and the duties. -/
structure AllocInv (s : State) : Prop where
  mapping  : MappingFixed s
  levels   : LevelsInUnit s
  inert    : InertQuiet s
  counts   : CountsFollowLevels s
  settings : SettingsInBounds s
  hiz      : BootloaderHiz s

/-- What holds in the middle of a phase: everything but that nothing is still to land. -/
structure PhaseInv (s : State) : Prop where
  reg   : RegInv s
  alloc : AllocInv s
  mask  : s.irqMasked = false ∧ s.held = []

theorem PhaseInv.ofInv {s : State} (h : Inv s) : PhaseInv s :=
  ⟨⟨h.regsCanonical, h.identityKept, h.clockSane⟩,
    ⟨h.mappingFixed, h.levelsInUnit, h.inertQuiet, h.countsFollowLevels, h.settingsInBounds, h.bootloaderHiz⟩,
    ⟨h.unmasked.1, h.unmasked.2.1⟩⟩

theorem PhaseInv.toInv {s : State} (h : PhaseInv s) (ha : s.arrivals = []) : Inv s :=
  ⟨h.reg.canonical, h.reg.identity, ⟨h.mask.1, h.mask.2, ha⟩, h.alloc.mapping, h.alloc.levels, h.alloc.inert,
    h.alloc.counts, h.alloc.settings, h.reg.clock, h.alloc.hiz⟩

/-! ## Changes of other fields -/

theorem AllocInv.congr {s t : State} (h : AllocInv s) (ha : t.alloc = s.alloc) (hd : t.duty = s.duty)
    (hr : t.run = s.run) : AllocInv t := by
  obtain ⟨a, b, c, d, e, f⟩ := h
  constructor
  · unfold MappingFixed at *; rw [ha]; exact a
  · unfold LevelsInUnit at *; rw [ha, hd]; exact b
  · unfold InertQuiet at *; rw [ha]; exact c
  · unfold CountsFollowLevels at *; rw [ha]; exact d
  · unfold SettingsInBounds at *; rw [ha]; exact e
  · unfold BootloaderHiz at *; rw [ha, hr]; exact f

theorem AllocInv.ofIsrOnly {s t : State} (h : AllocInv s) (k : IsrOnly s t) : AllocInv t :=
  h.congr k.alloc k.duty k.run

theorem RegInv.congr {s t : State} (h : RegInv s) (hr : t.regs = s.regs) (hh : t.hs = s.hs) (hn : s.now ≤ t.now)
    (hw : t.wdtLastFeed ≤ t.now) : RegInv t := by
  obtain ⟨a, b, c⟩ := h
  constructor
  · unfold RegsCanonical at *; rw [hr]; exact a
  · unfold IdentityKept at *
    rw [regRead_congr _ _ hr, regRead_congr _ _ hr, regRead_congr _ _ hr]
    exact b
  · refine ⟨hw, ?_, ?_⟩
    · intro u hu; rw [hh] at hu; exact le_trans (c.2.1 u hu) hn
    · intro k u hu; rw [hh] at hu; exact le_trans (c.2.2 k u hu) hn

theorem PhaseInv.congr {s t : State} (h : PhaseInv s) (h1 : t.regs = s.regs) (h2 : t.hs = s.hs) (h3 : t.now = s.now)
    (h4 : t.wdtLastFeed = s.wdtLastFeed) (h5 : t.irqMasked = s.irqMasked) (h6 : t.held = s.held) (ha : AllocInv t) :
    PhaseInv t :=
  ⟨h.reg.congr h1 h2 (le_of_eq h3.symm) (by rw [h3, h4]; exact h.reg.clock.1), ha, h5.trans h.mask.1, h6.trans h.mask.2⟩

/-! ## Register writes and bus events -/

/-- A write that spares the identification registers, and leaves 0 at the handshake register. -/
theorem RegInv.write {s : State} (h : RegInv s) (a v : Byte) (h1 : a ≠ 0x1E) (h2 : a ≠ 0x1F) (h3 : a = 0xDD → v = 0) :
    RegInv (regWrite Config.device a v s) := by
  obtain ⟨x, y, z⟩ := h
  refine ⟨regWrite_wf _ _ _ (byte_lt_regfileSize a) x, ?_, z⟩
  unfold IdentityKept at *
  simp only [regRead_regWrite]
  rw [if_neg (fun e => h1 e.symm), if_neg (fun e => h2 e.symm)]
  refine ⟨y.1, y.2.1, ?_⟩
  split
  · next e => exact h3 e.symm
  · exact y.2.2

theorem RegInv.handshake {s : State} (h : RegInv s) (hs : Handshake) (ha : ∀ t, hs = .armed t → t ≤ s.now)
    (hc : ∀ k t, hs = .confirmed k t → t ≤ s.now) : RegInv (handshakeAdvance Config.device hs s) :=
  ⟨h.canonical, h.identity, ⟨h.clock.1, ha, hc⟩⟩

theorem RegInv.confirm {s : State} (h : RegInv s) (k : ResetKind) :
    RegInv (handshakeAdvance Config.device (confirmHs Config.device k s.now s.hs) s) := by
  apply h.handshake
  · intro t
    cases s.hs <;> simp only [confirmHs] <;> (try split) <;> intro e <;> cases e
  · intro k' t
    cases s.hs <;> simp only [confirmHs] <;> (try split) <;> intro e <;> cases e
    exact le_rfl

theorem RegInv.store {s : State} (h : RegInv s) (a b : Byte) (ha : a ≠ 0x1E ∧ a ≠ 0x1F ∧ a ≠ 0xDD) :
    RegInv (storeAdvance Config.device a b s) :=
  (h.write a b ha.1 ha.2.1 fun e => absurd e ha.2.2).congr rfl rfl le_rfl h.clock.1

theorem levelAddr_plain (n : Chan) : levelAddr n ≠ 0x1E ∧ levelAddr n ≠ 0x1F ∧ levelAddr n ≠ 0xDD := by revert n; decide

theorem cfgAddr_plain (n : Chan) (j : Fin 4) : cfgAddr n j ≠ 0x1E ∧ cfgAddr n j ≠ 0x1F ∧ cfgAddr n j ≠ 0xDD := by
  revert n j; decide +kernel

theorem undoc_plain (c : Byte) (h : addressClass c = .undoc) : c ≠ 0x1E ∧ c ≠ 0x1F ∧ c ≠ 0xDD := by
  revert h; revert c; decide +kernel

/-- Every bus event keeps the registers' part. -/
theorem RegInv.isr (e : BusEvent) {s : State} (h : RegInv s) : RegInv (isr Config.device e s) := by
  cases e with
  | startW => exact h.congr rfl rfl le_rfl h.clock.1
  | fin => exact h.congr rfl rfl le_rfl h.clock.1
  | rq => exact h.congr rfl rfl le_rfl h.clock.1
  | rx b =>
    simp only [Machine.isr]
    split
    · unfold dataByte
      split
      · next n _ => exact h.store _ _ (levelAddr_plain n)
      · exact h.store _ _ (by decide)
      · exact h.store _ _ (by decide)
      · exact h.store _ _ (by decide)
      · exact h.store _ _ (by decide)
      · next hu => exact h.store _ _ (undoc_plain _ hu)
      · exact h.congr rfl rfl le_rfl h.clock.1
      · exact h.congr rfl rfl le_rfl h.clock.1
      · next n _ => exact h.store _ _ (cfgAddr_plain n 0)
      · next n _ => exact h.store _ _ (cfgAddr_plain n 1)
      · next n _ => exact h.store _ _ (cfgAddr_plain n 2)
      · next n _ => exact h.store _ _ (cfgAddr_plain n 3)
      · unfold wrReset
        split
        · apply h.handshake
          · intro t
            cases s.hs <;> simp only [armHs] <;> intro e <;> cases e
            exact le_rfl
          · intro k t
            cases s.hs <;> simp only [armHs] <;> intro e <;> cases e
        · split
          · exact h.confirm _
          · split
            · exact h.confirm _
            · exact h.handshake _ (fun t e => by cases e) (fun k t e => by cases e)
    · exact h.congr rfl rfl le_rfl h.clock.1

theorem RegInv.isrAll (es : List BusEvent) {s : State} (h : RegInv s) : RegInv (isrAll Config.device es s) := by
  induction es generalizing s with
  | nil => exact h
  | cons e es ih => exact ih (h.isr e)

theorem PhaseInv.deliver (e : BusEvent) {s : State} (h : PhaseInv s) :
    PhaseInv (deliver Config.device e s) ∧ (deliver Config.device e s).arrivals = s.arrivals := by
  unfold Machine.deliver
  split
  · exact ⟨h, rfl⟩
  · rw [if_neg (by simp [h.mask.1])]
    obtain ⟨a, b, c, _⟩ := isr_keeps_mask Config.device e s
    exact ⟨⟨h.reg.isr e, h.alloc.ofIsrOnly (isr_isrOnly _ _ _), a.trans h.mask.1, b.trans h.mask.2⟩, c⟩

/-- The next event of a driver call keeps what holds inside a phase. -/
theorem PhaseInv.takeLine {s : State} (h : PhaseInv s) :
    PhaseInv (takeLine Config.device s) ∧ (takeLine Config.device s).arrivals = s.arrivals := by
  have line : ∀ l, PhaseInv { s with line := l } := fun l =>
    h.congr rfl rfl rfl rfl rfl rfl (h.alloc.congr rfl rfl rfl)
  unfold Machine.takeLine
  split
  · exact (line _).deliver _
  · exact ⟨h, rfl⟩
  · exact ⟨line _, rfl⟩
  · exact (line _).deliver _

theorem PhaseInv.land (l : Landing) {s : State} (h : PhaseInv s) :
    PhaseInv (land Config.device l s) ∧ (land Config.device l s).arrivals = s.arrivals := by
  cases l with
  | event e => exact h.deliver e
  | line => exact h.takeLine

theorem PhaseInv.deliverAll (es : List BusEvent) {s : State} (h : PhaseInv s) :
    PhaseInv (deliverAll Config.device es s) ∧ (deliverAll Config.device es s).arrivals = s.arrivals := by
  induction es generalizing s with
  | nil => exact ⟨h, rfl⟩
  | cons e es ih =>
    have h1 := h.deliver e
    have h2 := ih h1.1
    exact ⟨h2.1, h2.2.trans h1.2⟩

/-! ## Windows, sections and the end of a phase -/

theorem PhaseInv.arrivals {s : State} (h : PhaseInv s) (l : List (List Arrival)) : PhaseInv { s with arrivals := l } :=
  ⟨h.reg.congr rfl rfl le_rfl h.reg.clock.1, h.alloc.congr rfl rfl rfl, h.mask⟩

theorem PhaseInv.arriveAll (batch : List Arrival) {s : State} (h : PhaseInv s) :
    PhaseInv (arriveAll Config.device batch s) ∧ (arriveAll Config.device batch s).arrivals = s.arrivals := by
  induction batch generalizing s with
  | nil => exact ⟨h, rfl⟩
  | cons a batch ih =>
    have h1 : PhaseInv { s with now := s.now + a.elapse } :=
      ⟨h.reg.congr rfl rfl (Nat.le_add_right _ _) (le_trans h.reg.clock.1 (Nat.le_add_right _ _)),
        h.alloc.congr rfl rfl rfl, h.mask⟩
    have h2 := h1.land a.lands
    have h3 := ih h2.1
    exact ⟨h3.1, h3.2.trans h2.2⟩

theorem PhaseInv.window {s : State} (h : PhaseInv s) : PhaseInv (window Config.device s) := by
  unfold Machine.window
  split
  · exact h
  · exact ((h.arrivals _).arriveAll _).1

/-- The end of a phase re-establishes the invariant. -/
theorem PhaseInv.endPhase (p : Phase) {s : State} (h : PhaseInv s) : Inv (endPhase Config.device p s) := by
  have h1 := (h.arrivals []).arriveAll s.arrivals.flatten
  have h2 : PhaseInv (Machine.endPhase Config.device p s) :=
    h1.1.congr rfl rfl rfl rfl rfl rfl (h1.1.alloc.congr rfl rfl rfl)
  exact h2.toInv h1.2

/-- The end of an interrupt-disabled section, whatever was held. -/
theorem leaveSection_phaseInv {s : State} (hr : RegInv s) (ha : AllocInv s) : PhaseInv (leaveSection Config.device s) := by
  unfold leaveSection
  have hm : ∀ (es : List BusEvent) (u : State),
      (isrAll Config.device es u).irqMasked = u.irqMasked ∧ (isrAll Config.device es u).held = u.held := by
    intro es
    induction es with
    | nil => exact fun u => ⟨rfl, rfl⟩
    | cons e es ih =>
      intro u
      obtain ⟨a, b, _⟩ := isr_keeps_mask Config.device e u
      exact ⟨(ih _).1.trans a, (ih _).2.trans b⟩
  have h := hm s.held { s with irqMasked := false, held := [] }
  exact ⟨RegInv.isrAll _ (hr.congr rfl rfl le_rfl hr.clock.1),
    AllocInv.ofIsrOnly (ha.congr (t := { s with irqMasked := false, held := [] }) rfl rfl rfl) (isrAll_isrOnly _ _ _),
    h.1, h.2⟩

theorem PhaseInv.engAtomicRead (a : Byte) (w : Nat) {s : State} (h : PhaseInv s) :
    PhaseInv (engAtomicRead Config.device a w s).2 :=
  leaveSection_phaseInv (s := enterSection (Machine.window Config.device s))
    (h.window.reg.congr rfl rfl le_rfl h.window.reg.clock.1) (h.window.alloc.congr rfl rfl rfl)

/-! ## Allocator functions -/

/-- `SetLevel` of a duty keeps the allocator's part. -/
theorem AllocInv.setLevel (n : Chan) (d : Rat) (hd : 0 ≤ d ∧ d ≤ 1) {s : State} (h : AllocInv s) :
    AllocInv { s with alloc := setLevel n d s.alloc } := by
  have e := setLevel_changes n d s.alloc
  have hb : (Machine.setLevel n d s.alloc).binding = s.alloc.binding := by rw [e]
  have hcls : ∀ k, (Machine.setLevel n d s.alloc).cls k = s.alloc.cls k := by intro k; rw [e]; cases k <;> rfl
  constructor
  · unfold MappingFixed; rw [e]; exact h.mapping
  · intro m
    refine ⟨?_, (h.levels m).2⟩
    show 0 ≤ (Machine.setLevel n d s.alloc).level[m] ∧ (Machine.setLevel n d s.alloc).level[m] ≤ 1
    by_cases hm : m = n
    · subst hm
      by_cases hi : s.alloc.binding[m].cls = none
      · rw [setLevel_inert m d s.alloc hi]; exact (h.levels m).1
      · rw [setLevel_level m d s.alloc hi]; exact hd
    · rw [(setLevel_other n m hm d s.alloc).1]; exact (h.levels m).1
  · intro m hi
    have hi' : s.alloc.binding[m].cls = none := by
      have : (Machine.setLevel n d s.alloc).binding[m].cls = none := hi
      simpa only [hb] using this
    show (Machine.setLevel n d s.alloc).level[m] = 0 ∧ (Machine.setLevel n d s.alloc).count[m] = 0
    by_cases hm : m = n
    · subst hm
      rw [setLevel_inert m d s.alloc hi']; exact h.inert m hi'
    · rw [(setLevel_other n m hm d s.alloc).1, (setLevel_other n m hm d s.alloc).2]; exact h.inert m hi'
  · intro m k rs hk hrs
    have hk' : s.alloc.binding[m].cls = some k := by
      have : (Machine.setLevel n d s.alloc).binding[m].cls = some k := hk
      simpa only [hb] using this
    have hrs' : (s.alloc.cls k).res = some rs := by
      have : ((Machine.setLevel n d s.alloc).cls k).res = some rs := hrs
      rwa [hcls] at this
    show (Machine.setLevel n d s.alloc).count[m] = toCount (Machine.setLevel n d s.alloc).level[m] rs
    by_cases hm : m = n
    · subst hm
      by_cases hs : d = s.alloc.level[m]
      · subst hs; rw [setLevel_same]; exact h.counts m k rs hk' hrs'
      · have : Machine.setLevel m d s.alloc = writeLevel k m d s.alloc := by
          unfold Machine.setLevel
          split
          · next h' => rw [hk'] at h'; cases h'
          · next k' h' => rw [hk'] at h'; cases h'; rw [if_neg hs]
        rw [this]; simp [writeLevel, hrs']
    · rw [(setLevel_other n m hm d s.alloc).1, (setLevel_other n m hm d s.alloc).2]; exact h.counts m k rs hk' hrs'
  · intro k
    show (∀ rs, ((Machine.setLevel n d s.alloc).cls k).res = some rs → _) ∧
      (∀ dv, ((Machine.setLevel n d s.alloc).cls k).div = some dv → _)
    rw [hcls]; exact h.settings k
  · intro hb
    show (Machine.setLevel n d s.alloc).outEnabled = false
    rw [e]; exact h.hiz hb

/-- `EnableOutputs` of a running device keeps the allocator's part. -/
theorem AllocInv.enableOutputs (e : Bool) {s : State} (h : AllocInv s) (hr : s.run = .running) :
    AllocInv { s with alloc := enableOutputs e s.alloc } := by
  refine ⟨h.mapping, h.levels, h.inert, h.counts, ?_, ?_⟩
  · intro k; have := h.settings k; cases k <;> exact this
  · intro hb
    have : s.run = .bootloader := hb
    rw [hr] at this; cases this

/-! ## Restart -/

/-- Any state with boot values everywhere has the invariant. -/
theorem hardwareReset_inv (s : State) : Inv (hardwareReset Config.device s) := by
  obtain ⟨b1, b2, b3, b4⟩ := bootAllocator_keeps Config.device
  have ha := hardwareReset_alloc Config.device s
  constructor
  · exact Memory.nil_wf _
  · refine ⟨?_, ?_, ?_⟩ <;> simp only [regRead, hardwareReset, Memory.read] <;> rfl
  · exact ⟨rfl, rfl, rfl⟩
  · unfold MappingFixed; rw [ha]; exact ⟨rfl, rfl, rfl⟩
  · intro n
    rw [ha, (b4 n).1]
    refine ⟨by norm_num, ?_⟩
    intro d hd
    have : (Vector.replicate 24 (none : Option Rat))[n] = some d := hd
    simp at this
  · intro n _; rw [ha]; exact b4 n
  · intro n k rs hk hrs
    rw [ha] at hrs
    cases k <;> simp [Allocator.cls, b1, b2] at hrs
  · intro k; rw [ha]; cases k <;> simp [Allocator.cls, b1, b2]
  · refine ⟨le_rfl, ?_, ?_⟩
    · intro t h; cases h
    · intro k t h; cases h
  · intro h; cases h

theorem PhaseInv.restart (k : RestartKind) {s : State} (h : PhaseInv s) : Inv (restart Config.device k s) := by
  cases k with
  | cpu => exact hardwareReset_inv _
  | wdt => exact hardwareReset_inv _
  | bootsel =>
    refine ⟨h.reg.canonical, h.reg.identity, ⟨h.mask.1, rfl, rfl⟩, h.alloc.mapping, h.alloc.levels, h.alloc.inert,
      h.alloc.counts, ?_, h.reg.clock, fun _ => rfl⟩
    intro k
    have := h.alloc.settings k
    cases k <;> exact this

end Sys2Proof.Safety
end

