-- ==== Sys2Proof/Laws/PerInstr.lean ====
section
/-! SUPPORT. The family KeyFits: the key of every well-formed operation fits the width of its format (30_encoding.md R108),
one lemma for each constructor. -/

namespace Sys2Proof

/-- A format W key fits 16 bits. -/
theorem writeKey_lt (a b : Byte) : writeKey a b < 2 ^ Format.W.keyWidth := by
  have := a.isLt
  have := b.isLt
  simp only [writeKey, Format.keyWidth]
  omega

/-- What KeyFits says of one operation. -/
def Laws.KeyFits.Statement (i : Instr) : Prop :=
  i.wellFormed = true → (encode i).key < 2 ^ (encode i).format.keyWidth

theorem Laws.KeyFits.startW : Laws.KeyFits.Statement .startW := fun _ => by simp [encode, Format.keyWidth]
theorem Laws.KeyFits.fin : Laws.KeyFits.Statement .fin := fun _ => by simp [encode, Format.keyWidth]
theorem Laws.KeyFits.setaddr (b : Byte) : Laws.KeyFits.Statement (.setaddr b) := fun _ => BitVec.isLt _
theorem Laws.KeyFits.wrLevel (n : Chan) (b : Byte) : Laws.KeyFits.Statement (.wrLevel n b) := fun _ => writeKey_lt _ _
theorem Laws.KeyFits.wrCtrl0 (b : Byte) : Laws.KeyFits.Statement (.wrCtrl0 b) := fun _ => writeKey_lt _ _
theorem Laws.KeyFits.wrCtrl1 (b : Byte) : Laws.KeyFits.Statement (.wrCtrl1 b) := fun _ => writeKey_lt _ _
theorem Laws.KeyFits.wrFreqLo (b : Byte) : Laws.KeyFits.Statement (.wrFreqLo b) := fun _ => writeKey_lt _ _
theorem Laws.KeyFits.wrFreqHi (b : Byte) : Laws.KeyFits.Statement (.wrFreqHi b) := fun _ => writeKey_lt _ _
theorem Laws.KeyFits.wrUndoc (a : Byte) (b : Byte) : Laws.KeyFits.Statement (.wrUndoc a b) := fun _ => writeKey_lt _ _
theorem Laws.KeyFits.wrIdVersion (b : Byte) : Laws.KeyFits.Statement (.wrIdVersion b) := fun _ => writeKey_lt _ _
theorem Laws.KeyFits.wrIdWhoami (b : Byte) : Laws.KeyFits.Statement (.wrIdWhoami b) := fun _ => writeKey_lt _ _
theorem Laws.KeyFits.wrCfgMode (n : Chan) (b : Byte) : Laws.KeyFits.Statement (.wrCfgMode n b) := fun _ => writeKey_lt _ _
theorem Laws.KeyFits.wrCfgLimit (n : Chan) (b : Byte) : Laws.KeyFits.Statement (.wrCfgLimit n b) := fun _ => writeKey_lt _ _
theorem Laws.KeyFits.wrCfgTlo (n : Chan) (b : Byte) : Laws.KeyFits.Statement (.wrCfgTlo n b) := fun _ => writeKey_lt _ _
theorem Laws.KeyFits.wrCfgThi (n : Chan) (b : Byte) : Laws.KeyFits.Statement (.wrCfgThi n b) := fun _ => writeKey_lt _ _
theorem Laws.KeyFits.hsArm : Laws.KeyFits.Statement .hsArm := fun _ => writeKey_lt _ _
theorem Laws.KeyFits.hsReset : Laws.KeyFits.Statement .hsReset := fun _ => writeKey_lt _ _
theorem Laws.KeyFits.hsBootsel : Laws.KeyFits.Statement .hsBootsel := fun _ => writeKey_lt _ _
theorem Laws.KeyFits.hsOther (b : Byte) : Laws.KeyFits.Statement (.hsOther b) := fun _ => writeKey_lt _ _
theorem Laws.KeyFits.rd (c : Byte) : Laws.KeyFits.Statement (.rd c) := fun _ => BitVec.isLt _
theorem Laws.KeyFits.wdtFeed : Laws.KeyFits.Statement .wdtFeed := fun _ => by simp [encode, Format.keyWidth]
theorem Laws.KeyFits.hsEval : Laws.KeyFits.Statement .hsEval := fun _ => by simp [encode, Format.keyWidth]
theorem Laws.KeyFits.regReset : Laws.KeyFits.Statement .regReset := fun _ => by simp [encode, Format.keyWidth]
theorem Laws.KeyFits.chUpdate (n : Chan) : Laws.KeyFits.Statement (.chUpdate n) := fun _ => show 3 + n.val < 32 by omega
theorem Laws.KeyFits.freqApply : Laws.KeyFits.Statement .freqApply := fun _ => by simp [encode, Format.keyWidth]
theorem Laws.KeyFits.oeApply : Laws.KeyFits.Statement .oeApply := fun _ => by simp [encode, Format.keyWidth]
theorem Laws.KeyFits.assignChannel (n : Nat) : Laws.KeyFits.Statement (.assignChannel n) := fun _ => by simp [encode, Format.keyWidth]
theorem Laws.KeyFits.applyFreq (f : Nat) : Laws.KeyFits.Statement (.applyFreq f) := fun _ => by simp [encode, Format.keyWidth]
theorem Laws.KeyFits.setLevel (n : Nat) (d : Rat) : Laws.KeyFits.Statement (.setLevel n d) := fun _ => by simp [encode, Format.keyWidth]
theorem Laws.KeyFits.getLevel (n : Nat) : Laws.KeyFits.Statement (.getLevel n) := fun _ => by simp [encode, Format.keyWidth]
theorem Laws.KeyFits.enableOutputs (e : Bool) : Laws.KeyFits.Statement (.enableOutputs e) := fun _ => by simp [encode, Format.keyWidth]
theorem Laws.KeyFits.isConfigured (n : Nat) : Laws.KeyFits.Statement (.isConfigured n) := fun _ => by simp [encode, Format.keyWidth]
theorem Laws.KeyFits.hostConstruct (addr : Nat) : Laws.KeyFits.Statement (.hostConstruct addr) := fun _ => by simp [encode, Format.keyWidth]
theorem Laws.KeyFits.hostInit : Laws.KeyFits.Statement .hostInit := fun _ => by simp [encode, Format.keyWidth]
theorem Laws.KeyFits.hostSet (c : Nat) (v : Nat) : Laws.KeyFits.Statement (.hostSet c v) := fun _ => by simp [encode, Format.keyWidth]
theorem Laws.KeyFits.hostGet (c : Nat) : Laws.KeyFits.Statement (.hostGet c) := fun _ => by simp [encode, Format.keyWidth]
theorem Laws.KeyFits.hostConfigurePort (c : Nat) (gammaEnable : Bool) (activeLow : Bool) : Laws.KeyFits.Statement (.hostConfigurePort c gammaEnable activeLow) := fun _ => by simp [encode, Format.keyWidth]
theorem Laws.KeyFits.hostConfigureFlipperLogic (c : Nat) (limitLevel : Nat) (timeoutMs : Nat) : Laws.KeyFits.Statement (.hostConfigureFlipperLogic c limitLevel timeoutMs) := fun _ => by simp [encode, Format.keyWidth]
theorem Laws.KeyFits.hostEnableOutputs (enable : Bool) : Laws.KeyFits.Statement (.hostEnableOutputs enable) := fun _ => by simp [encode, Format.keyWidth]
theorem Laws.KeyFits.hostReboot (toBootloader : Bool) : Laws.KeyFits.Statement (.hostReboot toBootloader) := fun _ => by simp [encode, Format.keyWidth]
theorem Laws.KeyFits.hostService : Laws.KeyFits.Statement .hostService := fun _ => by simp [encode, Format.keyWidth]

end Sys2Proof
end

