-- ==== Sys2Proof/Tests/Slice0.lean ====
section
/-! SUPPORT. The model's own tests: ill-formed terms refused, keys written out from 30_encoding.md decoded, and single
operations on small states, with expected results from 95_test_vectors.md (the vector's name stands in each comment). The
last part holds the witnesses: for each statement with hypotheses (Certificates/Slice0/Obligations.lean), states and
operands that meet all of them together, at the boundary values of its clauses. -/

namespace Sys2Proof.Tests

set_option Elab.async false

open Sys2Proof.Machine

/-! ## Parameters and states of 95_test_vectors.md section 0 -/

/-- The parameter values of section 0; the symbolic ones at values of this file's own. -/
def params : Params where
  regfileSize := 256
  versionCode := 0x07
  whoamiCode := 0x24
  busAddr := 0x30
  ctrl0HwresetAtBoot := true
  armWindowUs := 5000000
  resetGraceUs := 500
  wdtTimeoutUs := 1000
  gammaTable := fun e => ((e.toNat * e.toNat : Nat) : Rat) / 65025
  linearTable := Config.linearTable
  gammaSelectInverted := false
  pinOfChannel := fun n => n.val
  timerOfPin := Config.timerOfPin
  unitAvailable := fun _ => true
  laneFreeAtBoot := fun _ _ => true
  timer := Config.timerParams
  lane := { Config.timerParams with cpc := 4 }

/-- State S0: after the boot sequence. -/
def s0 : State := State.powerOn params

/-- S0 with the default frequency applied, as S1 has it. -/
def s1 : State := { s0 with alloc := applyFreqAlloc params 20000 s0.alloc, appliedFreq := some 20000 }

/-- A state whose allocator is not looked at. -/
def bare : State := { s0 with alloc := emptyAllocator params, log := [] }

/-- The state of an outcome, if it is a next state. -/
def nextOf : Host.Outcome State Fault Refusal → Option State
  | .next s => some s
  | .fault _ => none
  | .refused _ => none

/-- The refusal of an outcome, if it is one. -/
def refusalOf : Host.Outcome State Fault Refusal → Option Refusal
  | .next _ => none
  | .fault _ => none
  | .refused r => some r

/-! ## Ill-formed terms are refused by the checks -/

theorem test_illformed_wrUndoc : (Instr.wrUndoc 0x1E 0).wellFormed = false := by decide
theorem test_illformed_wrUndoc_reset : (Instr.wrUndoc 0xDD 0).wellFormed = false := by decide
theorem test_illformed_hsOther : (Instr.hsOther 0x22).wellFormed = false := by decide
theorem test_illformed_assignChannel : (Instr.assignChannel 24).wellFormed = false := by decide
theorem test_illformed_applyFreq : (Instr.applyFreq 65536).wellFormed = false := by decide
theorem test_illformed_setLevel_channel : (Instr.setLevel 24 0).wellFormed = false := by decide +kernel
theorem test_illformed_setLevel_negative : (Instr.setLevel 0 (-1 / 2)).wellFormed = false := by decide +kernel
theorem test_illformed_setLevel_above : (Instr.setLevel 0 (3 / 2)).wellFormed = false := by decide +kernel
theorem test_illformed_getLevel : (Instr.getLevel 24).wellFormed = false := by decide
theorem test_illformed_isConfigured : (Instr.isConfigured 24).wellFormed = false := by decide
theorem test_illformed_hostConstruct : (Instr.hostConstruct 128).wellFormed = false := by decide
theorem test_illformed_hostSet_channel : (Instr.hostSet 24 0).wellFormed = false := by decide
theorem test_illformed_hostSet_level : (Instr.hostSet 0 256).wellFormed = false := by decide
theorem test_illformed_hostGet : (Instr.hostGet 24).wellFormed = false := by decide
theorem test_illformed_hostConfigurePort : (Instr.hostConfigurePort 24 true true).wellFormed = false := by decide
theorem test_illformed_flipper_channel : (Instr.hostConfigureFlipperLogic 24 0 0).wellFormed = false := by decide
theorem test_illformed_flipper_limit : (Instr.hostConfigureFlipperLogic 0 256 0).wellFormed = false := by decide
theorem test_illformed_flipper_timeout : (Instr.hostConfigureFlipperLogic 0 0 65536).wellFormed = false := by decide

/-! ## Keys written out from 30_encoding.md decode to their operations -/

/-- What a key without operands decodes to. -/
def dec (f : Format) (key : Nat) : Option Instr := (decode ⟨f, key, []⟩).toOption

theorem test_decode_startW : dec .E 0b00 = some .startW := by decide
theorem test_decode_fin : dec .E 0b11 = some .fin := by decide
theorem test_decode_payload_event : decode ⟨.E, 0b01, []⟩ = .error .payloadEvent := by rfl
theorem test_decode_setaddr : dec .A 0b00110100 = some (.setaddr 0x34) := by decide
theorem test_decode_wrLevel_low : dec .W 0b0000010111111111 = some (.wrLevel 5 0xFF) := by decide
theorem test_decode_wrLevel_high : dec .W 0b0001011100000001 = some (.wrLevel 23 0x01) := by decide
theorem test_decode_wrCtrl0 : dec .W 0b0001100010000001 = some (.wrCtrl0 0x81) := by decide
theorem test_decode_wrCtrl1 : dec .W 0b0001100110101010 = some (.wrCtrl1 0xAA) := by decide
theorem test_decode_wrFreqLo : dec .W 0b0001101011101000 = some (.wrFreqLo 0xE8) := by decide
theorem test_decode_wrFreqHi : dec .W 0b0001101100000011 = some (.wrFreqHi 0x03) := by decide
theorem test_decode_wrUndoc_low : dec .W 0b0001110101010101 = some (.wrUndoc 0x1D 0x55) := by decide
theorem test_decode_wrUndoc_high : dec .W 0b1111111101011010 = some (.wrUndoc 0xFF 0x5A) := by decide
theorem test_decode_wrIdVersion : dec .W 0b0001111010101010 = some (.wrIdVersion 0xAA) := by decide
theorem test_decode_wrIdWhoami : dec .W 0b0001111110111011 = some (.wrIdWhoami 0xBB) := by decide
theorem test_decode_wrCfgMode : dec .W 0b0011010000000010 = some (.wrCfgMode 5 0x02) := by decide
theorem test_decode_wrCfgLimit : dec .W 0b0011010110000000 = some (.wrCfgLimit 5 0x80) := by decide
theorem test_decode_wrCfgTlo : dec .W 0b0011011011101000 = some (.wrCfgTlo 5 0xE8) := by decide
theorem test_decode_wrCfgThi : dec .W 0b0111111100010010 = some (.wrCfgThi 23 0x12) := by decide
theorem test_decode_hsArm : dec .W 0xDD11 = some .hsArm := by decide
theorem test_decode_hsReset : dec .W 0xDD22 = some .hsReset := by decide
theorem test_decode_hsBootsel : dec .W 0xDD33 = some .hsBootsel := by decide
theorem test_decode_hsOther : dec .W 0xDD44 = some (.hsOther 0x44) := by decide
theorem test_decode_rd : dec .R 0b00011010 = some (.rd 0x1A) := by decide
theorem test_decode_wdtFeed : dec .M 0b00000 = some .wdtFeed := by decide
theorem test_decode_hsEval : dec .M 0b00001 = some .hsEval := by decide
theorem test_decode_regReset : dec .M 0b00010 = some .regReset := by decide
theorem test_decode_chUpdate_first : dec .M 0b00011 = some (.chUpdate 0) := by decide
theorem test_decode_chUpdate_last : dec .M 0b11010 = some (.chUpdate 23) := by decide
theorem test_decode_freqApply : dec .M 0b11011 = some .freqApply := by decide
theorem test_decode_oeApply : dec .M 0b11100 = some .oeApply := by decide
theorem test_decode_no_phase : decode ⟨.M, 29, []⟩ = .error .noSuchPhase := by rfl
theorem test_decode_assignChannel : (decode ⟨.F, 0b000, [7]⟩).toOption = some (.assignChannel 7) := by decide
theorem test_decode_applyFreq : (decode ⟨.F, 0b001, [1000]⟩).toOption = some (.applyFreq 1000) := by decide
theorem test_decode_setLevel : (decode ⟨.F, 0b010, [3, 128, 254]⟩).toOption = some (.setLevel 3 (128 / 255)) := by
  decide +kernel
theorem test_decode_getLevel : (decode ⟨.F, 0b011, [5]⟩).toOption = some (.getLevel 5) := by decide
theorem test_decode_enableOutputs : (decode ⟨.F, 0b100, [1]⟩).toOption = some (.enableOutputs true) := by decide
theorem test_decode_isConfigured : (decode ⟨.F, 0b101, [3]⟩).toOption = some (.isConfigured 3) := by decide
theorem test_decode_hostConstruct : (decode ⟨.H, 0b0000, [48]⟩).toOption = some (.hostConstruct 48) := by decide
theorem test_decode_hostInit : (decode ⟨.H, 0b0001, []⟩).toOption = some .hostInit := by decide
theorem test_decode_hostSet : (decode ⟨.H, 0b0010, [5, 255]⟩).toOption = some (.hostSet 5 255) := by decide
theorem test_decode_hostGet : (decode ⟨.H, 0b0011, [5]⟩).toOption = some (.hostGet 5) := by decide
theorem test_decode_hostConfigurePort :
    (decode ⟨.H, 0b0100, [23, 0, 1]⟩).toOption = some (.hostConfigurePort 23 false true) := by decide
theorem test_decode_hostConfigureFlipperLogic :
    (decode ⟨.H, 0b0101, [0, 64, 300]⟩).toOption = some (.hostConfigureFlipperLogic 0 64 300) := by decide
theorem test_decode_hostEnableOutputs : (decode ⟨.H, 0b0110, [1]⟩).toOption = some (.hostEnableOutputs true) := by decide
theorem test_decode_hostReboot : (decode ⟨.H, 0b0111, [1]⟩).toOption = some (.hostReboot true) := by decide
theorem test_decode_hostService : (decode ⟨.H, 0b1000, []⟩).toOption = some .hostService := by decide
theorem test_decode_channel_out_of_range : decode ⟨.H, 2, [24, 0]⟩ = .error .badArgument := by rfl
theorem test_seventy_rows : opcodeRows.length = 70 := by decide

/-! ## Bus operations -/

/-- V6: after `RX(0xFF)` at cursor 0x05. -/
theorem test_wrLevel : (regRead params 0x05 (wrLevel params 5 0xFF bare), (wrLevel params 5 0xFF bare).cursor) =
    (0xFF, 0x06) := by decide
/-- V7: CTRL0 stores 0x03. -/
theorem test_wrCtrl0 : (regRead params 0x18 (wrCtrl0 params 0x03 bare), (wrCtrl0 params 0x03 bare).cursor) =
    (0x03, 0x19) := by decide
/-- V13. -/
theorem test_wrCtrl1 : regRead params 0x19 (wrCtrl1 params 0xAA bare) = 0xAA := by decide
/-- V9: FREQ = 1000 after both bytes. -/
theorem test_wrFreq : memRead params freqAddr 2 (wrFreqHi params 0x03 (wrFreqLo params 0xE8 bare)) = 1000 := by decide
/-- V11: the cursor wraps from 0xFF to 0x00. -/
theorem test_wrUndoc_wraps : (regRead params 0xFF (wrUndoc params 0xFF 0x5A bare), (wrUndoc params 0xFF 0x5A bare).cursor) =
    (0x5A, 0x00) := by decide
/-- V8: VERSION unchanged, the cursor advances. -/
theorem test_wrIdVersion : (regRead params 0x1E (wrIdVersion params bare), (wrIdVersion params bare).cursor) = (0x07, 0x1F) := by decide
/-- V8: WHOAMI unchanged, the cursor advances to the configuration groups. -/
theorem test_wrIdWhoami : (regRead params 0x1F (wrIdWhoami params bare), (wrIdWhoami params bare).cursor) = (0x24, 0x20) := by decide
/-- R142's example: `W 0x34 : 0x02`. -/
theorem test_wrCfgMode : regRead params 0x34 (wrCfgMode params 5 0x02 bare) = 0x02 := by decide
/-- V20: limit 128 at 0x35. -/
theorem test_wrCfgLimit : regRead params 0x35 (wrCfgLimit params 5 0x80 bare) = 0x80 := by decide
/-- V20: timeout 1000 from 0xE8 0x03. -/
theorem test_wrCfgTimeout : memRead params 0x36 2 (wrCfgThi params 5 0x03 (wrCfgTlo params 5 0xE8 bare)) = 1000 := by
  decide
/-- V21: 0x7F is followed by 0x80. -/
theorem test_wrCfgThi_leaves_groups : (wrCfgThi params 23 0x12 bare).cursor = 0x80 := by decide
/-- V18: `START_W` in DATA restarts the address phase. -/
theorem test_startW : (startW { bare with bus := .data }).bus = .addr := by decide
/-- V17: a byte in IDLE is an address. -/
theorem test_setaddr_idle : ((isr params (.rx 0x05) bare).cursor, (isr params (.rx 0x05) bare).bus) = (0x05, .data) := by
  decide
/-- V19: `FIN` keeps the cursor. -/
theorem test_fin : ((fin { bare with bus := .addr, cursor := 9 }).bus, (fin { bare with cursor := 9 }).cursor) =
    (.idle, 9) := by decide
/-- V2: CTRL0 reads 0x40 after a hardware reset. -/
theorem test_rd_ctrl0 : (rd params 0x18 bare).busReply = some 0x40 := by decide
/-- V4: the limit of channel 0 reads 0xFF. -/
theorem test_rd_limit : (rd params 0x21 bare).busReply = some 0xFF := by decide
/-- V15: 0xDD reads 0x00 and the handshake stays. -/
theorem test_rd_reset : ((rd params 0xDD bare).busReply, (rd params 0xDD bare).cursor) = (some 0, 0xDE) := by decide

/-- R9: on a device of 224 register bytes the cursor wraps from 0xDF, and a first byte above it is taken modulo 224. -/
theorem test_other_size :
    (let P := { params with regfileSize := 224 }
     ((wrUndoc P 0xDF 0x5A bare).cursor, (setaddr P 0xE1 bare).cursor)) = (0x00, 0x01) := by decide

/-! ## The reset handshake -/

/-- V22, V31: armed, and a byte after the arm in the same transaction goes to 0xDE. -/
theorem test_hsArm : ((hsArm params { bare with now := 70 }).hs, (hsArm params bare).cursor) = (.armed 70, 0xDE) := by decide
/-- V28: a second arm is outside the sequence. -/
theorem test_hsArm_twice : (hsArm params { bare with hs := .armed 70, now := 80 }).hs = .idle := by decide
/-- V23. -/
theorem test_hsReset : (hsReset params { bare with hs := .armed 7, now := 1000007 }).hs = .confirmed .cpu 1000007 := by
  decide
/-- V26: exactly the window is too late. -/
theorem test_hsReset_boundary : (hsReset params { bare with hs := .armed 7, now := 5000007 }).hs = .idle := by decide
/-- V24: one microsecond before the end of the window. -/
theorem test_hsBootsel : (hsBootsel params { bare with hs := .armed 7, now := 5000006 }).hs =
    .confirmed .bootsel 5000006 := by decide
/-- V27 with 0x33: not armed. -/
theorem test_hsBootsel_idle : (hsBootsel params bare).hs = .idle := by decide
/-- V32: any other byte cancels a confirmed restart. -/
theorem test_hsOther : (hsOther params { bare with hs := .confirmed .cpu 3 }).hs = .idle := by decide

/-! ## Write in progress and the atomic read -/

/-- V36: the low byte is written, the read is unavailable. -/
theorem test_atomic_torn :
    (atomicRead params 0x1A 2 (wrFreqLo params 0xE8 { bare with bus := .data, cursor := 0x1A })).1 = none := by decide
/-- V37: both bytes are written, still in DATA. -/
theorem test_atomic_done :
    (atomicRead params 0x1A 2 (wrFreqHi params 0x03 (wrFreqLo params 0xE8 { bare with bus := .data }))).1 = some 1000 := by
  decide
/-- V38: a transaction that ended after the low byte tears. -/
theorem test_atomic_split : (atomicRead params 0x1A 2 (fin (wrFreqLo params 0xE8 bare))).1 = some 20200 := by decide
/-- V39: a one-byte field under the cursor. -/
theorem test_atomic_level : ((atomicRead params 5 1 { bare with bus := .data, cursor := 5 }).1,
    (atomicRead params 4 1 { bare with bus := .data, cursor := 5 }).1) = (none, some 0) := by decide

/-! ## Duty, deadline, override -/

/-- V42. -/
theorem test_calcDuty_linear : calcDuty params 128 0x00 = 128 / 255 := by decide +kernel
/-- V43: active-low. -/
theorem test_calcDuty_inverted : calcDuty params 128 0x01 = 127 / 255 := by decide +kernel
/-- V47: unassigned mode bits are ignored, gamma table. -/
theorem test_calcDuty_gamma : calcDuty params 200 0xFE = params.gammaTable 200 := by decide +kernel
/-- V42, other polarity: the gamma table with the bit off. -/
theorem test_calcDuty_polarity :
    calcDuty { params with gammaSelectInverted := true } 128 0x00 = params.gammaTable 128 := by decide +kernel

/-- `bare` with the timeout of channel 5 at 1000 ms. -/
def armable : State := wrCfgThi params 5 0x03 (wrCfgTlo params 5 0xE8 bare)

/-- V48. -/
theorem test_deadline_arms : (updateDeadline params 5 255 0 128 none 7 armable).dl = some 1000007 := by decide
/-- V49: at the limit is not above it. -/
theorem test_deadline_at_limit : (updateDeadline params 5 128 0 128 none 7 armable).dl = none := by decide
/-- V51: already above, kept. -/
theorem test_deadline_kept : (updateDeadline params 5 200 255 128 (some 500) 9000 armable).dl = some 500 := by decide
/-- V52: back at or below, cleared. -/
theorem test_deadline_cleared : (updateDeadline params 5 100 255 128 (some 500) 9000 armable).dl = none := by decide
/-- V56: the timeout is being written. -/
theorem test_deadline_unavailable :
    (updateDeadline params 5 255 0 128 none 7 { armable with bus := .data, cursor := 0x37 }).ok = false := by decide
/-- V57, V58: the boundary microsecond. -/
theorem test_effectiveLevel : (effectiveLevel 255 128 (some 1000007) 1000006, effectiveLevel 255 128 (some 1000007) 1000007) =
    (255, 128) := by decide
/-- V60: a raised limit raises the output. -/
theorem test_effectiveLevel_raised : effectiveLevel 100 200 (some 5) 10 = 200 := by decide

/-! ## Engine phases -/

/-- R161's example. -/
theorem test_wdtFeed : ((wdtFeed params { bare with now := 5000 }).wdtLastFeed, (wdtFeed params bare).phase) = (5000, 1) := by
  decide
/-- V33: 499 microseconds of 500 elapsed. -/
theorem test_hsEval_early :
    ((hsEval params { bare with hs := .confirmed .cpu 1000, now := 1499 }).hs,
      (hsEval params { bare with hs := .confirmed .cpu 1000, now := 1499 }).phase) = (.confirmed .cpu 1000, 2) := by decide
/-- V111: the bootloader restart. -/
theorem test_hsEval_bootsel :
    ((hsEval params { bare with hs := .confirmed .bootsel 1000, now := 1500 }).run) = .bootloader := by decide
/-- P4 step 3: all registers at their register-reset values, CTRL0 0x00. -/
theorem test_regReset :
    (let t := regReset params (wrLevel params 5 9 (wrCfgMode params 5 2 (wrCtrl1 params 0xAA (wrCtrl0 params 0x80 bare))))
     (regRead params 0x18 t, regRead params 0x05 t, regRead params 0x34 t, regRead params 0x19 t,
       regRead params 0x35 t, memRead params freqAddr 2 t, regRead params 0x1E t)) =
      (0, 0, 0, 0, 0xFF, 20000, 0x07) := by decide +kernel
/-- R163: a write to CTRL0 after the 0x80 store keeps its bits 6:0 (28 accesses lie before it). -/
theorem test_regReset_race :
    regRead params 0x18 (regReset params { wrCtrl0 params 0x80 bare with
      arrivals := List.replicate 28 [] ++ [[⟨0, .event .startW⟩, ⟨0, .event (.rx 0x18)⟩, ⟨0, .event (.rx 0xC1)⟩, ⟨0, .event .fin⟩]] }) = 0x41 := by
  decide +kernel
/-- V64: level 128 on channel 3. -/
theorem test_chUpdate :
    (let t := chUpdate params 3 (wrLevel params 3 0x80 s1)
     (t.lastLevel[3], t.deadline[3], t.duty[3], t.alloc.count[3], t.phase)) =
      (128, none, some (128 / 255), 3137, 7) := by decide +kernel
/-- P5 step 2: the channel whose level is being written is skipped. -/
theorem test_chUpdate_skipped :
    (chUpdate params 5 { s1 with bus := .data, cursor := 0x05 }).duty[5] = none := by decide +kernel
/-- P2 step 3: 1000 Hz applied. -/
theorem test_freqApply :
    (let t := freqApply params { wrFreqHi params 0x03 (wrFreqLo params 0xE8 s1) with bus := .idle }
     (t.appliedFreq, t.alloc.timer, t.phase)) = (some 1000, ⟨some (31 / 16), some 65536⟩, 28) := by decide +kernel
/-- V69: the value already applied. -/
theorem test_freqApply_same : (freqApply params s1).log = s1.log := by decide +kernel
/-- V62: `OE` set, outputs enabled, every pin driven and never active. -/
theorem test_oeApply :
    (let t := oeApply params (wrCtrl0 params 0x01 s1)
     (t.alloc.outEnabled, t.appliedEnable, t.pin 0)) = (true, true, .pwm 0 (some 6250) (some 1)) := by decide +kernel
/-- V61: nothing to apply. -/
theorem test_oeApply_same : ((oeApply params s1).pin 0, (oeApply params s1).phase) = (.hiz, 0) := by decide +kernel

/-! ## Frequency and counts -/

/-- V71, V73, V76, V77: floor and middle branches. -/
theorem test_divRes_low :
    [computeDivRes params.timer 1, computeDivRes params.timer 8, computeDivRes params.timer 1000,
      computeDivRes params.timer 1907] =
    [⟨4095 / 16, 65536, true⟩, ⟨3815 / 16, 65536, false⟩, ⟨31 / 16, 65536, false⟩, ⟨1, 65536, false⟩] := by decide +kernel
/-- V70, V78, V80, V82: zero and the high branch. -/
theorem test_divRes_high :
    [computeDivRes params.timer 0, computeDivRes params.timer 1908, computeDivRes params.timer 20000,
      computeDivRes params.timer 65535] =
    [⟨4095 / 16, 65536, true⟩, ⟨1, 65514, false⟩, ⟨1, 6250, false⟩, ⟨1, 1907, false⟩] := by decide +kernel
/-- V83 to V87. -/
theorem test_toCount :
    [toCount 0 6250, toCount 1 6250, toCount (1 / 2) 6250, toCount (127 / 255) 6250, toCount (1 / 255) 6250,
      toCount (1 / 12500) 6250, toCount (3 / 12500) 6250, toCount (128 / 255) 65536] =
    [0, 6250, 3125, 3113, 25, 1, 2, 32897] := by decide +kernel
/-- V88: rescaling from the stored fraction. -/
theorem test_rescale :
    (let a := applyFreqAlloc params 1000 (setLevel 3 (128 / 255) s1.alloc)
     (a.count[3], a.level[3])) = (32897, 128 / 255) := by decide +kernel
/-- V68: E2 for both classes, timer first. -/
theorem test_applyFreq_zero : applyFreqLog params 0 = [.freqOutOfRange .timer 0, .freqOutOfRange .lane 0] := by
  decide +kernel

/-! ## Assignment -/

/-- V92: the bindings of the identity pin map. -/
theorem test_boot_bindings :
    (s0.alloc.binding[0], s0.alloc.binding[15], s0.alloc.binding[16], s0.alloc.binding[19], s0.alloc.binding[20],
      s0.alloc.binding[23]) = (.timer 0 0, .timer 7 1, .lane 0 0, .lane 0 3, .lane 1 0, .lane 1 3) := by decide +kernel
/-- V92: both programs loaded, nothing logged. -/
theorem test_boot_log : (s0.log, s0.alloc.units[0].loaded, s0.alloc.units[1].loaded) = ([], true, true) := by
  decide +kernel
/-- V93: unit 1 has no space for the program. -/
theorem test_boot_exhausted :
    (bootAllocator { params with unitAvailable := fun u => u = 0 }).2 =
      [.resourceExhausted 20, .resourceExhausted 21, .resourceExhausted 22, .resourceExhausted 23] := by decide +kernel
/-- V94: lane 0 of unit 0 is taken at boot. -/
theorem test_boot_external :
    (let r := bootAllocator { params with laneFreeAtBoot := fun u l => !(u = 0 && l = 0) }
     (r.1.binding[16], r.1.binding[19], r.1.binding[23], r.2)) =
      (.lane 0 1, .lane 1 0, .failed, [.resourceExhausted 23]) := by decide +kernel

/-! ## Host driver -/

/-- V100. -/
theorem test_hostSet : (hostSet 5 255 s0).host.levels[5] = ⟨255, 0⟩ := by decide +kernel
/-- V100: `Get` returns the local value. -/
theorem test_hostGet : (hostGet 5 (hostSet 5 255 s0)).host.reply = some 255 := by decide +kernel
/-- V101: one transaction, then clean. -/
theorem test_service :
    (let t := service params (hostSet 5 255 s0)
     (t.host.traffic, t.host.levels[5], regRead params 0x05 t)) =
      ([⟨0x05, [0xFF], true⟩], ⟨255, 255⟩, 0xFF) := by decide +kernel
/-- V105: not acknowledged, still dirty. -/
theorem test_service_failed :
    (let t := service params { hostSet 5 255 s0 with link := [.failed 1] }
     (t.host.traffic, t.host.levels[5])) = ([⟨0x05, [0xFF], false⟩], ⟨255, 0⟩) := by decide +kernel
/-- V106. -/
theorem test_hostConfigurePort :
    (hostConfigurePort params 23 false true s0).host.traffic = [⟨0x7C, [0x01], true⟩] := by decide +kernel
/-- V107. -/
theorem test_hostConfigureFlipperLogic :
    (hostConfigureFlipperLogic params 0 64 300 s0).host.traffic = [⟨0x21, [0x40, 0x2C, 0x01], true⟩] := by decide +kernel
/-- R74, R82: an engine phase between the two timeout bytes of one driver transaction (before its fifth event, so after the
address, the limit and the low byte) finds the timeout being written and skips the channel; the transaction goes on. -/
theorem test_phase_inside_call :
    (let s := { wrLevel params 0 0xFF s1 with phase := 3, beside := [[], [], [], [], [.engine []]] }
     let t := hostConfigureFlipperLogic params 0 64 300 s
     (t.phase, t.lastLevel[0], memRead params 0x22 2 t, t.host.traffic)) = (4, 0, 300, [⟨0x21, [0x40, 0x2C, 0x01], true⟩]) := by
  decide +kernel
/-- R84: the whole of a driver's transaction lands inside one phase, before its first register access. -/
theorem test_call_inside_phase :
    (let s := { s1 with phase := 3, beside := [[.engine [List.replicate 4 ⟨1, .line⟩]]] }
     let t := service params (hostSet 0 128 s)
     (t.lastLevel[0], t.now, t.host.levels[0], t.line)) = (128, 4, ⟨128, 128⟩, .idle) := by decide +kernel
/-- V104 in part: `EnableOutputs(true)` sends 0x01 to CTRL0. -/
theorem test_hostEnableOutputs :
    (service params (hostEnableOutputs true s0)).host.traffic = [⟨0x18, [0x01], true⟩] := by decide +kernel
/-- V108, first tick. -/
theorem test_hostReboot_arm :
    (let t := service params (hostReboot true s0)
     (t.host.traffic, t.hs)) = ([⟨0xDD, [0x11], true⟩], .armed 0) := by decide +kernel
/-- V108, second tick. -/
theorem test_hostReboot_confirm :
    (let t := service params { s0 with hs := .armed 0, host := { s0.host with pendingReset := some ⟨.bootsel, .confirm⟩ } }
     (t.host.traffic, t.host.pendingReset, t.hs)) = ([⟨0xDD, [0x33], true⟩], none, .confirmed .bootsel 0) := by
  decide +kernel
/-- R241: `Init` clears the dirty registers. -/
theorem test_hostInit : (hostInit (hostSet 5 255 s0)).host.levels[5] = ⟨0, 0⟩ := by decide +kernel
/-- Entry N14: an out-of-range level is refused. -/
theorem test_hostSet_refused : refusalOf (exec (.hostSet 0 256) bare) = some .illFormed := by rfl

/-! ## Restart and watchdog -/

/-- V110: registers, cursor and handshake of S0, the clock kept. -/
theorem test_restart_cpu_registers :
    (let t := restart params .cpu { wrLevel params 5 9 s1 with hs := .armed 3, now := 77, phase := 1 }
     (regRead params 0x18 t, regRead params 0x05 t, t.cursor, t.hs)) = (0x40, 0, 0, .idle) := by decide +kernel
/-- V110: the engine starts again at phase 0 with the watchdog fed; the clock goes on. -/
theorem test_restart_cpu_engine :
    (let t := restart params .cpu { wrLevel params 5 9 s1 with hs := .armed 3, now := 77, phase := 1 }
     (t.phase, t.now, t.wdtLastFeed, t.run)) = (0, 77, 77, .running) := by decide +kernel
/-- V112: not enabled at the timeout, enabled one microsecond later. -/
theorem test_watchdog :
    (wdtExpired params { bare with wdtLastFeed := 100, now := 1100 },
      wdtExpired params { bare with wdtLastFeed := 100, now := 1101 }) = (false, true) := by decide

/-! ## The step -/

/-- V6 as one step: a byte in the data phase at cursor 0x05. -/
theorem test_step_write :
    ((nextOf (step { bare with bus := .data, cursor := 0x05, agenda := [.event (.rx 0xFF)] })).map fun t =>
      (t.cursor, t.agenda)) = some (0x06, []) := by decide +kernel
/-- V111: no response in the boot loader. -/
theorem test_step_bootloader :
    ((nextOf (step { bare with run := .bootloader, agenda := [.event (.rx 0xFF)] })).map fun t => (t.cursor, t.bus)) =
      some (0x00, .idle) := by decide +kernel
/-- With nothing on the agenda the engine takes its next phase. -/
theorem test_step_engine : ((nextOf (step bare)).map State.phase) = some 1 := by decide +kernel

/-! ## Witnesses: the hypotheses of the statements can be met -/

open Sys2Proof.Safety

/-- A quiet, running state of the device after reset, its channels not yet assigned. -/
def base : State := { State.reset with alloc := emptyAllocator Config.device, log := [] }

/-- `base` in the data phase, the next byte at address `a`. -/
def writing (a : Byte) : State := { base with bus := .data, cursor := a }

/-- `base` with the handshake armed at 7 and the clock at `now`. -/
def armedAt (now : Nat) : State := { base with hs := .armed 7, now := now }

theorem witness_AddressByteSetsTheCursor : base.bus ≠ .data := by decide
theorem witness_WriteReservedAndUnlistedStores :
    ∀ a ∈ ([0x1C, 0x1D, 0x80, 0xDC, 0xDE, 0xFF] : List Byte), a = 0x1C ∨ a = 0x1D ∨ (0x80 ≤ a.toNat ∧ a ≠ 0xDD) := by
  decide
theorem witness_WriteFrequencyBytes : (writing 0x1A).bus = .data := by decide
theorem witness_WriteConfigurationBytes : (writing 0x22).bus = .data := by decide
theorem witness_IdentificationRegistersAreReadOnly : IdentityKept base := ⟨rfl, rfl, rfl⟩

/-! ### The handshake -/

theorem witness_HandshakeCodes_idle : base.hs = .idle := by decide
theorem witness_HandshakeCodes_not_idle : (armedAt 7).hs ≠ .idle := by decide
theorem witness_HandshakeCodes_in_time : (armedAt 5000006).hs = .armed 7 ∧ (armedAt 5000006).now < 7 + 5000000 := by decide
theorem witness_HandshakeCodes_late : ∀ t, (armedAt 5000007).hs = .armed t → t + 5000000 ≤ (armedAt 5000007).now := by
  intro t h; cases h; decide
theorem witness_HandshakeCodes_not_armed : ∀ t, base.hs = .armed t → t + 5000000 ≤ base.now := by
  intro t h; cases h
theorem witness_OtherHandshakeByte : (0x00 : Byte) ≠ 0x11 ∧ (0x00 : Byte) ≠ 0x22 ∧ (0x00 : Byte) ≠ 0x33 := by decide
theorem witness_OnlyHandshakeBytes_changes : (isr Config.device (.rx 0x11) (writing 0xDD)).hs ≠ (writing 0xDD).hs := by decide
theorem witness_OnlyHandshakeBytes_confirms :
    (isr Config.device (.rx 0x33) { armedAt 5000006 with bus := .data, cursor := 0xDD }).hs = .confirmed .bootsel 5000006 := by
  decide

/-! ### Transactions -/

theorem witness_ProtectedRead_freq :
    ((0x1A : Byte) = 0x1A ∨ ∃ n : Chan, (0x1A : Byte) = BitVec.ofNat 8 (0x22 + 4 * n.val)) ∧
    (0x18 : Byte) + BitVec.ofNat 8 ([1, 2] : List Byte).length = 0x1A ∧
    ([1, 2] : List Byte).length ≤ 254 ∧ ([] : List Byte).length ≤ 254 := by decide
theorem witness_ProtectedRead_last_timeout :
    ((0x7E : Byte) = 0x1A ∨ ∃ n : Chan, (0x7E : Byte) = BitVec.ofNat 8 (0x22 + 4 * n.val)) ∧
    (0x7E : Byte) + BitVec.ofNat 8 ([] : List Byte).length = 0x7E ∧
    ([] : List Byte).length ≤ 254 ∧ (List.replicate 254 (0 : Byte)).length ≤ 254 :=
  ⟨.inr ⟨23, rfl⟩, rfl, Nat.zero_le _, by rw [List.length_replicate]⟩
theorem witness_ProtectedRead_wraps :
    ((0x1A : Byte) = 0x1A ∨ ∃ n : Chan, (0x1A : Byte) = BitVec.ofNat 8 (0x22 + 4 * n.val)) ∧
    (0x1C : Byte) + BitVec.ofNat 8 (List.replicate 254 (0 : Byte)).length = 0x1A ∧
    (List.replicate 254 (0 : Byte)).length ≤ 254 ∧ ([7] : List Byte).length ≤ 254 :=
  ⟨.inl rfl, by rw [List.length_replicate]; decide, by rw [List.length_replicate], by decide⟩
theorem witness_LongTransactions : ([0x00] : List Byte) ≠ [] := by decide
theorem witness_MaskedEvents :
    let s := { base with irqMasked := true, agenda := [.event .rq] }
    s.agenda = .event .rq :: [] ∧ s.run = .running ∧ s.irqMasked = true := by decide
theorem witness_WhoMayTouchWhat_stores :
    (writing 0xFF).bus = .data ∧ (writing 0xFF).cursor ≠ 0x1E ∧ (writing 0xFF).cursor ≠ 0x1F ∧
    (writing 0xFF).cursor ≠ 0xDD := by decide
theorem witness_WhoMayTouchWhat_stores_not :
    ¬ ((∃ b, BusEvent.rx 3 = .rx b) ∧ base.bus = .data) ∧ (writing 0x1E).cursor = 0x1E ∧
    ¬ (∃ b, BusEvent.rq = .rx b) := by
  refine ⟨fun h => absurd h.2 (by decide), rfl, ?_⟩
  rintro ⟨b, h⟩
  cases h
theorem witness_WhoMayTouchWhat_phase :
    decode ⟨.M, (2 : Phase).val, []⟩ = .ok .regReset ∧ decode ⟨.M, (3 : Phase).val, []⟩ = .ok (.chUpdate 0) ∧ Quiet base ∧
    restartDue Config.device base.now base.hs = none ∧
    exec .regReset base = .next (regReset Config.device base) ∧ exec (.chUpdate 0) base = .next (chUpdate Config.device 0 base) :=
  ⟨rfl, rfl, ⟨rfl, rfl, rfl⟩, rfl, rfl, rfl⟩

/-! ### The engine -/

theorem witness_WatchdogFeedTakesTheClock : base.arrivals = [] := rfl

/-- `base` with a code confirmed at 1000, and exactly the grace period elapsed. -/
def due (kind : ResetKind) : State := { base with hs := .confirmed kind 1000, now := 1000 + Config.resetGraceUs, phase := 1 }

theorem witness_HandshakeEval_due (kind : ResetKind) :
    (window Config.device (due kind)).hs = .confirmed kind 1000 ∧
    Config.device.resetGraceUs ≤ (due kind).now - 1000 := by
  refine ⟨rfl, ?_⟩
  show Config.resetGraceUs ≤ 1000 + Config.resetGraceUs - 1000
  omega
theorem witness_HandshakeEval_due_cpu :
    (window Config.device (due .cpu)).hs = .confirmed .cpu 1000 ∧
    Config.device.resetGraceUs ≤ (due .cpu).now - 1000 := witness_HandshakeEval_due .cpu
theorem witness_HandshakeEval_not_due :
    (∀ kind t, (window Config.device base).hs = .confirmed kind t →
      base.now - t < Config.device.resetGraceUs) ∧ base.arrivals = [] := by
  refine ⟨?_, rfl⟩
  intro kind t h
  cases h
/-- The confirm lands in the phase's window 5 microseconds after the phase began: its timestamp is later than the phase's
clock value. -/
theorem witness_HandshakeEval_late_confirm :
    let s := { armedAt 10 with bus := .data, cursor := 0xDD, arrivals := [[⟨5, .event (.rx 0x22)⟩]] }
    (window Config.device s).hs = .confirmed .cpu 15 ∧ s.now - 15 = 0 := by decide
theorem witness_HardwareReset : RestartKind.cpu ≠ .bootsel ∧ RestartKind.wdt ≠ .bootsel := by decide
theorem witness_Bootloader :
    let s := { base with run := .bootloader, agenda := [.event (.rx 1)] }
    s.run = .bootloader ∧ step s = .next { s with agenda := [] } := ⟨rfl, rfl⟩

/-- `base` with a register reset requested and other bits of CTRL0 set. -/
def resetRequested : State := { base with regs := [(0x18, 0xC1)] }

theorem witness_RegisterReset_requested : Quiet resetRequested ∧ regresetBit (regRead Config.device 0x18 resetRequested) = true := by
  decide
theorem witness_RegisterReset_not_requested : Quiet base ∧ regresetBit (regRead Config.device 0x18 base) = false := by decide

/-- `base` with channel 0 at level 255, limit 128, timeout 1000 ms and gamma on. -/
def crossing : State := { base with regs := [(0x00, 0xFF), (0x20, 0x02), (0x21, 0x80), (0x22, 0xE8), (0x23, 0x03)] }

theorem witness_ChannelUpdate_level_written : Quiet (writing 0x00) ∧ wip (levelAddr 0) 1 (writing 0x00) = true := by decide
theorem witness_ChannelUpdate_timeout_written :
    let s := { crossing with bus := .data, cursor := 0x23 }
    Quiet s ∧ wip (levelAddr 0) 1 s = false ∧ Crossing 0 s ∧ wip (cfgAddr 0 2) 2 s = true := by decide
theorem witness_ChannelUpdate_armed :
    Quiet crossing ∧ wip (levelAddr 0) 1 crossing = false ∧ Crossing 0 crossing ∧ wip (cfgAddr 0 2) 2 crossing = false ∧
    crossing.duty[0] ≠ some (dutyAfter 0 crossing) := by
  refine ⟨by decide, by decide, by decide, by decide, ?_⟩
  intro h
  cases h
theorem witness_ChannelUpdate_same_duty :
    let s := { base with duty := base.duty.set 0 (some 0) }
    Quiet s ∧ wip (levelAddr 0) 1 s = false ∧ ¬ Crossing 0 s ∧ s.duty[0] = some (dutyAfter 0 s) := by decide +kernel
theorem witness_ChannelUpdateTouches : exec (.chUpdate 0) crossing = .next (chUpdate Config.device 0 crossing) := rfl
theorem witness_Duty :
    Config.device.WellFormed ∧ (0x01 : Byte).getLsbD 0 = true ∧
    ((0x02 : Byte).getLsbD 0 = false ∧ (0x02 : Byte).getLsbD 1 ≠ Config.device.gammaSelectInverted) ∧
    ((0x00 : Byte).getLsbD 0 = false ∧ (0x00 : Byte).getLsbD 1 = Config.device.gammaSelectInverted) :=
  ⟨Config.device_wellFormed, by decide, by decide, by decide⟩
theorem witness_Throttle_branches :
    Quiet base ∧ (128 : Byte) ≤ 128 ∧ ((128 : Byte) < 255 ∧ (128 : Byte) < 129) ∧ ((128 : Byte) < 129 ∧ (128 : Byte) ≤ 128) ∧
    wip (cfgAddr 0 2) 2 (writing 0x22) = true ∧ Quiet (writing 0x22) ∧ wip (cfgAddr 0 2) 2 base = false ∧
    (7 ≤ 7 ∧ 6 < 7) := by decide
theorem witness_ThrottleLimits_first :
    Quiet crossing ∧ wip (levelAddr 0) 1 crossing = false ∧ wip (cfgAddr 0 2) 2 crossing = false ∧ modeOf 0 crossing = 0x02 ∧
    limitOf 0 crossing = 128 ∧ timeoutOf 0 crossing = 1000 ∧ levelOf 0 crossing = 255 ∧
    crossing.lastLevel[(0 : Chan)] ≤ (128 : Byte) := by decide
theorem witness_ThrottleLimits_later :
    let t := chUpdate Config.device 0 crossing
    ∀ now ∈ [crossing.now + 999999, crossing.now + 1000000],
      let u := { t with now := now }
      Quiet u ∧ u.regs = crossing.regs ∧ wip (levelAddr 0) 1 u = false ∧
      u.lastLevel[(0 : Chan)] = t.lastLevel[(0 : Chan)] ∧ u.deadline[(0 : Chan)] = t.deadline[(0 : Chan)] ∧
      crossing.now ≤ u.now := by
  intro t now h u
  have hc : crossing.now = 0 := rfl
  refine ⟨⟨rfl, rfl, rfl⟩, rfl, rfl, rfl, rfl, ?_⟩
  rw [hc]
  exact Nat.zero_le _
theorem witness_Frequency_written : Quiet (writing 0x1B) ∧ wip 0x1A 2 (writing 0x1B) = true := by decide
theorem witness_Frequency_applied :
    let s := { base with appliedFreq := some 20000 }
    Quiet s ∧ s.appliedFreq = some (BitVec.ofNat 16 (memRead Config.device 0x1A 2 s)) := by decide
theorem witness_Frequency_pending :
    Quiet base ∧ wip 0x1A 2 base = false ∧
    base.appliedFreq ≠ some (BitVec.ofNat 16 (memRead Config.device 0x1A 2 base)) := by decide
theorem witness_OutputEnable_same : base.arrivals = [] ∧ oeBit (regRead Config.device 0x18 base) = base.appliedEnable := by
  decide
theorem witness_OutputEnable_pending :
    let s := { base with regs := [(0x18, 0x01)] }
    s.arrivals = [] ∧ oeBit (regRead Config.device 0x18 s) ≠ s.appliedEnable := by decide

/-! ### The allocator -/

/-- The empty allocator with channel 0 bound to timer channel 2A and channel 1 to a lane. -/
def someBound : Allocator :=
  { emptyAllocator Config.device with
    binding := ((emptyAllocator Config.device).binding.set 0 (.timer 2 0)).set 1 (.lane 0 0) }

/-- `base` with the allocator `a`. -/
def withAlloc (a : Allocator) : State := { base with alloc := a }

/-- The empty allocator with every timer channel claimed by pin `q`. -/
def claimedBy (q : Pin) : Allocator :=
  { emptyAllocator Config.device with sliceClaim := Vector.replicate 8 (Vector.replicate 2 (some q)) }

theorem witness_Assign_bound : (withAlloc someBound).alloc.binding[(0 : Chan)] ≠ .unbound := by decide
theorem witness_Assign_unclaimed (sl : SliceIx) (ch : SliceChan) :
    base.alloc.binding[(0 : Chan)] = .unbound ∧ base.alloc.sliceClaim[sl][ch] = none := by
  revert sl ch; decide
theorem witness_Assign_own (sl : SliceIx) (ch : SliceChan) :
    let s := withAlloc (claimedBy (Config.device.pinOfChannel 0))
    s.alloc.binding[(0 : Chan)] = .unbound ∧ s.alloc.sliceClaim[sl][ch] = some (Config.device.pinOfChannel 0) := by
  intro s
  exact ⟨by decide, by simp [s, withAlloc, claimedBy]⟩
theorem witness_Assign_other (sl : SliceIx) (ch : SliceChan) :
    let s := withAlloc (claimedBy (Config.device.pinOfChannel 0 + 1))
    s.alloc.binding[(0 : Chan)] = .unbound ∧ s.alloc.sliceClaim[sl][ch] = some (Config.device.pinOfChannel 0 + 1) ∧
    Config.device.pinOfChannel 0 + 1 ≠ Config.device.pinOfChannel 0 := by
  intro s
  exact ⟨by decide, by simp [s, withAlloc, claimedBy], Nat.succ_ne_self _⟩
theorem witness_Soft_reuse :
    let a := { emptyAllocator params with units := (emptyAllocator params).units.set 1 ⟨true, Vector.replicate 4 .free⟩ }
    (a.units[(1 : UnitIx)].loaded = true ∧ a.units[(1 : UnitIx)].lanes[(0 : LaneIx)] = .free) ∧
    ¬ (a.units[(0 : UnitIx)].loaded = true) := by decide
theorem witness_Soft_load :
    let a := emptyAllocator params
    (∀ u : UnitIx, ¬ (a.units[u].loaded = true)) ∧ a.units[(0 : UnitIx)].loaded = false ∧
    params.unitAvailable 0 = true ∧ a.units[(0 : UnitIx)].lanes[(0 : LaneIx)] = .free := by decide
theorem witness_Soft_exhausted :
    let a := { emptyAllocator params with units := Vector.replicate 2 ⟨true, Vector.replicate 4 .external⟩ }
    (∀ u : UnitIx, ¬ (a.units[u].loaded = true ∧ ∃ l : LaneIx, a.units[u].lanes[l] = .free)) ∧
    ∀ u : UnitIx, ¬ (a.units[u].loaded = false) := by decide

/-- A well-formed device whose units cannot take the microprogram. -/
def noSoft : Params := { Config.device with pinOfChannel := fun n => n.val, unitAvailable := fun _ => false }

theorem witness_Boot_wellFormed : noSoft.WellFormed :=
  { Config.device_wellFormed with
    pinInjective := fun _ _ h => Fin.ext h
    clkPos := Config.device_wellFormed.clkPos
    divMinPos := Config.device_wellFormed.divMinPos
    divOrder := Config.device_wellFormed.divOrder
    divDenPos := Config.device_wellFormed.divDenPos
    divMinSteps := Config.device_wellFormed.divMinSteps
    divMaxSteps := Config.device_wellFormed.divMaxSteps
    resMaxPos := Config.device_wellFormed.resMaxPos
    cpcPos := Config.device_wellFormed.cpcPos }
theorem witness_Boot_failed :
    (16 : Chan) ≠ 17 ∧ (bootAllocator noSoft).1.binding[(16 : Chan)] = (bootAllocator noSoft).1.binding[(17 : Chan)] := by
  decide +kernel
theorem witness_SetLevel_inert : (0 : Rat) ≤ 1 / 2 ∧ (1 / 2 : Rat) ≤ 1 ∧ base.alloc.binding[(0 : Chan)].cls = none := by
  decide +kernel
theorem witness_SetLevel_bound :
    let s := withAlloc { someBound with lane := ⟨some 1, some 6250⟩ }
    s.alloc.binding[(0 : Chan)].cls = some .timer ∧ s.alloc.binding[(1 : Chan)].cls = some .lane ∧
    (s.alloc.cls .timer).res = none ∧ (s.alloc.cls .lane).res = some 6250 ∧
    (0 : Rat) = s.alloc.level[(0 : Chan)] ∧ (1 : Rat) ≠ s.alloc.level[(1 : Chan)] := by decide +kernel
theorem witness_ApplyFreq :
    (withAlloc someBound).alloc.binding[(0 : Chan)].cls = some .timer ∧
    (withAlloc someBound).alloc.binding[(1 : Chan)].cls = some .lane ∧
    (withAlloc someBound).alloc.binding[(2 : Chan)].cls = none := by decide
theorem witness_Divider_low :
    Config.device.WellFormed ∧ (computeDivRes (Config.device.cls .timer) 1).err = true ∧
    (computeDivRes (Config.device.cls .timer) 0).err = true :=
  ⟨Config.device_wellFormed, by decide +kernel, by decide +kernel⟩
theorem witness_Divider_high :
    let c := Config.device.cls .timer
    ∀ f ∈ ([1908, 65535] : List Half), f ≠ 0 ∧ c.fClk / c.cpc / (f.toNat * c.resMax) < c.divMin ∧
      1 / 2 ≤ c.fClk / c.cpc / (f.toNat * c.divMin) := by
  intro c f hf
  have hc : c = Config.timerParams := rfl
  simp only [hc, Config.timerParams]
  fin_cases hf
  · refine ⟨by decide, ?_⟩
    have e : (1908 : Half).toNat = 1908 := rfl
    simp only [e]
    norm_num
  · refine ⟨by decide, ?_⟩
    have e : (65535 : Half).toNat = 65535 := rfl
    simp only [e]
    norm_num
theorem witness_Divider_middle :
    let c := Config.device.cls .timer
    ∀ f ∈ ([8, 1907] : List Half), f ≠ 0 ∧ c.divMin ≤ c.fClk / c.cpc / (f.toNat * c.resMax) ∧
      c.fClk / c.cpc / (f.toNat * c.resMax) ≤ c.divMax := by
  intro c f hf
  have hc : c = Config.timerParams := rfl
  simp only [hc, Config.timerParams]
  fin_cases hf
  · refine ⟨by decide, ?_⟩
    have e : (8 : Half).toNat = 8 := rfl
    simp only [e]
    norm_num
  · refine ⟨by decide, ?_⟩
    have e : (1907 : Half).toNat = 1907 := rfl
    simp only [e]
    norm_num
theorem witness_EnableOutputs :
    base.alloc.binding[(0 : Chan)].cls = none ∧ (withAlloc someBound).alloc.binding[(0 : Chan)].cls = some .timer := by decide

/-- The device after boot with the timer class at 6250 counts and the outputs enabled. -/
def enabled : State :=
  { State.reset with
    alloc := { State.reset.alloc with timer := ⟨some 1, some 6250⟩, outEnabled := true } }

theorem witness_PinIsActive_inv : Inv enabled := by
  obtain ⟨b1, b2, b3, b4⟩ := bootAllocator_keeps Config.device
  have ha : State.reset.alloc = (bootAllocator Config.device).1 := powerOn_alloc _
  have hb : enabled.alloc = { (bootAllocator Config.device).1 with timer := ⟨some 1, some 6250⟩, outEnabled := true } := by
    rw [← ha]; rfl
  constructor
  · exact Memory.nil_wf _
  · exact ⟨rfl, rfl, rfl⟩
  · exact ⟨rfl, rfl, rfl⟩
  · unfold MappingFixed; rw [hb]; exact ⟨rfl, rfl, rfl⟩
  · intro n
    rw [hb]
    refine ⟨by simp only [(b4 n).1]; norm_num, ?_⟩
    intro d hd
    have : (Vector.replicate 24 (none : Option Rat))[n] = some d := hd
    simp at this
  · intro n _; rw [hb]; exact b4 n
  · intro n k rs hk hrs
    rw [hb] at hrs ⊢
    simp only [(b4 n).1, (b4 n).2, toCount_zero]
  · intro k
    rw [hb]
    cases k with
    | timer =>
      refine ⟨?_, ?_⟩
      · intro rs h; cases h; decide
      · intro dv h; cases h; decide +kernel
    | lane => simp [Allocator.cls, b2]
  · refine ⟨le_rfl, ?_, ?_⟩
    · intro t h; cases h
    · intro k t h; cases h
  · intro h; cases h
theorem witness_PinIsActive :
    enabled.alloc.outEnabled = true ∧ enabled.alloc.binding[(0 : Chan)].cls = some .timer ∧
    (enabled.alloc.cls .timer).res = some 6250 := by
  have ha : State.reset.alloc = (bootAllocator Config.device).1 := powerOn_alloc _
  have hb : enabled.alloc.binding = (bootAllocator Config.device).1.binding := by rw [← ha]; rfl
  refine ⟨rfl, ?_, rfl⟩
  simp only [hb, bootAllocator_first]
  rfl

/-! ### The host driver -/

theorem witness_ConfigurePort : LinkUp 1 base ∧ base.beside = [] := ⟨⟨rfl, rfl, rfl, rfl, by decide⟩, rfl⟩
theorem witness_ConfigureFlipperLogic : LinkUp 1 { base with link := [.acked, .failed 0] } :=
  ⟨rfl, rfl, rfl, rfl, by decide⟩
/-- Two dirty registers and a pending reset at its step `p`. -/
def busy (p : HsStep) : State :=
  setPending (some ⟨.bootsel, p⟩) (hostEnableOutputs true (hostSet 5 255 base))

theorem witness_ServiceSends_dirty :
    (busy .arm).host.pendingReset = some ⟨.bootsel, .arm⟩ ∧ (busy .confirm).host.pendingReset = some ⟨.bootsel, .confirm⟩ ∧
    dirtyRegs (busy .arm) = [.level 5, .ctrl0] ∧ ((busy .arm).host.shadow (.level 6)).dirty = false ∧
    (.level 5, true) ∈ (dirtyRegs (busy .arm)).zip [true, false] := by decide +kernel
theorem witness_ServiceSends_clean : base.host.pendingReset = none ∧ dirtyRegs base = [] ∧ base.beside = [] := by
  decide +kernel
theorem witness_ServiceBrings :
    let s := { busy .arm with link := [.acked, .acked, .acked, .failed 2] }
    s.host.serviceErrands.length = 3 ∧ LinkUp 3 s ∧ dirtyRegs s = [.level 5, .ctrl0] :=
  ⟨by decide +kernel, ⟨rfl, rfl, rfl, rfl, by decide⟩, by decide +kernel⟩
theorem witness_Forward_arm :
    (hostReboot true base).host.pendingReset = some ⟨.bootsel, .arm⟩ ∧ LinkUp 1 (hostReboot true base) ∧
    (hostReboot true base).hs = .idle ∧ LinkUp 3 (busy .arm) :=
  ⟨rfl, ⟨rfl, rfl, rfl, rfl, by decide⟩, rfl, ⟨rfl, rfl, rfl, rfl, by decide⟩⟩
theorem witness_Forward_confirm :
    ∀ now ∈ [5000006, 5000007],
      let s := setPending (some ⟨.cpu, .confirm⟩) (armedAt now)
      s.host.pendingReset = some ⟨.cpu, .confirm⟩ ∧ LinkUp 1 s ∧ s.hs = .armed 7 := by
  intro now _
  exact ⟨rfl, ⟨rfl, rfl, rfl, rfl, fun _ h => by cases h⟩, rfl⟩

/-! ### The step -/

theorem witness_Step_event :
    let s := { writing 5 with agenda := [.event (.rx 9)] }
    s.agenda = .event (.rx 9) :: [] ∧ s.run = .running ∧ s.irqMasked = false ∧ s.bus = .data ∧
    decode (eventKey (.rx 9) s) = .ok (.wrLevel 5 9) := ⟨rfl, rfl, rfl, rfl, rfl⟩
theorem witness_Step_engine :
    let s := { base with agenda := [.engine [[⟨3, .event .rq⟩]]] }
    s.agenda = .engine [[⟨3, .event .rq⟩]] :: [] ∧ s.run = .running ∧ decode ⟨.M, s.phase.val, []⟩ = .ok .wdtFeed := ⟨rfl, rfl, rfl⟩
theorem witness_Step_idle : base.agenda = [] ∧ base.run = .running ∧ decode ⟨.M, base.phase.val, []⟩ = .ok .wdtFeed :=
  ⟨rfl, rfl, rfl⟩
theorem witness_Step_query :
    let s := { base with agenda := [.query (.getLevel 23), .query (.isConfigured 0)] }
    s.agenda = .query (.getLevel 23) :: [.query (.isConfigured 0)] ∧ s.run = .running := ⟨rfl, rfl⟩
theorem witness_Step_call :
    let s := { base with agenda := [.host 8 [] [[.elapse 3, .engine [[⟨1, .line⟩]]]]] }
    s.agenda = .host 8 [] [[.elapse 3, .engine [[⟨1, .line⟩]]]] :: [] ∧ decode ⟨.H, 8, []⟩ = .ok .hostService := ⟨rfl, rfl⟩

/-- `base` with the watchdog about to step, `late` microseconds after its timeout. -/
def barking (late : Nat) : State := { base with now := Config.wdtTimeoutUs + late, agenda := [.watchdog] }

theorem witness_Watchdog_expired :
    (barking 1).agenda = .watchdog :: [] ∧ (barking 1).run = .running ∧ (barking 1).wdtLastFeed ≤ (barking 1).now ∧
    Config.device.wdtTimeoutUs < (barking 1).now - (barking 1).wdtLastFeed :=
  ⟨rfl, rfl, Nat.zero_le _, Nat.lt_succ_self _⟩
theorem witness_Watchdog_fed :
    (barking 0).run = .running ∧ (barking 0).wdtLastFeed ≤ (barking 0).now ∧
    (barking 0).now - (barking 0).wdtLastFeed ≤ Config.device.wdtTimeoutUs := ⟨rfl, Nat.zero_le _, le_rfl⟩
theorem witness_Watchdog_bootloader : ({ barking 0 with run := .bootloader } : State).run = .bootloader := rfl
theorem witness_Clock :
    step { base with agenda := [.elapse 5] } = .next { base with now := base.now + 5 } ∧
    elapsedBy [.host 8 [] [[.elapse 3], [.engine [[⟨4, .line⟩]]]]] = 7 := ⟨rfl, rfl⟩
theorem witness_OnlyThese_bootloader :
    ∃ t, step (due .bootsel) = .next t ∧ (due .bootsel).run = .running ∧ t.run = .bootloader := by
  refine ⟨restart Config.device .bootsel (window Config.device (due .bootsel)), ?_, rfl, rfl⟩
  have h : restartDue Config.device (due .bootsel).now (window Config.device (due .bootsel)).hs = some .bootsel := by
    have e := witness_HandshakeEval_due .bootsel
    rw [e.1]
    simp only [restartDue]
    rw [if_pos e.2]
  show Host.Outcome.next (hsEval Config.device (due .bootsel)) = _
  unfold hsEval
  simp only [h]
  rfl
theorem witness_OnlyThese_outputs :
    let s := { base with regs := [(0x18, 0x01)], phase := 28 }
    ∃ t, step s = .next t ∧ s.alloc.outEnabled = false ∧ t.alloc.outEnabled = true :=
  ⟨_, rfl, rfl, rfl⟩
theorem witness_OnlyThese_beside :
    let s := { base with regs := [(0x18, 0x01)], phase := 28 }
    s.alloc.outEnabled = false ∧ (besideStep Config.device (.engine []) s).alloc.outEnabled = true ∧
    besideNext { s with agenda := [.host 8 [] [[], []]] } = [] := ⟨rfl, rfl, rfl⟩
/-- A property of the device alone that every step inside a call keeps: what is in the boot loader stays there. -/
theorem witness_OnlyThese_kept :
    let Q : State → Prop := fun u => u.run = .bootloader
    let s := { base with run := .bootloader, agenda := [.host 2 [5, 255] []] }
    (∀ b u, Q u → Q (besideStep Config.device b u)) ∧ (∀ u, Q u → Q (takeLine Config.device u)) ∧
    (∀ u v : State, Q u →
      v = { u with
        host := v.host, agenda := v.agenda, freeCount := v.freeCount
        line := v.line, beside := v.beside, link := v.link } → Q v) ∧
    s.agenda = .host 2 [5, 255] [] :: [] ∧ (∃ t, step s = .next t) ∧ Q s := by
  refine ⟨?_, fun u h => (takeLine_isrOnly _ u).run.trans h, fun u v h e => ?_, rfl, ⟨_, rfl⟩, rfl⟩
  rotate_left
  · have h : u.run = .bootloader := h
    show v.run = .bootloader
    rw [e]
    exact h
  intro b u h
  have h : u.run = .bootloader := h
  cases b with
  | elapse us => exact h
  | watchdog => simp [besideStep, watchdogStep, wdtExpired, h]
  | engine during => simp [besideStep, enginePhase, h]
theorem witness_NoDeviceStep :
    let s := { base with agenda := [.query (.isConfigured 3), .host 99 [] []] }
    ∀ m rest, s.agenda = m :: rest → deviceMove m = true := by
  intro s m rest h
  cases h
  rfl
theorem witness_WellFormedOperations :
    (Instr.setLevel 23 1).wellFormed = true ∧ (Instr.hostSet 24 0).wellFormed = false := by decide +kernel
theorem witness_EveryStep : Inv enabled ∧ ∃ t, step enabled = .next t := ⟨witness_PinIsActive_inv, _, rfl⟩
theorem witness_Decoding :
    (Instr.hostConfigureFlipperLogic 23 255 65535).wellFormed = true ∧
    decode ⟨.H, 5, [23, 255, 65535]⟩ = .ok (.hostConfigureFlipperLogic 23 255 65535) := ⟨by decide, rfl⟩

end Sys2Proof.Tests
end

section
/-! PROOFS. The statements about the bus handler's data phase (40_bus_isr.md): a data byte's key decodes to the operation of
its row in the table, that operation does what the handler does, and the write operations are the store template of R133
at their addresses. -/

namespace Sys2Proof

/-! ## Format W keys and the rows of the table (R103, R106, R108) -/

theorem writeKey_div (a b : Byte) : writeKey a b / 256 = a.toNat := by
  have := b.isLt
  simp only [writeKey]
  omega

theorem writeKey_mod (a b : Byte) : writeKey a b % 256 = b.toNat := by
  have := b.isLt
  simp only [writeKey]
  omega

/-- A mask selects from the cursor with its high byte and from the data byte with its low byte. -/
theorem writeKey_and_eq_iff (a b : Byte) (mask pattern : Nat) :
    writeKey a b &&& mask = pattern ↔
      a.toNat &&& mask / 256 = pattern / 256 ∧ b.toNat &&& mask % 256 = pattern % 256 := by
  have hdiv : (writeKey a b &&& mask) / 256 = a.toNat &&& mask / 256 := by
    rw [← writeKey_div a b]
    exact Nat.and_div_two_pow (n := 8)
  have hmod : (writeKey a b &&& mask) % 256 = b.toNat &&& mask % 256 := by
    rw [← writeKey_mod a b]
    exact Nat.and_mod_two_pow (n := 8)
  rw [← hdiv, ← hmod]
  omega

theorem handshakeCode_iff (b : Byte) : handshakeCode b = true ↔ b = 0x11 ∨ b = 0x22 ∨ b = 0x33 := by
  simp [handshakeCode, or_assoc]

theorem handshakeCode_eq_false_iff (b : Byte) : handshakeCode b = false ↔ b ≠ 0x11 ∧ b ≠ 0x22 ∧ b ≠ 0x33 := by
  simp [handshakeCode, and_assoc]

/-- The rows of format W look at the data byte only for a handshake code. -/
theorem writeRow_low_byte : ∀ r ∈ opcodeRows, r.format = .W →
    (r.mask % 256 = 0 ∧ r.pattern % 256 = 0) ∨
      (r.mask % 256 = 255 ∧ (r.pattern % 256 = 0x11 ∨ r.pattern % 256 = 0x22 ∨ r.pattern % 256 = 0x33)) := by
  decide

/-- So a data byte that is no handshake code matches a row of format W exactly when the row ignores the data byte. -/
theorem plain_byte_matches_iff {r : Row} (hr : r ∈ opcodeRows) (hW : r.format = .W) {b : Byte}
    (hb : handshakeCode b = false) : b.toNat &&& r.mask % 256 = r.pattern % 256 ↔ r.mask % 256 = 0 := by
  obtain ⟨hm, hp⟩ | ⟨hm, hp⟩ := writeRow_low_byte r hr hW
  · simp [hm, hp]
  · have hself : b.toNat &&& 255 = b.toNat := by
      rw [Nat.and_two_pow_sub_one_eq_mod _ 8, Nat.mod_eq_of_lt b.isLt]
    have hne : b.toNat ≠ r.pattern % 256 := by
      simp only [handshakeCode_eq_false_iff, BitVec.toNat_ne] at hb
      obtain ⟨h1, h2, h3⟩ := hb
      rcases hp with hp | hp | hp <;> rw [hp] <;> assumption
    simp [hm, hself, hne]

/-- The table tells no two data bytes apart that are no handshake codes. -/
theorem tableMnemonic_write_congr (a : Byte) {b c : Byte} (hb : handshakeCode b = false) (hc : handshakeCode c = false) :
    tableMnemonic .W (writeKey a b) = tableMnemonic .W (writeKey a c) := by
  unfold tableMnemonic
  refine congrArg _ (List.find?_congr fun r hr => ?_)
  by_cases hW : r.format = .W
  · rw [Bool.eq_iff_iff]
    simp only [Bool.and_eq_true, beq_iff_eq, writeKey_and_eq_iff,
      plain_byte_matches_iff hr hW hb, plain_byte_matches_iff hr hW hc]
  · simp only [beq_eq_false_iff_ne.mpr hW, Bool.false_and]

/-- Neither does the decoder, but for the operand. -/
theorem decodeWrite_mnemonic_congr (a : Byte) {b c : Byte} (hb : handshakeCode b = false)
    (hc : handshakeCode c = false) : (decodeWrite a b).mnemonic = (decodeWrite a c).mnemonic := by
  rw [handshakeCode_eq_false_iff] at hb hc
  cases h : addressClass a with
  | reset => simp only [decodeWrite, h, hb, hc, if_false, Instr.mnemonic]
  | cfg n j =>
    simp only [decodeWrite, h]
    fin_cases j <;> rfl
  | level | ctrl0 | ctrl1 | freqLo | freqHi | undoc | version | whoami =>
    simp only [decodeWrite, h]
    rfl

/-- The decoder and the table agree on every cursor with each handshake code and with one other byte. -/
theorem tableMnemonic_write_of_mem : ∀ a : Byte, ∀ b ∈ ([0x00, 0x11, 0x22, 0x33] : List Byte),
    tableMnemonic .W (writeKey a b) = some (decodeWrite a b).mnemonic := by
  decide +kernel

/-- The decoder and the table agree on every key of format W (R108). -/
theorem tableMnemonic_write (a b : Byte) : tableMnemonic .W (writeKey a b) = some (decodeWrite a b).mnemonic := by
  cases hb : handshakeCode b with
  | true =>
    obtain rfl | rfl | rfl := (handshakeCode_iff b).mp hb <;>
      exact tableMnemonic_write_of_mem a _ (by decide)
  | false =>
    rw [tableMnemonic_write_congr a hb (c := 0) (by decide), decodeWrite_mnemonic_congr a hb (c := 0) (by decide)]
    exact tableMnemonic_write_of_mem a 0 (by decide)

theorem tableMnemonic_startW : tableMnemonic .E 0 = some "START_W" := by decide

theorem tableMnemonic_fin : tableMnemonic .E 3 = some "FIN" := by decide

theorem tableMnemonic_setaddr (key : Nat) : tableMnemonic .A key = some "SETADDR" := by
  simp [tableMnemonic, opcodeRows, rowsLow]

theorem tableMnemonic_rd (key : Nat) : tableMnemonic .R key = some "RD" := by
  simp [tableMnemonic, opcodeRows, rowsLow, rowsHigh]

/-! ## What the keys of a bus event decode to (R108) -/

theorem decode_setaddr (b : Byte) : decode ⟨.A, b.toNat, []⟩ = .ok (.setaddr b) := by
  have hfits : ¬ 2 ^ Format.A.keyWidth ≤ b.toNat := Nat.not_le.mpr b.isLt
  simp [decode, hfits, decodeKey]

theorem decode_rd (c : Byte) : decode ⟨.R, c.toNat, []⟩ = .ok (.rd c) := by
  have hfits : ¬ 2 ^ Format.R.keyWidth ≤ c.toNat := Nat.not_le.mpr c.isLt
  simp [decode, hfits, decodeKey]

theorem decode_writeKey (a b : Byte) : decode ⟨.W, writeKey a b, []⟩ = .ok (decodeWrite a b) := by
  have hfits : ¬ 2 ^ Format.W.keyWidth ≤ writeKey a b := Nat.not_le.mpr (writeKey_lt a b)
  have hbyte : BitVec.ofNat 8 (writeKey a b) = b := by
    apply BitVec.eq_of_toNat_eq
    rw [BitVec.toNat_ofNat]
    exact writeKey_mod a b
  simp [decode, hfits, decodeKey, writeKey_div, hbyte]

/-- An address that the decode leaves to `WR.UNDOC` is one the register map does not list (R103). -/
theorem unlistedAddress_of_class (c : Byte) (h : addressClass c = .undoc) : unlistedAddress c = true := by
  revert c; decide +kernel

end Sys2Proof

namespace Sys2Proof.Machine

open Sys2Proof.Safety

/-! ## What the decoded operation does (R130) -/

/-- The operation decoded at the handshake register is the one the handler runs there (R106, R136). -/
theorem exec_decodeWrite_reset (b : Byte) (s : State) (h : addressClass s.cursor = .reset) :
    exec (decodeWrite s.cursor b) s = .next (wrReset Config.device b s) := by
  simp only [decodeWrite, h, wrReset]
  split_ifs with h1 h2 h3
  · rfl
  · rfl
  · rfl
  · exact if_neg (ne_true_of_eq_false ((handshakeCode_eq_false_iff b).mpr ⟨h1, h2, h3⟩))

/-- The operation decoded from the cursor and a data byte does what the handler does with that byte. -/
theorem exec_decodeWrite (b : Byte) (s : State) :
    exec (decodeWrite s.cursor b) s = .next (dataByte Config.device b s) := by
  cases h : addressClass s.cursor with
  | undoc =>
    simp only [decodeWrite, dataByte, h]
    exact if_pos (unlistedAddress_of_class _ h)
  | cfg n j =>
    simp only [decodeWrite, dataByte, h]
    fin_cases j <;> rfl
  | reset =>
    rw [exec_decodeWrite_reset b s h]
    simp only [dataByte, h]
  | level | ctrl0 | ctrl1 | freqLo | freqHi | version | whoami =>
    simp only [decodeWrite, dataByte, h]
    rfl

/-- Settles O3: by the kind of event, and for a byte by the bus state; only a data byte has a key that the table splits. -/
theorem handlerRunsTheOperationOfTheTable : Obligations.HandlerRunsTheOperationOfTheTable := by
  unfold Obligations.HandlerRunsTheOperationOfTheTable
  intro e s
  cases e with
  | startW => exact ⟨.startW, rfl, tableMnemonic_startW, rfl⟩
  | fin => exact ⟨.fin, rfl, tableMnemonic_fin, rfl⟩
  | rq => exact ⟨.rd s.cursor, decode_rd _, tableMnemonic_rd _, rfl⟩
  | rx b =>
    by_cases hbus : s.bus = .data
    · simp only [eventKey, hbus, if_pos, isr_rx_data _ _ _ hbus]
      exact ⟨decodeWrite s.cursor b, decode_writeKey _ _, tableMnemonic_write _ _, exec_decodeWrite b s⟩
    · simp only [eventKey, isr, hbus, if_false]
      exact ⟨.setaddr b, decode_setaddr b, tableMnemonic_setaddr _, rfl⟩

/-! ## The store template of the data phase (R133) -/

/-- An operation that is the store template at address `a` stores there, advances, and changes nothing else. -/
theorem storesAndAdvances_of_exec {i : Instr} {a b : Byte}
    (h : ∀ s, exec i s = .next (storeAdvance Config.device a b s)) : StoresAndAdvances i a b := fun s =>
  ⟨storeAdvance Config.device a b s, h s, fun x => regRead_storeAdvance _ a b x s, nextCursor_device a, rfl⟩

theorem wip_iff (a : Byte) (w : Nat) (s : State) :
    wip a w s = true ↔ s.bus = .data ∧ a.toNat ≤ s.cursor.toNat ∧ s.cursor.toNat < a.toNat + w := by
  simp only [wip, Bool.and_eq_true, beq_iff_eq, decide_eq_true_eq, and_assoc]

/-- In a transaction a two-byte field at `a` is protected after its low byte and no longer after its high byte, and then
holds the two bytes, little-endian (R70, R79). -/
theorem exec_twoByteField {i j : Instr} {a lo hi : Byte} (ha : a.toNat + 2 < 256)
    (hlo : ∀ s, exec i s = .next (storeAdvance Config.device a lo s))
    (hhi : ∀ s, exec j s = .next (storeAdvance Config.device (a + 1) hi s)) {s : State} (hs : s.bus = .data) :
    ∃ t u, exec i s = .next t ∧ wip a 2 t = true ∧ exec j t = .next u ∧ wip a 2 u = false ∧
      memRead Config.device a 2 u = lo.toNat + 256 * hi.toNat := by
  have hnext : (a + 1).toNat = a.toNat + 1 := by bv_omega
  have hpast : (a + 1 + 1).toNat = a.toNat + 2 := by bv_omega
  refine ⟨_, _, hlo s, ?_, hhi _, ?_, ?_⟩
  · simp only [wip_iff, storeAdvance_bus, storeAdvance_cursor, nextCursor_device, hnext]
    exact ⟨hs, by omega, by omega⟩
  · simp only [← Bool.not_eq_true, wip_iff, storeAdvance_cursor, nextCursor_device, hpast]
    omega
  · simp [memRead_two, le16_toNat]

/-- Settles O4: `WR.LEVEL` is the store template at the channel's level address. -/
theorem writeLevelStoresAndAdvances : Obligations.WriteLevelStoresAndAdvances := by
  unfold Obligations.WriteLevelStoresAndAdvances
  exact fun n b => storesAndAdvances_of_exec fun _ => rfl

/-- Settles O7: both bytes are the store template, and the field of the two is protected between them. -/
theorem writeFrequencyBytes : Obligations.WriteFrequencyBytes := by
  unfold Obligations.WriteFrequencyBytes
  exact ⟨fun b => storesAndAdvances_of_exec fun _ => rfl, fun b => storesAndAdvances_of_exec fun _ => rfl,
    fun lo hi s hs => exec_twoByteField (by decide) (fun _ => rfl) (fun _ => rfl) hs⟩

/-! ## The addresses of a configuration group (R22) -/

theorem cfgAddr_eq (n : Chan) (j : Fin 4) : cfgAddr n j = BitVec.ofNat 8 (0x20 + j.val + 4 * n.val) := by
  simp only [cfgAddr, Nat.add_right_comm]

theorem cfgAddr_timeout_lt (n : Chan) : (cfgAddr n 2).toNat + 2 < 256 := by revert n; decide

theorem cfgAddr_timeout_succ (n : Chan) : cfgAddr n 2 + 1 = cfgAddr n 3 := by revert n; decide

/-- Settles O8: each byte is the store template at its address in the channel's group, and the timeout is a two-byte
field. -/
theorem writeConfigurationBytes : Obligations.WriteConfigurationBytes := by
  unfold Obligations.WriteConfigurationBytes
  refine ⟨fun n b => ?_, fun n b => ?_, fun n b => ?_, fun n b => ?_, fun n lo hi s hs => ?_⟩
  · exact cfgAddr_eq n 0 ▸ storesAndAdvances_of_exec fun _ => rfl
  · exact cfgAddr_eq n 1 ▸ storesAndAdvances_of_exec fun _ => rfl
  · exact cfgAddr_eq n 2 ▸ storesAndAdvances_of_exec fun _ => rfl
  · exact cfgAddr_eq n 3 ▸ storesAndAdvances_of_exec fun _ => rfl
  · exact cfgAddr_eq n 2 ▸ exec_twoByteField (cfgAddr_timeout_lt n) (fun _ => rfl)
      (fun _ => cfgAddr_timeout_succ n ▸ rfl) hs

end Sys2Proof.Machine
end

section
/-! PROOFS. The statements about the allocator functions (42_allocator.md R203, R204, R209): what a binding answers, what
`ApplyFreq` leaves in each class's counts, and what the pins show once the outputs are switched. -/

namespace Sys2Proof.Machine

/-! ## `ApplyFreq` (R204, R206) -/

@[simp] theorem programClass_binding (k : ResClass) (r : DivRes) (a : Allocator) :
    (programClass k r a).binding = a.binding := by
  rw [programClass_changes]
  exact setCls_binding ..

@[simp] theorem programClass_level (k : ResClass) (r : DivRes) (a : Allocator) :
    (programClass k r a).level = a.level := by
  rw [programClass_changes]
  exact setCls_level ..

theorem programClass_count_other {k : ResClass} {a : Allocator} {n : Chan} (h : a.binding[n].cls ≠ some k) (r : DivRes) :
    (programClass k r a).count[n] = a.count[n] := by
  rw [programClass_count, if_neg h]

/-- A channel's count follows its own class alone, though both classes are programmed: the other pass keeps it. -/
theorem applyFreqAlloc_count_bound (P : Params) (f : Half) {k : ResClass} {a : Allocator} {n : Chan}
    (h : a.binding[n].cls = some k) :
    (applyFreqAlloc P f a).count[n] =
      if (a.cls k).res = some (computeDivRes (P.cls k) f).res then a.count[n]
      else toCount a.level[n] (computeDivRes (P.cls k) f).res := by
  unfold applyFreqAlloc
  cases k with
  | timer =>
    rw [programClass_count_other (by rw [programClass_binding, h]; decide), programClass_count, if_pos h]
    rfl
  | lane =>
    rw [programClass_count, programClass_binding, if_pos h, programClass_cls_other _ _ _ _ (by decide),
      programClass_count_other (by rw [h]; decide), programClass_level]
    rfl

theorem applyFreqAlloc_count_inert (P : Params) (f : Half) {a : Allocator} {n : Chan} (h : a.binding[n].cls = none) :
    (applyFreqAlloc P f a).count[n] = a.count[n] := by
  unfold applyFreqAlloc
  rw [programClass_count_other (by rw [programClass_binding, h]; decide),
    programClass_count_other (by rw [h]; decide)]

/-- Every 16-bit frequency is in the call's range (entry N14). -/
theorem exec_applyFreq (f : Half) (s : State) : exec (.applyFreq f.toNat) s = .next (applyFreq Config.device f s) := by
  change execApplyFreq f.toNat s = _
  rw [execApplyFreq, if_pos f.isLt, BitVec.ofNat_toNat, BitVec.setWidth_eq]

/-- Settles O37: both settings from `ComputeDivRes`, and each channel's count from its own class's pass. -/
theorem applyFreqProgramsAndRescales : Obligations.ApplyFreqProgramsAndRescales := by
  unfold Obligations.ApplyFreqProgramsAndRescales
  intro f s
  refine ⟨applyFreq Config.device f s, exec_applyFreq f s, rfl, applyFreqAlloc_changes ..,
    fun k => ⟨?_, fun n hn => ?_⟩, fun n hn => ?_, ?_⟩
  · exact applyFreqAlloc_cls ..
  · exact applyFreqAlloc_count_bound _ f hn
  · exact applyFreqAlloc_count_inert _ f hn
  · simp only [applyFreq_log, applyFreqLog, freqErrors, List.append_assoc]

/-! ## The pins (R42, R209) -/

theorem pin_inert {s : State} {n : Chan} (h : s.alloc.binding[n].cls = none) : s.pin n = .hiz := by
  simp only [State.pin, h]

theorem pin_bound {s : State} {n : Chan} {k : ResClass} (h : s.alloc.binding[n].cls = some k) :
    s.pin n =
      if s.alloc.outEnabled then .pwm s.alloc.count[n] (s.alloc.cls k).res (s.alloc.cls k).div else .hiz := by
  simp only [State.pin, h]

theorem enableOutputs_cls (e : Bool) (a : Allocator) (k : ResClass) : (enableOutputs e a).cls k = a.cls k := by
  cases k <;> rfl

/-- Settles O39: the switch keeps bindings, counts and settings, so each pin is read off with the new output state. -/
theorem enableOutputsSwitchesEveryBoundPin : Obligations.EnableOutputsSwitchesEveryBoundPin := by
  unfold Obligations.EnableOutputsSwitchesEveryBoundPin
  intro e s
  refine ⟨{ s with alloc := enableOutputs e s.alloc }, rfl, rfl, fun n => ⟨fun hn => pin_inert hn, fun k hn => ?_⟩⟩
  rw [← enableOutputs_cls e]
  exact pin_bound hn

/-! ## `IsConfigured` (R203) -/

theorem cls_isSome_iff (b : Binding) : b.cls.isSome = true ↔ (∃ sl ch, b = .timer sl ch) ∨ ∃ u l, b = .lane u l := by
  cases b <;> simp [Binding.cls]

theorem withChan_val (n : Chan) (k : Chan → State) : withChan n.val k = .next (k n) := dif_pos n.isLt

/-- Every channel is in the call's range (entry N14). -/
theorem exec_isConfigured (n : Chan) (s : State) :
    exec (.isConfigured n.val) s = .next { s with callReply := some (.flag (s.alloc.isConfigured n)) } := by
  change execIsConfigured n.val s = _
  rw [execIsConfigured, withChan_val]

/-- Settles O35: only the two bound kinds of binding have a resource class. -/
theorem isConfiguredMeansTimerOrLane : Obligations.IsConfiguredMeansTimerOrLane := by
  unfold Obligations.IsConfiguredMeansTimerOrLane
  intro n s
  exact ⟨s.alloc.isConfigured n, exec_isConfigured n s, cls_isSome_iff s.alloc.binding[n]⟩

end Sys2Proof.Machine
end

section
/-! PROOFS. The statements about the host driver (43_host_driver.md R242, R243, R245): `Set` and `Get` stay in the driver's
shadow registers, and a call of one transaction records it once and, on a working link, does what the handler does with
its bus events. -/

namespace Sys2Proof.Machine

open Sys2Proof.Safety

/-! ## `Set` and `Get` (R242, R243) -/

/-- Every byte is in the call's range (entry N14). -/
theorem exec_hostSet (c : Chan) (v : Byte) (s : State) :
    exec (.hostSet c.val v.toNat) s = .next (hostSet c v s) := by
  change execHostSet c.val v.toNat s = _
  rw [execHostSet, if_pos v.isLt, withChan_val, BitVec.ofNat_toNat, BitVec.setWidth_eq]

theorem exec_hostGet (c : Chan) (s : State) : exec (.hostGet c.val) s = .next (hostGet c s) :=
  withChan_val c fun c => hostGet c s

@[simp] theorem hostSet_level_same (c : Chan) (v : Byte) (s : State) :
    (hostSet c v s).host.levels[c] = ⟨v, s.host.levels[c].chip⟩ :=
  Vector.getElem_set_self _

theorem hostSet_level_other {c d : Chan} (h : d ≠ c) (v : Byte) (s : State) :
    (hostSet c v s).host.levels[d] = s.host.levels[d] :=
  Vector.getElem_set_ne c.isLt d.isLt (Fin.val_ne_of_ne h.symm)

theorem dirty_iff (r : ChipReg) : r.dirty = true ↔ r.loc ≠ r.chip := bne_iff_ne

/-- Settles O42: the call replaces one shadow's local value, and `Get` reads it back. -/
theorem setThenGetIsLocal : Obligations.SetThenGetIsLocal := by
  unfold Obligations.SetThenGetIsLocal
  intro c v s
  refine ⟨hostSet c v s, hostGet c (hostSet c v s), exec_hostSet c v s, rfl, hostSet_level_same c v s, ?_,
    fun d hd => hostSet_level_other hd v s, exec_hostGet c _, ?_⟩
  · rw [hostSet_level_same, dirty_iff]
  · rw [hostGet, hostSet_level_same]

/-! ## A call of one transaction (R240, R244) -/

/-- A transaction that names no shadow leaves the driver its record alone. -/
theorem settle_nothing (a : Byte) (data : List Byte) (ok : Bool) (h : HostDriver) :
    h.settle (⟨a, data, .nothing⟩, ok) = { h with traffic := h.traffic ++ [⟨a, data, ok⟩] } := by
  cases ok <;> rfl

/-- The call settles its transaction once, whatever goes on beside it; on a working link as acknowledged. -/
theorem converse_single_host (x : Errand) (s : State) :
    ∃ ok, (converse Config.device [x] s).host = s.host.settle (x, ok) ∧ (LinkUp 1 s → ok = true) := by
  refine ⟨_, rfl, fun ⟨haddr, hrun, hmask, hbeside, hlink⟩ => ?_⟩
  have hacked := congrArg (·.host.traffic) (converse_working Config.device [x] s haddr hrun hmask hbeside hlink)
  simpa [nextEnds, verdicts] using hacked

/-- On a working link the handler is run on the events of the transaction. -/
theorem converse_single_working (x : Errand) {s : State} (h : LinkUp 1 s) :
    converse Config.device [x] s =
      { isrAll Config.device (writeEvents x.addr x.data) s with
        line := .idle, link := s.link.drop 1, host := s.host.settle (x, true) } := by
  obtain ⟨haddr, hrun, hmask, hbeside, hlink⟩ := h
  rw [converse_working Config.device [x] s haddr hrun hmask hbeside hlink, List.flatMap_singleton]
  rfl

/-! ## The bus events of a write transaction (R101, R130) -/

/-- A write transaction opens at its address, the data phase takes its bytes, and the bus is idle after it. -/
theorem isrAll_writeEvents (a : Byte) (data : List Byte) (s : State) :
    isrAll Config.device (writeEvents a data) s =
      fin (isrAll Config.device (data.map .rx) { s with cursor := a, bus := .data }) := by
  simp [writeEvents, isrAll_append, isr, startW, setaddr]

/-- The address decode finds each byte of a channel's configuration group (R103). -/
theorem addressClass_cfgAddr (c : Chan) (j : Fin 4) : addressClass (cfgAddr c j) = .cfg c j := by
  revert c j; decide

/-- One byte written at a channel's mode address is stored there (R142). -/
theorem isrAll_writeEvents_mode (c : Chan) (b : Byte) (s : State) :
    isrAll Config.device (writeEvents (cfgAddr c 0) [b]) s =
      { storeAdvance Config.device (cfgAddr c 0) b s with bus := .idle } := by
  rw [isrAll_writeEvents, List.map_singleton, isrAll_cons, isrAll_nil, isr_rx_data _ _ _ rfl]
  simp only [dataByte, addressClass_cfgAddr]
  rfl

/-! ## `ConfigurePort` (R245) -/

theorem exec_hostConfigurePort (c : Chan) (gamma low : Bool) (s : State) :
    exec (.hostConfigurePort c.val gamma low) s = .next (hostConfigurePort Config.device c gamma low s) :=
  withChan_val c fun c => hostConfigurePort Config.device c gamma low s

/-- On a working link the mode byte is stored, the cursor is past it and the bus idle, and nothing else of the device has
changed. -/
theorem hostConfigurePort_working (c : Chan) (gamma low : Bool) {s : State} (h : LinkUp 1 s) :
    hostConfigurePort Config.device c gamma low s =
      { storeAdvance Config.device (cfgAddr c 0) (modeByte gamma low) s with
        bus := .idle, line := .idle, link := s.link.drop 1
        host := s.host.settle (⟨cfgAddr c 0, [modeByte gamma low], .nothing⟩, true) } := by
  rw [hostConfigurePort, converse_single_working _ h, isrAll_writeEvents_mode]

/-- Settles O44: the call is one transaction that names no shadow; on a working link its one data byte is stored at the
channel's mode address. -/
theorem configurePortWritesTheModeByte : Obligations.ConfigurePortWritesTheModeByte := by
  unfold Obligations.ConfigurePortWritesTheModeByte
  intro c gamma low s a m
  obtain ⟨ok, hhost, hok⟩ := converse_single_host ⟨cfgAddr c 0, [m], .nothing⟩ s
  rw [settle_nothing] at hhost
  have ha : cfgAddr c 0 = a := cfgAddr_eq c 0
  refine ⟨hostConfigurePort Config.device c gamma low s, ok, exec_hostConfigurePort c gamma low s, ha ▸ hhost,
    converse_isrOnly _ _ s, fun hup => ⟨hok hup, ?_⟩⟩
  rw [hostConfigurePort_working c gamma low hup, ha]
  exact ⟨nextCursor_device a ▸ rfl, rfl, fun x => regRead_storeAdvance Config.device a m x s⟩

end Sys2Proof.Machine
end

section
/-! PROOFS. The statements about the decoder and the encoder (30_encoding.md R103, R106 to R109): a write operation is the one
its address and byte decode to, so encoding and decoding are inverse, and the opcode table's row of a key is that of the
operation. -/

namespace Sys2Proof

open Sys2Proof.Machine

/-! ## Write operations (R103, R106) -/

theorem addressClass_levelAddr (n : Chan) : addressClass (levelAddr n) = .level n := by revert n; decide

theorem addressClass_of_unlisted (a : Byte) (h : unlistedAddress a = true) : addressClass a = .undoc := by
  revert a; decide +kernel

theorem decodeWrite_other {b : Byte} (h : handshakeCode b = false) : decodeWrite 0xDD b = .hsOther b := by
  obtain ⟨h1, h2, h3⟩ := (handshakeCode_eq_false_iff b).mp h
  have hclass : addressClass 0xDD = .reset := by decide
  simp only [decodeWrite, hclass, h1, h2, h3, if_false]

theorem decodeWrite_cfg (n : Chan) (b : Byte) :
    decodeWrite (cfgAddr n 0) b = .wrCfgMode n b ∧ decodeWrite (cfgAddr n 1) b = .wrCfgLimit n b ∧
    decodeWrite (cfgAddr n 2) b = .wrCfgTlo n b ∧ decodeWrite (cfgAddr n 3) b = .wrCfgThi n b := by
  simp only [decodeWrite, addressClass_cfgAddr, and_self]

/-- A well-formed write operation is encoded by the address and the byte that decode to it. -/
theorem encode_write (i : Instr) (hwf : i.wellFormed = true) (hW : (encode i).format = .W) :
    ∃ a b, encode i = ⟨.W, writeKey a b, []⟩ ∧ decodeWrite a b = i := by
  cases i with
  | wrLevel n b => exact ⟨levelAddr n, b, rfl, by simp only [decodeWrite, addressClass_levelAddr]⟩
  | wrCtrl0 b => exact ⟨0x18, b, rfl, rfl⟩
  | wrCtrl1 b => exact ⟨0x19, b, rfl, rfl⟩
  | wrFreqLo b => exact ⟨0x1A, b, rfl, rfl⟩
  | wrFreqHi b => exact ⟨0x1B, b, rfl, rfl⟩
  | wrUndoc a b => exact ⟨a, b, rfl, by simp only [decodeWrite, addressClass_of_unlisted a hwf]⟩
  | wrIdVersion b => exact ⟨0x1E, b, rfl, rfl⟩
  | wrIdWhoami b => exact ⟨0x1F, b, rfl, rfl⟩
  | wrCfgMode n b => exact ⟨_, b, rfl, (decodeWrite_cfg n b).1⟩
  | wrCfgLimit n b => exact ⟨_, b, rfl, (decodeWrite_cfg n b).2.1⟩
  | wrCfgTlo n b => exact ⟨_, b, rfl, (decodeWrite_cfg n b).2.2.1⟩
  | wrCfgThi n b => exact ⟨_, b, rfl, (decodeWrite_cfg n b).2.2.2⟩
  | hsArm => exact ⟨0xDD, 0x11, rfl, rfl⟩
  | hsReset => exact ⟨0xDD, 0x22, rfl, rfl⟩
  | hsBootsel => exact ⟨0xDD, 0x33, rfl, rfl⟩
  | hsOther b => exact ⟨0xDD, b, rfl, decodeWrite_other (by simpa [Instr.wellFormed] using hwf)⟩
  | _ => cases hW

/-- The other way round: what an address and a byte decode to is well formed and encoded by them. -/
theorem encode_decodeWrite (a b : Byte) :
    (decodeWrite a b).wellFormed = true ∧ encode (decodeWrite a b) = ⟨.W, writeKey a b, []⟩ := by
  obtain ⟨h1, h2, h3, h4, h5, h6, h7⟩ := address_of_class a
  cases h : addressClass a with
  | level n =>
    simp only [decodeWrite, h]
    exact ⟨rfl, by rw [encode, levelAddr_of_class a n h]⟩
  | cfg n j =>
    have ha := cfgAddr_of_class a n j h
    simp only [decodeWrite, h]
    fin_cases j <;> exact ⟨rfl, by rw [← ha]; rfl⟩
  | undoc =>
    simp only [decodeWrite, h]
    exact ⟨unlistedAddress_of_class a h, rfl⟩
  | reset =>
    obtain rfl := h7 h
    cases hb : handshakeCode b with
    | false =>
      rw [decodeWrite_other hb]
      exact ⟨congrArg not hb, rfl⟩
    | true => obtain rfl | rfl | rfl := (handshakeCode_iff b).mp hb <;> exact ⟨rfl, rfl⟩
  | ctrl0 => simp only [decodeWrite, h]; exact ⟨rfl, by rw [h1 h]; rfl⟩
  | ctrl1 => simp only [decodeWrite, h]; exact ⟨rfl, by rw [h2 h]; rfl⟩
  | freqLo => simp only [decodeWrite, h]; exact ⟨rfl, by rw [h3 h]; rfl⟩
  | freqHi => simp only [decodeWrite, h]; exact ⟨rfl, by rw [h4 h]; rfl⟩
  | version => simp only [decodeWrite, h]; exact ⟨rfl, by rw [h5 h]; rfl⟩
  | whoami => simp only [decodeWrite, h]; exact ⟨rfl, by rw [h6 h]; rfl⟩

/-- Every 16-bit key is the key of its two bytes (R108). -/
theorem writeKey_bytes {k : Nat} (h : k < 65536) : writeKey (BitVec.ofNat 8 (k / 256)) (BitVec.ofNat 8 k) = k := by
  simp only [writeKey, BitVec.toNat_ofNat]
  omega

/-! ## Operands of calls (log 33) -/

theorem decodeBool_encodeBool (b : Bool) : decodeBool (encodeBool b) = .ok b := by cases b <;> rfl

theorem encodeBool_of_decode {v : Nat} {b : Bool} (h : decodeBool v = .ok b) : encodeBool b = v := by
  unfold decodeBool at h
  split_ifs at h with h0 h1 <;> cases h
  · exact h0.symm
  · exact h1.symm

theorem checked_of_wellFormed {i : Instr} (h : i.wellFormed = true) : checked i = .ok i := if_pos h

theorem checked_eq_ok {i j : Instr} (h : checked i = .ok j) : i.wellFormed = true ∧ j = i := by
  unfold checked at h
  split_ifs at h with hwf
  cases h
  exact ⟨hwf, rfl⟩

/-- A fraction at or above 0 is read back from its numerator and denominator. -/
theorem decodeDuty_of_nonneg {d : Rat} (h : 0 ≤ d) : decodeDuty d.num.toNat (d.den - 1) = .ok d := by
  have hnum : (d.num.toNat : Int) = d.num := Int.toNat_of_nonneg (Rat.num_nonneg.mpr h)
  have hden : d.den - 1 + 1 = d.den := Nat.sub_add_cancel d.den_pos
  have hd : mkRat d.num.toNat (d.den - 1 + 1) = d := by rw [hnum, hden, Rat.mkRat_self]
  unfold decodeDuty
  simp only [hd]
  exact if_pos ⟨hnum.symm, hden.symm⟩

/-- What reads as a fraction has that numerator and denominator: it was in lowest terms. -/
theorem operands_of_decodeDuty {num den1 : Nat} {d : Rat} (h : decodeDuty num den1 = .ok d) :
    d.num.toNat = num ∧ d.den - 1 = den1 := by
  unfold decodeDuty at h
  simp only at h
  split_ifs at h with hd
  cases h
  rw [hd.1, hd.2]
  exact ⟨Int.toNat_natCast num, rfl⟩

/-! ## Engine phases (R109) -/

theorem decodePhase_channel : ∀ n : Chan, decodePhase (3 + n.val) = .ok (.chUpdate n) := by decide

/-- A phase's operation is encoded by the phase. -/
theorem encode_of_decodePhase {p : Nat} {i : Instr} (h : decodePhase p = .ok i) :
    i.wellFormed = true ∧ encode i = ⟨.M, p, []⟩ := by
  unfold decodePhase at h
  split_ifs at h with h0 h1 h2 h3 h27 h28 <;> cases h
  · exact ⟨rfl, by rw [h0]; rfl⟩
  · exact ⟨rfl, by rw [h1]; rfl⟩
  · exact ⟨rfl, by rw [h2]; rfl⟩
  · refine ⟨rfl, ?_⟩
    have hp : 3 + (p - 3) = p := by omega
    simp only [encode, hp]
  · exact ⟨rfl, by rw [h27]; rfl⟩
  · exact ⟨rfl, by rw [h28]; rfl⟩

/-! ## The formats, one by one -/

theorem decode_phase {key : Nat} (h : key < 32) : decode ⟨.M, key, []⟩ = decodePhase key := if_neg (Nat.not_le.mpr h)

theorem decode_function {key : Nat} (h : key < 8) (args : List Nat) : decode ⟨.F, key, args⟩ = decodeFunction key args :=
  if_neg (Nat.not_le.mpr h)

theorem decode_call {key : Nat} (h : key < 16) (args : List Nat) : decode ⟨.H, key, args⟩ = decodeCall key args :=
  if_neg (Nat.not_le.mpr h)

/-- Settles O58: a write is encoded by the address and byte that decode to it; the operands of a call are read back and
pass the check that the operation is well formed. -/
theorem decodeOfEncodeIsTheOperation : Obligations.DecodeOfEncodeIsTheOperation := by
  unfold Obligations.DecodeOfEncodeIsTheOperation
  intro i hwf
  cases i with
  | setaddr b => exact decode_setaddr b
  | rd c => exact decode_rd c
  | chUpdate n =>
    exact (decode_phase (by omega)).trans (decodePhase_channel n)
  | startW | fin | wdtFeed | hsEval | regReset | freqApply | oeApply | hostInit | hostService => rfl
  | enableOutputs e | hostEnableOutputs e | hostReboot e => cases e <;> rfl
  | setLevel n d =>
    have hd : 0 ≤ d := by
      simp only [Instr.wellFormed, Bool.and_eq_true, decide_eq_true_eq] at hwf
      exact hwf.1.2
    rw [encode, decode_function (by decide), decodeFunction, decodeDuty_of_nonneg hd]
    exact checked_of_wellFormed hwf
  | hostConfigurePort c g l =>
    rw [encode, decode_call (by decide), decodeCall, decodeBool_encodeBool, decodeBool_encodeBool]
    exact checked_of_wellFormed hwf
  | assignChannel | applyFreq | getLevel | isConfigured =>
    exact (decode_function (by decide) _).trans (checked_of_wellFormed hwf)
  | hostConstruct | hostSet | hostGet | hostConfigureFlipperLogic =>
    exact (decode_call (by decide) _).trans (checked_of_wellFormed hwf)
  | _ =>
    obtain ⟨a, b, henc, hdec⟩ := encode_write _ hwf rfl
    rw [henc, decode_writeKey, hdec]

/-! ## What decodes (R108) -/

/-- What a key that decodes has: it fits its format, and the format's own decoder answers the operation. -/
theorem decode_eq_ok {e : Encoded} {i : Instr} (h : decode e = .ok i) :
    e.key < 2 ^ e.format.keyWidth ∧
      (e.format = .F ∧ decodeFunction e.key e.args = .ok i ∨ e.format = .H ∧ decodeCall e.key e.args = .ok i ∨
        e.args = [] ∧ decodeKey e.format e.key = .ok i) := by
  unfold decode at h
  by_cases hfits : 2 ^ e.format.keyWidth ≤ e.key
  · rw [if_pos hfits] at h
    cases h
  rw [if_neg hfits] at h
  refine ⟨Nat.not_le.mp hfits, ?_⟩
  split at h
  · next hf => exact .inl ⟨hf, h⟩
  · next hf => exact .inr (.inl ⟨hf, h⟩)
  · by_cases ha : e.args = []
    · rw [if_pos ha] at h
      exact .inr (.inr ⟨ha, h⟩)
    · rw [if_neg ha] at h
      cases h

/-- An operation without call operands is encoded by the key it was decoded from. -/
theorem encode_of_decodeKey {f : Format} {key : Nat} {i : Instr} (hk : key < 2 ^ f.keyWidth)
    (h : decodeKey f key = .ok i) : i.wellFormed = true ∧ encode i = ⟨f, key, []⟩ := by
  cases f with
  | E =>
    have hk : key < 4 := hk
    interval_cases key <;> cases h <;> exact ⟨rfl, rfl⟩
  | A | R =>
    cases h
    have hbyte : (BitVec.ofNat 8 key).toNat = key := Nat.mod_eq_of_lt hk
    exact ⟨rfl, by rw [encode, hbyte]⟩
  | W =>
    cases h
    have henc := encode_decodeWrite (BitVec.ofNat 8 (key / 256)) (BitVec.ofNat 8 key)
    rwa [writeKey_bytes hk] at henc
  | M => exact encode_of_decodePhase h
  | F | H => cases h

theorem encode_of_decodeFunction {sel : Nat} {args : List Nat} {i : Instr} (h : decodeFunction sel args = .ok i) :
    i.wellFormed = true ∧ encode i = ⟨.F, sel, args⟩ := by
  unfold decodeFunction at h
  split at h
  · obtain ⟨hwf, rfl⟩ := checked_eq_ok h
    exact ⟨hwf, rfl⟩
  · obtain ⟨hwf, rfl⟩ := checked_eq_ok h
    exact ⟨hwf, rfl⟩
  · next n num den1 =>
    cases hd : decodeDuty num den1 with
    | error err => rw [hd] at h; cases h
    | ok d =>
      rw [hd] at h
      obtain ⟨hwf, rfl⟩ := checked_eq_ok h
      obtain ⟨hnum, hden⟩ := operands_of_decodeDuty hd
      exact ⟨hwf, by rw [encode, hnum, hden]⟩
  · obtain ⟨hwf, rfl⟩ := checked_eq_ok h
    exact ⟨hwf, rfl⟩
  · next e =>
    cases he : decodeBool e with
    | error err => rw [he] at h; cases h
    | ok b =>
      rw [he] at h
      cases h
      exact ⟨rfl, by rw [encode, encodeBool_of_decode he]⟩
  · obtain ⟨hwf, rfl⟩ := checked_eq_ok h
    exact ⟨hwf, rfl⟩
  · cases h

theorem encode_of_decodeCall {sel : Nat} {args : List Nat} {i : Instr} (h : decodeCall sel args = .ok i) :
    i.wellFormed = true ∧ encode i = ⟨.H, sel, args⟩ := by
  unfold decodeCall at h
  split at h
  · obtain ⟨hwf, rfl⟩ := checked_eq_ok h
    exact ⟨hwf, rfl⟩
  · cases h
    exact ⟨rfl, rfl⟩
  · obtain ⟨hwf, rfl⟩ := checked_eq_ok h
    exact ⟨hwf, rfl⟩
  · obtain ⟨hwf, rfl⟩ := checked_eq_ok h
    exact ⟨hwf, rfl⟩
  · next c g l =>
    cases hg : decodeBool g with
    | error err => rw [hg] at h; cases h
    | ok gamma =>
      cases hl : decodeBool l with
      | error err => rw [hg, hl] at h; cases h
      | ok low =>
        rw [hg, hl] at h
        obtain ⟨hwf, rfl⟩ := checked_eq_ok h
        exact ⟨hwf, by rw [encode, encodeBool_of_decode hg, encodeBool_of_decode hl]⟩
  · obtain ⟨hwf, rfl⟩ := checked_eq_ok h
    exact ⟨hwf, rfl⟩
  · next e =>
    cases he : decodeBool e with
    | error err => rw [he] at h; cases h
    | ok b =>
      rw [he] at h
      cases h
      exact ⟨rfl, by rw [encode, encodeBool_of_decode he]⟩
  · next b =>
    cases hb : decodeBool b with
    | error err => rw [hb] at h; cases h
    | ok b =>
      rw [hb] at h
      cases h
      exact ⟨rfl, by rw [encode, encodeBool_of_decode hb]⟩
  · cases h
    exact ⟨rfl, rfl⟩
  · cases h

/-- Settles O59: by the format, each format's decoder being undone by the encoder. -/
theorem decodedOperationsEncodeBack : Obligations.DecodedOperationsEncodeBack := by
  unfold Obligations.DecodedOperationsEncodeBack
  rintro ⟨f, key, args⟩ i h
  obtain ⟨hfits, ⟨rfl, hF⟩ | ⟨rfl, hH⟩ | ⟨rfl, hkey⟩⟩ := decode_eq_ok h
  · exact encode_of_decodeFunction hF
  · exact encode_of_decodeCall hH
  · exact encode_of_decodeKey hfits hkey

/-! ## The opcode table (R108) -/

theorem tableMnemonic_channel : ∀ n : Chan, tableMnemonic .M (3 + n.val) = some "CH.UPDATE" := by decide

/-- The table's row of a well-formed operation's key has its mnemonic. -/
theorem tableMnemonic_encode (i : Instr) (hwf : i.wellFormed = true) :
    tableMnemonic (encode i).format (encode i).key = some i.mnemonic := by
  cases i with
  | setaddr b => exact tableMnemonic_setaddr _
  | rd c => exact tableMnemonic_rd _
  | chUpdate n => exact tableMnemonic_channel n
  | startW => exact tableMnemonic_startW
  | fin => exact tableMnemonic_fin
  | wdtFeed | hsEval | regReset | freqApply | oeApply | hostInit | hostService => rfl
  | assignChannel => exact (by decide : tableMnemonic .F 0 = some "AssignChannel")
  | applyFreq => exact (by decide : tableMnemonic .F 1 = some "ApplyFreq")
  | setLevel => exact (by decide : tableMnemonic .F 2 = some "SetLevel")
  | getLevel => exact (by decide : tableMnemonic .F 3 = some "GetLevel")
  | enableOutputs => exact (by decide : tableMnemonic .F 4 = some "EnableOutputs")
  | isConfigured => exact (by decide : tableMnemonic .F 5 = some "IsConfigured")
  | hostConstruct => exact (by decide : tableMnemonic .H 0 = some "Host.Construct")
  | hostSet => exact (by decide : tableMnemonic .H 2 = some "Host.Set")
  | hostGet => exact (by decide : tableMnemonic .H 3 = some "Host.Get")
  | hostConfigurePort => exact (by decide : tableMnemonic .H 4 = some "Host.ConfigurePort")
  | hostConfigureFlipperLogic => exact (by decide : tableMnemonic .H 5 = some "Host.ConfigureFlipperLogic")
  | hostEnableOutputs => exact (by decide : tableMnemonic .H 6 = some "Host.EnableOutputs")
  | hostReboot => exact (by decide : tableMnemonic .H 7 = some "Host.Reboot")
  | _ =>
    obtain ⟨a, b, henc, hdec⟩ := encode_write _ hwf rfl
    rw [henc, tableMnemonic_write, hdec]

/-- Settles O60: the key that decodes is the encoding of the operation, whose row has the operation's mnemonic. -/
theorem decoderAgreesWithTheOpcodeTable : Obligations.DecoderAgreesWithTheOpcodeTable := by
  unfold Obligations.DecoderAgreesWithTheOpcodeTable
  intro e i h
  obtain ⟨hwf, rfl⟩ := decodedOperationsEncodeBack e i h
  exact tableMnemonic_encode i hwf

/-- Settles O57: each key, written out bit by bit, is the encoding of its operation. -/
theorem writtenOutKeysDecode : Obligations.WrittenOutKeysDecode := by
  unfold Obligations.WrittenOutKeysDecode
  have dec := decodeOfEncodeIsTheOperation
  exact ⟨dec .fin rfl, dec (.setaddr 0x34) rfl, dec (.wrLevel 23 0x80) rfl, dec (.wrCtrl0 0x01) rfl,
    dec (.wrFreqHi 0x03) rfl, dec (.wrCfgLimit 5 0x80) rfl, dec (.wrCfgThi 23 0x12) rfl, dec .hsBootsel rfl,
    dec (.hsOther 0x44) rfl, dec (.rd 0x1A) rfl, dec (.chUpdate 23) rfl, dec (.applyFreq 1000) rfl,
    dec (.hostSet 5 255) rfl⟩

end Sys2Proof
end

section
/-! PROOFS. One step, said once for each kind of agenda entry (00_scope.md R7), and what a host call can do; the statements
about the step follow. -/

namespace Sys2Proof.Machine

open Sys2Proof.Safety

/-! ## Engine phases are operations (R109, R160) -/

/-- Every phase number decodes (R109). -/
theorem decode_phaseKey (p : Phase) : ∃ i, decode ⟨.M, p.val, []⟩ = .ok i := by
  fin_cases p <;> exact ⟨_, rfl⟩

/-- The operation of the phase that the engine is at does what the phase does. -/
theorem exec_of_phaseKey {i : Instr} {s : State} (h : decode ⟨.M, s.phase.val, []⟩ = .ok i) :
    exec i s = .next (runPhase Config.device s) := by
  rw [exec_eq_execFor]
  exact execFor_phase _ i s h

theorem runKey_of_ok {ex : Meaning} {e : Encoded} {i : Instr} (h : decode e = .ok i) (s : State) : runKey ex e s = ex i s := by
  simp only [runKey, h]

/-- The engine's step is its next phase, or nothing in the boot loader (R160, R285). -/
theorem engineStep_exec (during : List (List Arrival)) (s : State) :
    engineStep exec during s = .next (enginePhase Config.device during s) := by
  unfold engineStep enginePhase
  split
  · rfl
  · obtain ⟨i, hi⟩ := decode_phaseKey s.phase
    exact (runKey_of_ok hi _).trans (exec_of_phaseKey (s := { s with arrivals := during }) hi)

/-- The step of a bus event delivers it (R44, R276, R285). -/
theorem eventStep_exec (e : BusEvent) (s : State) : eventStep exec e s = .next (deliver Config.device e s) := by
  unfold eventStep deliver
  split
  · rfl
  · split
    · rfl
    · obtain ⟨i, hdec, -, hexec⟩ := handlerRunsTheOperationOfTheTable e s
      exact (runKey_of_ok hdec s).trans hexec

/-! ## Questions to the allocator (R203, R208) -/

/-- What a read-only allocator function answers. -/
def queryAnswer (q : Query) (a : Allocator) : CallReply :=
  match q with
  | .getLevel n => .level (getLevel n a)
  | .isConfigured n => .flag (a.isConfigured n)

/-- The operation of a question. -/
def queryInstr : Query → Instr
  | .getLevel n => .getLevel n.val
  | .isConfigured n => .isConfigured n.val

theorem decode_queryKey (q : Query) : decode (queryKey q) = .ok (queryInstr q) := by
  cases q with
  | getLevel n => exact decodeOfEncodeIsTheOperation (.getLevel n.val) (decide_eq_true n.isLt)
  | isConfigured n => exact decodeOfEncodeIsTheOperation (.isConfigured n.val) (decide_eq_true n.isLt)

/-- Every channel is in the call's range (entry N14). -/
theorem exec_getLevel (n : Chan) (s : State) :
    exec (.getLevel n.val) s = .next { s with callReply := some (.level (getLevel n s.alloc)) } :=
  withChan_val n fun c => { s with callReply := some (.level (getLevel c s.alloc)) }

theorem exec_query (q : Query) (s : State) : exec (queryInstr q) s = .next { s with callReply := some (queryAnswer q s.alloc) } := by
  cases q with
  | getLevel n => exact exec_getLevel n s
  | isConfigured n => exact exec_isConfigured n s

/-- Between two phases the engine asks the allocator; nothing is asked in the boot loader (R7, R285). -/
def ask (q : Query) (s : State) : State :=
  if s.run = .bootloader then s else { s with callReply := some (queryAnswer q s.alloc) }

theorem queryStep_exec (q : Query) (s : State) : queryStep exec q s = .next (ask q s) := by
  unfold queryStep ask
  split
  · rfl
  · exact (runKey_of_ok (decode_queryKey q) s).trans (exec_query q s)

/-! ## Host calls (R240) -/

/-- What a completed driver call is: a conversation on the bus, or a change of the driver object alone. -/
def HostEffect (s t : State) : Prop :=
  (∃ errands, t = converse Config.device errands s) ∨ t = { s with host := t.host, freeCount := t.freeCount }

theorem withChan_eq_next {n : Nat} {k : Chan → State} {t : State} (h : withChan n k = .next t) : ∃ c, t = k c := by
  unfold withChan at h
  split at h
  · next hn => cases h; exact ⟨⟨n, hn⟩, rfl⟩
  · cases h

/-- A format H operation that completes has the effect of a driver call. -/
theorem hostEffect_of_exec {i : Instr} {s t : State} (hH : (encode i).format = .H) (h : exec i s = .next t) :
    HostEffect s t := by
  cases i with
  | hostConstruct addr =>
    simp only [exec, execHostConstruct] at h
    split at h <;> cases h
    exact .inr rfl
  | hostInit => cases h; exact .inr rfl
  | hostSet c v =>
    simp only [exec, execHostSet] at h
    split at h
    · obtain ⟨c, rfl⟩ := withChan_eq_next h
      exact .inr rfl
    · cases h
  | hostGet c =>
    simp only [exec, execHostGet] at h
    obtain ⟨c, rfl⟩ := withChan_eq_next h
    exact .inr rfl
  | hostConfigurePort c gamma low =>
    simp only [exec, execHostConfigurePort] at h
    obtain ⟨c, rfl⟩ := withChan_eq_next h
    exact .inl ⟨_, rfl⟩
  | hostConfigureFlipperLogic c limit timeout =>
    simp only [exec, execHostConfigureFlipperLogic] at h
    split at h
    · obtain ⟨c, rfl⟩ := withChan_eq_next h
      exact .inl ⟨_, rfl⟩
    · cases h
  | hostEnableOutputs e => cases h; exact .inr rfl
  | hostReboot b => cases h; exact .inr rfl
  | hostService => cases h; exact .inl ⟨_, rfl⟩
  | _ => cases hH

/-- A host entry of the agenda that completes has the effect of a driver call. -/
theorem hostEffect_of_runKey {sel : Nat} {args : List Nat} {s t : State} (h : runKey exec ⟨.H, sel, args⟩ s = .next t) :
    HostEffect s t := by
  unfold runKey at h
  split at h
  · next i hi =>
    refine hostEffect_of_exec ?_ h
    rw [(decodedOperationsEncodeBack _ i hi).2]
  · cases h

/-! ## The step, by the next agenda entry (R7) -/

section
variable {s : State} {rest : List Move}

theorem step_empty (h : s.agenda = []) : step s = .next (enginePhase Config.device [] s) := by
  simp only [step, stepWith, h]
  exact engineStep_exec [] s

theorem step_elapse {us : Nat} (h : s.agenda = .elapse us :: rest) :
    step s = .next (besideStep Config.device (.elapse us) { s with agenda := rest }) := by
  simp only [step, stepWith, h]
  rfl

theorem step_watchdog (h : s.agenda = .watchdog :: rest) :
    step s = .next (besideStep Config.device .watchdog { s with agenda := rest }) := by
  simp only [step, stepWith, h]
  rfl

theorem step_event {e : BusEvent} (h : s.agenda = .event e :: rest) :
    step s = .next (deliver Config.device e { s with agenda := rest }) := by
  simp only [step, stepWith, h]
  exact eventStep_exec e _

theorem step_engine {during : List (List Arrival)} (h : s.agenda = .engine during :: rest) :
    step s = .next (besideStep Config.device (.engine during) { s with agenda := rest }) := by
  simp only [step, stepWith, h]
  exact engineStep_exec during _

theorem step_query {q : Query} (h : s.agenda = .query q :: rest) :
    step s = .next (ask q { s with agenda := rest }) := by
  simp only [step, stepWith, h]
  exact queryStep_exec q _

theorem step_host {sel : Nat} {args : List Nat} {beside : List (List Beside)} (h : s.agenda = .host sel args beside :: rest) :
    step s = runKey exec ⟨.H, sel, args⟩ { s with agenda := rest, beside := beside } := by
  simp only [step, stepWith, h]
  rfl

end

/-- Settles O53: each entry but a host call's answers a next state, whatever it is. -/
theorem noDeviceStepIsRefused : Obligations.NoDeviceStepIsRefused := by
  unfold Obligations.NoDeviceStepIsRefused
  intro s hdev
  match hag : s.agenda with
  | [] => exact ⟨_, step_empty hag⟩
  | .elapse us :: rest => exact ⟨_, step_elapse hag⟩
  | .watchdog :: rest => exact ⟨_, step_watchdog hag⟩
  | .event e :: rest => exact ⟨_, step_event hag⟩
  | .engine during :: rest => exact ⟨_, step_engine hag⟩
  | .query q :: rest => exact ⟨_, step_query hag⟩
  | .host _ _ _ :: rest => cases hdev _ _ hag

/-- Settles O49: by the kind of the entry, the step being the meaning of the decoded operation. -/
theorem stepRunsTheDecodedOperation : Obligations.StepRunsTheDecodedOperation := by
  unfold Obligations.StepRunsTheDecodedOperation
  intro s rest i
  refine ⟨fun b h => if_neg h, fun b h => if_pos h, rfl, ?_, ?_, ?_, ?_, ?_, ?_, ?_⟩
  · intro e hag hrun hmask hdec
    obtain ⟨j, hdec', -, hexec⟩ := handlerRunsTheOperationOfTheTable e { s with agenda := rest }
    obtain rfl : i = j := Except.ok.inj (hdec.symm.trans hdec')
    rw [step_event hag, hexec, deliver, if_neg (by simp [hrun]), if_neg (by simp [hmask])]
  · intro during hag hrun hdec
    rw [step_engine hag, exec_of_phaseKey (s := { s with agenda := rest, arrivals := during }) hdec]
    simp only [besideStep, enginePhase, hrun, reduceCtorEq, if_false]
  · intro hag hrun hdec
    rw [step_empty hag, exec_of_phaseKey (s := { s with arrivals := [] }) hdec]
    simp only [enginePhase, hrun, reduceCtorEq, if_false]
  · intro n hag hrun
    rw [step_query hag, exec_getLevel]
    simp only [ask, hrun, reduceCtorEq, if_false, queryAnswer]
  · intro n hag hrun
    rw [step_query hag, exec_isConfigured]
    simp only [ask, hrun, reduceCtorEq, if_false, queryAnswer]
  · intro sel args beside hag hdec
    rw [step_host hag, runKey_of_ok hdec]
  · intro during hrun hdec
    rw [exec_of_phaseKey (s := { s with arrivals := during }) hdec]
    simp only [besideStep, enginePhase, hrun, reduceCtorEq, if_false]

theorem wdtExpired_iff (P : Params) (s : State) :
    wdtExpired P s = true ↔ s.run = .running ∧ P.wdtTimeoutUs < s.now - s.wdtLastFeed := by
  simp only [wdtExpired, Bool.and_eq_true, beq_iff_eq, decide_eq_true_eq]

/-- Settles O50: the watchdog's step is the restart exactly when the device runs and the feed is too old. -/
theorem watchdogRestartsAStalledDevice : Obligations.WatchdogRestartsAStalledDevice := by
  unfold Obligations.WatchdogRestartsAStalledDevice
  intro s rest hag
  rw [step_watchdog hag]
  simp only [besideStep, watchdogStep, wdtExpired_iff]
  refine ⟨fun hrun _ hlate => ?_, fun hrun _ hfed => ?_, fun hrun => ?_⟩
  · rw [if_pos ⟨hrun, hlate⟩]
  · rw [if_neg fun h => absurd h.2 (Nat.not_lt.mpr hfed)]
  · rw [if_neg fun h => absurd (hrun.symm.trans h.1) (by decide)]

/-! ## Operations complete or are refused (entry N14) -/

theorem withChan_next {n : Nat} (h : n < 24) (k : Chan → State) : ∃ t, withChan n k = .next t := ⟨_, dif_pos h⟩

theorem withChan_refused {n : Nat} (h : ¬ n < 24) (k : Chan → State) : withChan n k = .refused .illFormed := dif_neg h

/-- Settles O54: the meanings check the ranges that well-formedness states; the other operations have no range. -/
theorem wellFormedOperationsComplete : Obligations.WellFormedOperationsComplete := by
  unfold Obligations.WellFormedOperationsComplete
  intro i s
  cases i with
  | wrUndoc a b =>
    refine ⟨fun h => ⟨_, if_pos h⟩, fun h => if_neg ?_⟩
    exact Bool.eq_false_iff.mp h
  | hsOther b =>
    simp only [Instr.wellFormed, Bool.not_eq_true', Bool.not_eq_false']
    exact ⟨fun h => ⟨_, if_neg (Bool.eq_false_iff.mp h)⟩, fun h => if_pos h⟩
  | assignChannel n | getLevel n | isConfigured n | hostGet n | hostConfigurePort n _ _ =>
    simp only [Instr.wellFormed, decide_eq_true_eq, decide_eq_false_iff_not, exec, execAssignChannel, execGetLevel,
      execIsConfigured, execHostGet, execHostConfigurePort]
    exact ⟨fun h => withChan_next h _, fun h => withChan_refused h _⟩
  | applyFreq f | hostConstruct f =>
    simp only [Instr.wellFormed, decide_eq_true_eq, decide_eq_false_iff_not]
    exact ⟨fun h => ⟨_, if_pos h⟩, fun h => if_neg h⟩
  | setLevel n d =>
    simp only [Instr.wellFormed, ← Bool.not_eq_true, Bool.and_eq_true, decide_eq_true_eq, exec, execSetLevel]
    refine ⟨fun ⟨⟨hn, h0⟩, h1⟩ => ?_, fun h => ?_⟩
    · rw [if_pos ⟨h0, h1⟩]
      exact withChan_next hn _
    · split
      · next hd => exact withChan_refused (fun hn => h ⟨⟨hn, hd.1⟩, hd.2⟩) _
      · rfl
  | hostSet c v =>
    simp only [Instr.wellFormed, ← Bool.not_eq_true, Bool.and_eq_true, decide_eq_true_eq, exec, execHostSet]
    refine ⟨fun ⟨hc, hv⟩ => ?_, fun h => ?_⟩
    · rw [if_pos hv]
      exact withChan_next hc _
    · split
      · next hv => exact withChan_refused (fun hc => h ⟨hc, hv⟩) _
      · rfl
  | hostConfigureFlipperLogic c limit timeout =>
    simp only [Instr.wellFormed, ← Bool.not_eq_true, Bool.and_eq_true, decide_eq_true_eq, exec,
      execHostConfigureFlipperLogic]
    refine ⟨fun ⟨⟨hc, hl⟩, ht⟩ => ?_, fun h => ?_⟩
    · rw [if_pos ⟨hl, ht⟩]
      exact withChan_next hc _
    · split
      · next hlt => exact withChan_refused (fun hc => h ⟨⟨hc, hlt.1⟩, hlt.2⟩) _
      · rfl
  | _ => exact ⟨fun _ => ⟨_, rfl⟩, fun h => absurd h (by simp [Instr.wellFormed])⟩

end Sys2Proof.Machine
end

section
/-! PROOFS. Every step keeps the machine's invariant (Safety.lean): each phase keeps the part that holds inside a phase and
re-establishes the rest at its end, each restart leaves boot values, and a driver call is made of phases, restarts and bus
events. -/

namespace Sys2Proof.Machine

/-! ## `ComputeDivRes` stays inside the hardware's bounds (R40, R205) -/

theorem computeDivRes_bounds {P : Params} (h : P.WellFormed) (k : ResClass) (f : Half) :
    ((P.cls k).divMin ≤ (computeDivRes (P.cls k) f).div ∧ (computeDivRes (P.cls k) f).div ≤ (P.cls k).divMax) ∧
    1 ≤ (computeDivRes (P.cls k) f).res ∧ (computeDivRes (P.cls k) f).res ≤ (P.cls k).resMax := by
  have hdiv := h.divOrder k
  have hres := h.resMaxPos k
  unfold computeDivRes floorConfig
  split
  · exact ⟨⟨hdiv, le_rfl⟩, hres, le_rfl⟩
  split
  · exact ⟨⟨le_rfl, hdiv⟩, clampCount_mem hres _⟩
  split
  · exact ⟨⟨hdiv, le_rfl⟩, hres, le_rfl⟩
  · exact ⟨clampDiv_mem hdiv _, hres, le_rfl⟩

/-- A write of the register reset spares the identification registers and leaves 0 at the handshake register. -/
def ResetWrite.spares : ResetWrite → Prop
  | .byte a v => a ≠ 0x1E ∧ a ≠ 0x1F ∧ (a = 0xDD → v = 0)
  | .field a _ => (a ≠ 0x1E ∧ a ≠ 0x1F ∧ a ≠ 0xDD) ∧ a + 1 ≠ 0x1E ∧ a + 1 ≠ 0x1F ∧ a + 1 ≠ 0xDD

theorem resetGroup_spares (n : Chan) : ∀ w ∈ resetGroup n, w.spares := by
  intro w hw
  simp only [resetGroup, List.mem_cons, List.not_mem_nil, or_false] at hw
  obtain rfl | rfl | rfl := hw
  · exact ⟨(Safety.cfgAddr_plain n 0).1, (Safety.cfgAddr_plain n 0).2.1, fun _ => rfl⟩
  · exact ⟨(Safety.cfgAddr_plain n 1).1, (Safety.cfgAddr_plain n 1).2.1,
      fun h => absurd h (Safety.cfgAddr_plain n 1).2.2⟩
  · refine ⟨Safety.cfgAddr_plain n 2, ?_⟩
    rw [cfgAddr_timeout_succ]
    exact Safety.cfgAddr_plain n 3

/-- Every write of the register reset does (R163). -/
theorem resetScript_spares : ∀ w ∈ resetScript Config.device, w.spares := by
  intro w hw
  unfold resetScript at hw
  simp only [List.mem_append, List.mem_map, List.mem_flatMap, List.mem_range] at hw
  obtain ((⟨n, -, rfl⟩ | hctl) | ⟨n, -, hn⟩) | ⟨i, hi, rfl⟩ := hw
  · exact ⟨(Safety.levelAddr_plain n).1, (Safety.levelAddr_plain n).2.1, fun _ => rfl⟩
  · simp only [List.mem_cons, List.not_mem_nil, or_false] at hctl
    obtain rfl | rfl | rfl | rfl | rfl := hctl <;> simp only [ResetWrite.spares] <;> decide
  · exact resetGroup_spares n w hn
  · have hi : i < 128 := hi
    exact ⟨by bv_omega, by bv_omega, fun _ => rfl⟩

end Sys2Proof.Machine

namespace Sys2Proof.Safety

open Sys2Proof.Machine

/-! ## Fields the invariant does not look at -/

theorem PhaseInv.ofAlloc {s t : State} (h : PhaseInv s) (ha : AllocInv t)
    (ht : t = { s with alloc := t.alloc, duty := t.duty, deadline := t.deadline, lastLevel := t.lastLevel, log := t.log
                       appliedFreq := t.appliedFreq, appliedEnable := t.appliedEnable }) : PhaseInv t :=
  h.congr (by rw [ht]) (by rw [ht]) (by rw [ht]) (by rw [ht]) (by rw [ht]) (by rw [ht]) ha

/-- The host driver, the answers, the draw counter and the inputs may change. -/
theorem Inv.inputs {s t : State} (h : Inv s)
    (ht : t = { s with host := t.host, busReply := t.busReply, callReply := t.callReply, freeCount := t.freeCount
                       agenda := t.agenda, line := t.line, beside := t.beside, link := t.link }) : Inv t := by
  rw [ht]
  have hp := PhaseInv.ofInv h
  exact PhaseInv.toInv (hp.congr rfl rfl rfl rfl rfl rfl (hp.alloc.congr rfl rfl rfl)) h.unmasked.2.2

theorem Inv.elapse {s : State} (h : Inv s) (us : Nat) : Inv { s with now := s.now + us } := by
  have hp := PhaseInv.ofInv h
  have hreg : RegInv { s with now := s.now + us } :=
    hp.reg.congr rfl rfl (Nat.le_add_right _ _) (le_trans hp.reg.clock.1 (Nat.le_add_right _ _))
  exact PhaseInv.toInv ⟨hreg, hp.alloc.congr rfl rfl rfl, hp.mask⟩ h.unmasked.2.2

theorem Inv.deliver {s : State} (h : Inv s) (e : BusEvent) : Inv (deliver Config.device e s) := by
  obtain ⟨hp, harr⟩ := (PhaseInv.ofInv h).deliver e
  exact hp.toInv (harr.trans h.unmasked.2.2)

theorem Inv.takeLine {s : State} (h : Inv s) : Inv (takeLine Config.device s) := by
  obtain ⟨hp, harr⟩ := (PhaseInv.ofInv h).takeLine
  exact hp.toInv (harr.trans h.unmasked.2.2)

/-! ## The phases -/

theorem PhaseInv.wdtFeed {s : State} (h : PhaseInv s) : Inv (wdtFeed Config.device s) := by
  have hfed : PhaseInv { s with wdtLastFeed := s.now } :=
    ⟨h.reg.congr rfl rfl le_rfl le_rfl, h.alloc.congr rfl rfl rfl, h.mask⟩
  exact hfed.endPhase 1

theorem PhaseInv.hsEval {s : State} (h : PhaseInv s) : Inv (hsEval Config.device s) := by
  unfold Machine.hsEval
  dsimp only
  split
  · exact h.window.restart _
  · exact h.window.endPhase 2

theorem PhaseInv.resetWrite {s : State} (h : PhaseInv s) {w : ResetWrite} (hw : w.spares) :
    PhaseInv (resetWrite Config.device w s) := by
  cases w with
  | byte a v =>
    obtain ⟨h1, h2, h3⟩ := hw
    exact ⟨h.window.reg.write a v h1 h2 h3, h.window.alloc.congr rfl rfl rfl, h.window.mask⟩
  | field a v =>
    obtain ⟨⟨h1, h2, h3⟩, k1, k2, k3⟩ := hw
    have hin : RegInv (enterSection (Machine.window Config.device s)) := h.window.reg.congr rfl rfl le_rfl h.window.reg.clock.1
    exact leaveSection_phaseInv
      ((hin.write a (loByte v) h1 h2 fun e => absurd e h3).write (a + 1) (hiByte v) k1 k2 fun e => absurd e k3)
      (h.window.alloc.congr rfl rfl rfl)

theorem PhaseInv.runScript {ws : List ResetWrite} (hws : ∀ w ∈ ws, w.spares) {s : State} (h : PhaseInv s) :
    PhaseInv (runScript Config.device ws s) := by
  induction ws generalizing s with
  | nil => exact h
  | cons w ws ih =>
    rw [List.forall_mem_cons] at hws
    exact ih hws.2 (h.resetWrite hws.1)

/-- No duty has been pushed after the runtime state is initialised. -/
theorem PhaseInv.initRuntime {s : State} (h : PhaseInv s) : PhaseInv (initRuntime s) := by
  refine h.ofAlloc ⟨h.alloc.mapping, fun n => ⟨(h.alloc.levels n).1, fun d hd => ?_⟩, h.alloc.inert, h.alloc.counts,
    h.alloc.settings, h.alloc.hiz⟩ rfl
  simp at hd

theorem PhaseInv.clearRequest {s : State} (h : PhaseInv s) : PhaseInv (clearRequest Config.device s) := by
  have hin : RegInv (enterSection (Machine.window Config.device s)) := h.window.reg.congr rfl rfl le_rfl h.window.reg.clock.1
  exact leaveSection_phaseInv (hin.write ctrl0Addr _ (by decide) (by decide) fun e => absurd e (by decide))
    (h.window.alloc.congr rfl rfl rfl)

theorem PhaseInv.regReset {s : State} (h : PhaseInv s) : Inv (regReset Config.device s) := by
  unfold Machine.regReset
  dsimp only
  split
  · exact (h.window.runScript resetScript_spares).initRuntime.clearRequest.endPhase 3
  · exact h.window.endPhase 3

theorem PhaseInv.updateDeadline {s : State} (h : PhaseInv s) (n : Chan) (L prev limit : Byte) (dl : Option Nat) (now : Nat) :
    PhaseInv (updateDeadline Config.device n L prev limit dl now s).state := by
  have hr := h.engAtomicRead (cfgAddr n 2) 2
  unfold Machine.updateDeadline
  split
  · split
    · split
      · next heq => rw [heq] at hr; exact hr
      · next heq => rw [heq] at hr; exact hr
    · exact h
  · exact h

/-- A duty of the unit interval is noted as the one last pushed. -/
theorem AllocInv.pushDuty {s : State} (h : AllocInv s) (n : Chan) {d : Rat} (hd : 0 ≤ d ∧ d ≤ 1) :
    AllocInv { s with duty := s.duty.set n (some d) } := by
  refine ⟨h.mapping, fun m => ⟨(h.levels m).1, fun d' hd' => ?_⟩, h.inert, h.counts, h.settings, h.hiz⟩
  simp only [Fin.getElem_fin, Vector.getElem_set] at hd'
  split at hd'
  · cases hd'
    exact hd
  · exact (h.levels m).2 d' hd'

theorem PhaseInv.chUpdatePush {s : State} (h : PhaseInv s) (n : Chan) (t : Nat) (L limit : Byte) :
    Inv (chUpdatePush Config.device n t L limit s) := by
  unfold Machine.chUpdatePush
  dsimp only
  split
  · exact h.window.endPhase _
  · have hd := calcDuty_unit Config.device Config.device_wellFormed
    exact PhaseInv.endPhase _ (h.window.ofAlloc ((h.window.alloc.setLevel n _ (hd _ _)).pushDuty n (hd _ _)) rfl)

theorem PhaseInv.chUpdateSeen {s : State} (h : PhaseInv s) (n : Chan) (t : Nat) (L : Byte) :
    Inv (chUpdateSeen Config.device n t L s) := by
  have hw : PhaseInv (engRead Config.device (cfgAddr n 1) s).2 := h.window
  unfold Machine.chUpdateSeen
  generalize engRead Config.device (cfgAddr n 1) s = r at hw ⊢
  obtain ⟨limit, w⟩ := r
  dsimp only at hw ⊢
  have hu := hw.updateDeadline n L w.lastLevel[n] limit w.deadline[n] t
  generalize Machine.updateDeadline Config.device n L w.lastLevel[n] limit w.deadline[n] t w = u at hu ⊢
  split
  · exact hw.chUpdatePush n t L _
  · split
    · refine PhaseInv.chUpdatePush ?_ n t L _
      exact hu.ofAlloc (hu.alloc.congr rfl rfl rfl) rfl
    · exact hu.endPhase _

theorem PhaseInv.chUpdate {s : State} (h : PhaseInv s) (n : Chan) : Inv (chUpdate Config.device n s) := by
  have hr := h.engAtomicRead (levelAddr n) 1
  unfold Machine.chUpdate
  split
  · next heq => rw [heq] at hr; exact hr.endPhase _
  · next heq => rw [heq] at hr; exact hr.chUpdateSeen n _ _

/-- `ApplyFreq` keeps the allocator's part: a class whose cycle length changed has its counts recomputed (R204, R206). -/
theorem AllocInv.applyFreq {s : State} (h : AllocInv s) (f : Half) : AllocInv (applyFreq Config.device f s) := by
  have hch := applyFreqAlloc_changes Config.device f s.alloc
  have hbind : (applyFreqAlloc Config.device f s.alloc).binding = s.alloc.binding := by rw [hch]
  have hlev : (applyFreqAlloc Config.device f s.alloc).level = s.alloc.level := by rw [hch]
  constructor
  · unfold MappingFixed
    rw [applyFreq_alloc, hch]
    exact h.mapping
  · intro n
    rw [applyFreq_alloc, hlev]
    exact h.levels n
  · intro n hn
    rw [applyFreq_alloc, hbind] at hn
    rw [applyFreq_alloc, hlev, applyFreqAlloc_count_inert _ f hn]
    exact h.inert n hn
  · intro n k rs hn hrs
    rw [applyFreq_alloc, hbind] at hn
    rw [applyFreq_alloc, applyFreqAlloc_cls, Option.some.injEq] at hrs
    subst hrs
    rw [applyFreq_alloc, hlev, applyFreqAlloc_count_bound _ f hn]
    split
    · next hres => exact h.counts n k _ hn hres
    · rfl
  · intro k
    obtain ⟨hdiv, hres⟩ := computeDivRes_bounds Config.device_wellFormed k f
    rw [applyFreq_alloc, applyFreqAlloc_cls]
    exact ⟨fun rs e => Option.some.inj e ▸ hres, fun dv e => Option.some.inj e ▸ hdiv⟩
  · intro hb
    rw [applyFreq_alloc, hch]
    exact h.hiz hb

theorem PhaseInv.freqApply {s : State} (h : PhaseInv s) : Inv (freqApply Config.device s) := by
  have hr := h.engAtomicRead freqAddr 2
  unfold Machine.freqApply
  split
  · next heq => rw [heq] at hr; exact hr.endPhase _
  · next f w heq =>
    rw [heq] at hr
    have hw : PhaseInv w := hr
    split
    · exact hw.endPhase _
    · exact PhaseInv.endPhase _ (hw.ofAlloc ((hw.alloc.applyFreq _).congr rfl rfl rfl) rfl)

/-- The outputs are enabled in a running device only (R285). -/
theorem PhaseInv.oeApply {s : State} (h : PhaseInv s) (hrun : s.run = .running) : Inv (oeApply Config.device s) := by
  unfold Machine.oeApply
  dsimp only
  split
  · exact h.window.endPhase _
  · have hrun' : (Machine.window Config.device s).run = .running := (window_isrOnly _ s).run.trans hrun
    exact PhaseInv.endPhase _ (h.window.ofAlloc ((h.window.alloc.enableOutputs _ hrun').congr rfl rfl rfl) rfl)

/-- Every phase of a running device ends with the invariant. -/
theorem PhaseInv.runPhase {s : State} (h : PhaseInv s) (hrun : s.run = .running) : Inv (runPhase Config.device s) := by
  unfold Machine.runPhase
  split
  · exact h.wdtFeed
  split
  · exact h.hsEval
  split
  · exact h.regReset
  split
  · exact h.chUpdate _
  split
  · exact h.freqApply
  · exact h.oeApply hrun

theorem Inv.enginePhase {s : State} (h : Inv s) (during : List (List Arrival)) :
    Inv (enginePhase Config.device during s) := by
  unfold Machine.enginePhase
  split
  · exact h
  · next hrun =>
    refine PhaseInv.runPhase ((PhaseInv.ofInv h).arrivals during) ?_
    show s.run = .running
    cases hr : s.run with
    | running => rfl
    | bootloader => exact absurd hr hrun

/-! ## The other agents, and host calls -/

theorem Inv.besideStep {s : State} (h : Inv s) (b : Beside) : Inv (besideStep Config.device b s) := by
  cases b with
  | elapse us => exact h.elapse us
  | watchdog =>
    simp only [Machine.besideStep, watchdogStep]
    split
    · exact (PhaseInv.ofInv h).restart _
    · exact h
  | engine during => exact h.enginePhase during

theorem Inv.ask {s : State} (h : Inv s) (q : Query) : Inv (ask q s) := by
  unfold Machine.ask
  split
  · exact h
  · exact h.inputs rfl

/-- A call keeps the invariant: what goes on beside it does, and so do its bus events. -/
theorem Inv.converse {s : State} (h : Inv s) (errands : List Errand) : Inv (converse Config.device errands s) := by
  have hsent : Inv (sendAll Config.device errands s) :=
    transmit_induction Config.device Inv (fun b _ hu => hu.besideStep b) (fun _ hu => hu.takeLine)
      (fun _ _ hu => hu.inputs rfl) _ _ (h.inputs rfl)
  exact hsent.inputs rfl

theorem Inv.hostEffect {s t : State} (h : Inv s) (ht : HostEffect s t) : Inv t := by
  obtain ⟨errands, rfl⟩ | ht := ht
  · exact h.converse errands
  · rw [ht]
    exact h.inputs rfl

/-- Settles O56: by the next agenda entry. -/
theorem everyStepKeepsTheInvariant : Obligations.EveryStepKeepsTheInvariant := by
  unfold Obligations.EveryStepKeepsTheInvariant
  intro s t h ht
  have taken : ∀ rest, Inv { s with agenda := rest } := fun rest => h.inputs rfl
  match hag : s.agenda with
  | [] =>
    rw [step_empty hag] at ht
    cases ht
    exact h.enginePhase []
  | .elapse us :: rest =>
    rw [step_elapse hag] at ht
    cases ht
    exact (taken rest).besideStep _
  | .watchdog :: rest =>
    rw [step_watchdog hag] at ht
    cases ht
    exact (taken rest).besideStep _
  | .event e :: rest =>
    rw [step_event hag] at ht
    cases ht
    exact (taken rest).deliver e
  | .engine during :: rest =>
    rw [step_engine hag] at ht
    cases ht
    exact (taken rest).besideStep _
  | .query q :: rest =>
    rw [step_query hag] at ht
    cases ht
    exact (taken rest).ask q
  | .host sel args beside :: rest =>
    rw [step_host hag] at ht
    exact Inv.hostEffect (h.inputs rfl) (hostEffect_of_runKey ht)

/-- Settles O55: power-on leaves what the boot sequence leaves, which has the invariant. -/
theorem invariantHoldsAfterPowerOn : Obligations.InvariantHoldsAfterPowerOn := by
  unfold Obligations.InvariantHoldsAfterPowerOn
  exact hardwareReset_inv State.reset

end Sys2Proof.Safety
end

section
/-! PROOFS. The statements about the engine's phases (41_engine.md): what each phase may change whatever lands in it, and what
it does when nothing lands. -/

namespace Sys2Proof.Machine

open Sys2Proof.Safety

/-! ## Pure functions (R167 to R169) -/

theorem calcDuty_activeLow (P : Params) (e mode : Byte) (h : activeLowBit mode = true) :
    calcDuty P e mode = 1 - calcDuty P e (mode &&& 0xFE) := by
  have hlow : activeLowBit (mode &&& 0xFE) = false := by simp [activeLowBit]
  have hgamma : gammaBit (mode &&& 0xFE) = gammaBit mode := by simp [gammaBit]
  simp only [calcDuty, h, hlow, hgamma, if_true, Bool.false_eq_true, if_false]

theorem calcDuty_activeHigh (P : Params) (e mode : Byte) (h : activeLowBit mode = false) :
    calcDuty P e mode = if gammaBit mode ≠ P.gammaSelectInverted then P.gammaTable e else P.linearTable e := by
  simp only [calcDuty, h, Bool.false_eq_true, if_false]
  cases gammaBit mode <;> cases P.gammaSelectInverted <;> rfl

/-- Settles O27: by the mode's two bits. -/
theorem dutyIsMappedThenInverted : Obligations.DutyIsMappedThenInverted := by
  unfold Obligations.DutyIsMappedThenInverted
  refine ⟨fun P e mode hP => ⟨calcDuty_unit P hP e mode, calcDuty_activeLow P e mode, fun h hg => ?_, fun h hg => ?_⟩,
    fun e => ⟨rfl, rfl⟩⟩
  · rw [calcDuty_activeHigh P e mode h]
    exact if_pos hg
  · rw [calcDuty_activeHigh P e mode h]
    exact if_neg (not_not.mpr hg)

/-- Settles O28: the branches of `UpdateDeadline` with no event in between, and of `EffectiveLevel`. -/
theorem throttleDeadlineAndOverride : Obligations.ThrottleDeadlineAndOverride := by
  unfold Obligations.ThrottleDeadlineAndOverride
  refine ⟨?_, fun L limit now => ⟨rfl, fun t => ⟨fun h => if_pos h, fun h => if_neg (Nat.not_le.mpr h)⟩⟩⟩
  · intro n L prev limit dl now s hq u
    have hu : u = _ := updateDeadline_quiet Config.device n L prev limit dl now s hq
    refine ⟨?_, fun h => ?_, fun hL hp => ?_, fun hL hp hw => ?_, fun hL hp hw => ?_⟩
    · rw [hu]
      split_ifs <;> rfl
    · rw [hu, if_neg (BitVec.not_lt.mpr h)]
      exact ⟨rfl, rfl⟩
    · rw [hu, if_pos hL, if_neg (BitVec.not_le.mpr hp)]
      exact ⟨rfl, rfl⟩
    · rw [hu, if_pos hL, if_pos hp, if_pos hw]
    · rw [hu, if_pos hL, if_pos hp, if_neg (by simp [hw])]
      exact ⟨rfl, rfl⟩

/-! ## What a phase may change, whatever lands in it (R84, R151) -/

/-- The end of a phase after an ISR-only change. -/
theorem endPhase_isrOnly (P : Params) (p : Phase) {s t : State} (h : IsrOnly s t) :
    IsrOnly { s with phase := p } (endPhase P p t) := by
  have hp : IsrOnly { s with phase := p } { t with phase := p } := by
    unfold IsrOnly at *
    rw [h]
  exact hp.trans (endPhase_changes P p t)

@[simp] theorem endPhase_phase (P : Params) (p : Phase) (s : State) : (endPhase P p s).phase = p := rfl

theorem wdtFeed_isrOnly (P : Params) (s : State) : IsrOnly { s with wdtLastFeed := s.now, phase := 1 } (wdtFeed P s) :=
  endPhase_isrOnly P 1 (IsrOnly.refl { s with wdtLastFeed := s.now })

/-- Settles O20: the feed is noted before anything lands in the phase. -/
theorem watchdogFeedTakesTheClock : Obligations.WatchdogFeedTakesTheClock := by
  unfold Obligations.WatchdogFeedTakesTheClock
  intro s
  have h := wdtFeed_isrOnly Config.device s
  exact ⟨wdtFeed Config.device s, rfl, h.wdtLastFeed, h.phase, h, fun ha => endPhase_quiet _ _ ha⟩

theorem hsEval_due {P : Params} {s : State} {kind : ResetKind} (h : restartDue P s.now (window P s).hs = some kind) :
    hsEval P s = restart P (restartOf kind) (window P s) := by
  simp only [hsEval, h]

theorem hsEval_notDue {P : Params} {s : State} (h : restartDue P s.now (window P s).hs = none) :
    hsEval P s = endPhase P 2 (window P s) := by
  simp only [hsEval, h]

theorem restartDue_eq_some_iff {P : Params} {now : Nat} {h : Handshake} {kind : ResetKind} :
    restartDue P now h = some kind ↔ ∃ t, h = .confirmed kind t ∧ P.resetGraceUs ≤ now - t := by
  cases h with
  | confirmed k t =>
    simp only [restartDue, Option.ite_none_right_eq_some, Option.some.injEq, Handshake.confirmed.injEq]
    constructor
    · rintro ⟨hg, rfl⟩
      exact ⟨t, ⟨rfl, rfl⟩, hg⟩
    · rintro ⟨t', ⟨rfl, rfl⟩, hg⟩
      exact ⟨hg, rfl⟩
  | idle | armed => simp [restartDue]

theorem restartDue_eq_none {P : Params} {now : Nat} {h : Handshake}
    (hn : ∀ kind t, h = .confirmed kind t → now - t < P.resetGraceUs) : restartDue P now h = none := by
  rw [Option.eq_none_iff_forall_ne_some]
  intro kind hk
  obtain ⟨t, rfl, hg⟩ := restartDue_eq_some_iff.mp hk
  exact absurd (hn kind t rfl) (Nat.not_lt.mpr hg)

/-- Settles O21: by whether the handshake sampled in the window asks for a restart. -/
theorem handshakeEvalRestartsExactlyWhenDue : Obligations.HandshakeEvalRestartsExactlyWhenDue := by
  unfold Obligations.HandshakeEvalRestartsExactlyWhenDue
  refine fun s => ⟨fun kind t₀ hh hg => ?_, fun hn => ?_⟩
  · have hdue := restartDue_eq_some_iff.mpr ⟨t₀, hh, hg⟩
    refine congrArg Host.Outcome.next ((hsEval_due hdue).trans ?_)
    cases kind <;> rfl
  · have hnone := restartDue_eq_none hn
    refine ⟨_, rfl, ?_, fun ha => ?_⟩
    · rw [hsEval_notDue hnone]
      exact endPhase_isrOnly _ 2 (window_isrOnly _ s)
    · rw [hsEval_notDue hnone, window_quiet _ ha, endPhase_quiet _ _ ha]

theorem resetWrite_isrOnly (P : Params) (w : ResetWrite) (s : State) : IsrOnly s (resetWrite P w s) := by
  cases w with
  | byte a v => exact engWrite_isrOnly P a v s
  | field a v => exact engWrite16_isrOnly P a v s

theorem runScript_isrOnly (P : Params) (ws : List ResetWrite) (s : State) : IsrOnly s (runScript P ws s) := by
  induction ws generalizing s with
  | nil => rfl
  | cons w ws ih => exact (resetWrite_isrOnly P w s).trans (ih _)

theorem clearRequest_isrOnly (P : Params) (s : State) : IsrOnly s (clearRequest P s) :=
  ((window_isrOnly P s).trans
    (u := regWrite P ctrl0Addr (regRead P ctrl0Addr (enterSection (window P s)) &&& 0x7F) (enterSection (window P s))) rfl).trans
    (leaveSection_isrOnly P _)

/-- `REG.RESET` changes the runtime state, the phase, and what the handler may change. -/
theorem regReset_isrOnly (P : Params) (s : State) :
    IsrOnly
      { s with
        phase := 3, lastLevel := (regReset P s).lastLevel, duty := (regReset P s).duty
        deadline := (regReset P s).deadline }
      (regReset P s) := by
  have hr := engRead_isrOnly P ctrl0Addr s
  unfold regReset
  dsimp only
  split
  · have hs := hr.trans (runScript_isrOnly P (resetScript P) _)
    have hi : IsrOnly (initRuntime s) (initRuntime (runScript P (resetScript P) (engRead P ctrl0Addr s).2)) := by
      unfold IsrOnly initRuntime at *
      rw [hs]
    have h := endPhase_isrOnly P 3 (hi.trans (clearRequest_isrOnly P _))
    rw [h.lastLevel, h.duty, h.deadline]
    exact h
  · have h := endPhase_isrOnly P 3 hr
    rw [h.lastLevel, h.duty, h.deadline]
    exact h

/-- What `CH.UPDATE n` may change: what the handler may change, the phase, and the runtime state, level and count of channel
`n`. -/
structure ChannelOnly (n : Chan) (s t : State) : Prop where
  frame  : IsrOnly
    { s with phase := t.phase, lastLevel := t.lastLevel, duty := t.duty, deadline := t.deadline, alloc := t.alloc } t
  alloc  : t.alloc = { s.alloc with level := t.alloc.level, count := t.alloc.count }
  others : ∀ m : Chan, m ≠ n → t.lastLevel[m] = s.lastLevel[m] ∧ t.duty[m] = s.duty[m] ∧ t.deadline[m] = s.deadline[m] ∧
    t.alloc.level[m] = s.alloc.level[m] ∧ t.alloc.count[m] = s.alloc.count[m]

theorem ChannelOnly.ofIsrOnly (n : Chan) {s t : State} (h : IsrOnly s t) : ChannelOnly n s t := by
  refine ⟨?_, by rw [h.alloc], fun m _ => by rw [h.lastLevel, h.duty, h.deadline, h.alloc]; simp⟩
  unfold IsrOnly at *
  rw [h]

theorem ChannelOnly.trans {n : Chan} {s t u : State} (h : ChannelOnly n s t) (k : ChannelOnly n t u) : ChannelOnly n s u := by
  obtain ⟨hf, ha, ho⟩ := h
  obtain ⟨kf, ka, ko⟩ := k
  refine ⟨?_, by rw [ka, ha], fun m hm => ?_⟩
  · unfold IsrOnly at *
    rw [kf, hf]
  · obtain ⟨h1, h2, h3, h4, h5⟩ := ho m hm
    obtain ⟨k1, k2, k3, k4, k5⟩ := ko m hm
    exact ⟨k1.trans h1, k2.trans h2, k3.trans h3, k4.trans h4, k5.trans h5⟩

theorem endPhase_channelOnly (P : Params) (n : Chan) (p : Phase) (s : State) : ChannelOnly n s (endPhase P p s) :=
  ChannelOnly.trans (t := { s with phase := p }) ⟨rfl, rfl, fun _ _ => ⟨rfl, rfl, rfl, rfl, rfl⟩⟩
    (.ofIsrOnly n (endPhase_changes P p s))

theorem getElem_set_other {α : Type} {n m : Chan} (h : m ≠ n) (v : Vector α 24) (x : α) : (v.set n x)[m] = v[m] :=
  Vector.getElem_set_ne n.isLt m.isLt (Fin.val_ne_of_ne h.symm)

theorem getElem_set_self (n : Chan) {α : Type} (v : Vector α 24) (x : α) : (v.set n x)[n] = x := Vector.getElem_set_self _

theorem chUpdatePush_channelOnly (P : Params) (n : Chan) (t : Nat) (L limit : Byte) (s : State) :
    ChannelOnly n s (chUpdatePush P n t L limit s) := by
  have hr := ChannelOnly.ofIsrOnly n (engRead_isrOnly P (cfgAddr n 0) s)
  unfold chUpdatePush
  dsimp only
  split
  · exact hr.trans (endPhase_channelOnly P n _ _)
  · refine (hr.trans ?_).trans (endPhase_channelOnly P n _ _)
    exact ⟨rfl, setLevel_changes n _ _, fun m hm => ⟨rfl, getElem_set_other hm _ _, rfl, setLevel_other n m hm _ _⟩⟩

theorem chUpdateSeen_channelOnly (P : Params) (n : Chan) (t : Nat) (L : Byte) (s : State) :
    ChannelOnly n s (chUpdateSeen P n t L s) := by
  have hr := ChannelOnly.ofIsrOnly n (engRead_isrOnly P (cfgAddr n 1) s)
  unfold chUpdateSeen
  generalize engRead P (cfgAddr n 1) s = r at hr ⊢
  obtain ⟨limit, w⟩ := r
  dsimp only at hr ⊢
  have hu := ChannelOnly.ofIsrOnly n (updateDeadline_isrOnly P n L w.lastLevel[n] limit w.deadline[n] t w)
  generalize updateDeadline P n L w.lastLevel[n] limit w.deadline[n] t w = u at hu ⊢
  split
  · exact hr.trans (chUpdatePush_channelOnly P n t L _ w)
  split
  · refine ((hr.trans hu).trans ?_).trans (chUpdatePush_channelOnly P n t L _ _)
    exact ⟨rfl, rfl, fun m hm => ⟨getElem_set_other hm _ _, rfl, getElem_set_other hm _ _, rfl, rfl⟩⟩
  · exact (hr.trans hu).trans (endPhase_channelOnly P n _ _)

theorem chUpdate_channelOnly (P : Params) (n : Chan) (s : State) : ChannelOnly n s (chUpdate P n s) := by
  have h := ChannelOnly.ofIsrOnly n (engAtomicRead_isrOnly P (levelAddr n) 1 s)
  unfold chUpdate
  split
  · next heq => rw [heq] at h; exact h.trans (endPhase_channelOnly P n _ _)
  · next heq => rw [heq] at h; exact h.trans (chUpdateSeen_channelOnly P n _ _ _)

/-- Settles O26: the phase changes its channel's runtime state, level and count, and what the handler may change. -/
theorem channelUpdateTouchesItsChannelOnly : Obligations.ChannelUpdateTouchesItsChannelOnly := by
  unfold Obligations.ChannelUpdateTouchesItsChannelOnly
  intro n s t ht
  cases ht
  obtain ⟨hf, ha, ho⟩ := chUpdate_channelOnly Config.device n s
  exact ⟨ho, ha, hf.log, hf.appliedFreq, hf.appliedEnable, hf.wdtLastFeed, hf.run, hf.host⟩

/-- `FREQ.APPLY` changes the settings and counts, the log, the frequency last applied, the phase, and what the handler may
change. -/
theorem freqApply_isrOnly (P : Params) (s : State) :
    IsrOnly
      { s with
        phase := 28, alloc := (freqApply P s).alloc, log := (freqApply P s).log, appliedFreq := (freqApply P s).appliedFreq }
      (freqApply P s) ∧
    (freqApply P s).alloc.outEnabled = s.alloc.outEnabled := by
  have hr := engAtomicRead_isrOnly P freqAddr 2 s
  unfold freqApply
  split
  · next heq =>
    rw [heq] at hr
    have h := endPhase_isrOnly P 28 hr
    rw [h.alloc, h.log, h.appliedFreq]
    exact ⟨h, rfl⟩
  · next f w heq =>
    rw [heq] at hr
    have hw : IsrOnly s w := hr
    split
    · have h := endPhase_isrOnly P 28 hw
      rw [h.alloc, h.log, h.appliedFreq]
      exact ⟨h, rfl⟩
    · have h := endPhase_changes P 28 { applyFreq P (BitVec.ofNat 16 f) w with appliedFreq := some (BitVec.ofNat 16 f) }
      have hout : (applyFreqAlloc P (BitVec.ofNat 16 f) w.alloc).outEnabled = w.alloc.outEnabled := by
        rw [applyFreqAlloc_changes]
      rw [h.alloc, h.log, h.appliedFreq]
      refine ⟨IsrOnly.trans ?_ h, hout.trans (congrArg Allocator.outEnabled hw.alloc)⟩
      unfold IsrOnly at *
      simp only [applyFreq]
      rw [hw]

/-- `OE.APPLY` changes the output state, the bit last applied, the phase, and what the handler may change. -/
theorem oeApply_isrOnly (P : Params) (s : State) :
    IsrOnly
      { s with phase := 0, alloc := (oeApply P s).alloc, appliedEnable := (oeApply P s).appliedEnable } (oeApply P s) ∧
    ((oeApply P s).alloc.outEnabled = s.alloc.outEnabled ∨
      (oeApply P s).alloc.outEnabled = oeBit (regRead P ctrl0Addr (window P s))) := by
  have hw := window_isrOnly P s
  unfold oeApply
  dsimp only [engRead]
  split
  · have h := endPhase_isrOnly P 0 hw
    rw [h.alloc, h.appliedEnable]
    exact ⟨h, .inl rfl⟩
  · have h := endPhase_changes P 0
      { window P s with
        alloc := enableOutputs (oeBit (regRead P ctrl0Addr (window P s))) (window P s).alloc
        appliedEnable := oeBit (regRead P ctrl0Addr (window P s)) }
    rw [h.alloc, h.appliedEnable]
    refine ⟨IsrOnly.trans ?_ h, .inr rfl⟩
    unfold IsrOnly at *
    rw [hw]

/-! ## The order of the phases (R31, R160) -/

/-- The 29 phases: three, one for each channel, and two (R31). -/
theorem phase_cases : ∀ p : Phase, p = 0 ∨ p = 1 ∨ p = 2 ∨ (∃ n, p = chPhase n) ∨ p = 27 ∨ p = 28 := by decide

theorem decode_chPhase (n : Chan) : decode ⟨.M, (chPhase n).val, []⟩ = .ok (.chUpdate n) :=
  (decode_phase (by simp only [chPhase]; omega)).trans (decodePhase_channel n)

theorem chUpdate_phase (P : Params) (n : Chan) (s : State) : (chUpdate P n s).phase = nextPhase (chPhase n) := by
  unfold chUpdate
  split
  · rfl
  · unfold chUpdateSeen chUpdatePush
    dsimp only
    split_ifs <;> rfl

/-- Settles O19: by the phase; each ends at the next one, but for a restart due in phase 1. -/
theorem everyPhaseCompletesAndAdvances : Obligations.EveryPhaseCompletesAndAdvances := by
  unfold Obligations.EveryPhaseCompletesAndAdvances
  intro p
  obtain rfl | rfl | rfl | ⟨n, rfl⟩ | rfl | rfl := phase_cases p
  · exact ⟨.wdtFeed, rfl, fun s => ⟨_, rfl, .inl rfl⟩⟩
  · refine ⟨.hsEval, rfl, fun s => ⟨_, rfl, ?_⟩⟩
    cases hd : restartDue Config.device s.now (window Config.device s).hs with
    | none =>
      rw [hsEval_notDue hd]
      exact .inl rfl
    | some kind => exact .inr ⟨rfl, kind, rfl, hsEval_due hd⟩
  · exact ⟨.regReset, rfl, fun s => ⟨_, rfl, .inl (congrArg Fin.val (regReset_isrOnly Config.device s).phase)⟩⟩
  · exact ⟨.chUpdate n, decode_chPhase n, fun s => ⟨_, rfl, .inl (congrArg Fin.val (chUpdate_phase Config.device n s))⟩⟩
  · exact ⟨.freqApply, rfl, fun s => ⟨_, rfl, .inl (congrArg Fin.val (freqApply_isrOnly Config.device s).1.phase)⟩⟩
  · exact ⟨.oeApply, rfl, fun s => ⟨_, rfl, .inl (congrArg Fin.val (oeApply_isrOnly Config.device s).1.phase)⟩⟩

end Sys2Proof.Machine
end

section
/-! PROOFS. The statements about the engine's phases with no bus event in them (41_engine.md section 2): the values each phase
leaves, and who may touch what. -/

namespace Sys2Proof.Machine

open Sys2Proof.Safety

/-! ## `REG.RESET` (R163) -/

/-- A write of the register reset leaves the request bit set, or does not touch it. -/
def ResetWrite.keepsRequest : ResetWrite → Bool
  | .byte a v => a != 0x18 || regresetBit v
  | .field a _ => a != 0x18 && a + 1 != 0x18

theorem resetScript_keepsRequest : ∀ w ∈ resetScript Config.device, w.keepsRequest = true := by decide +kernel

theorem ResetWrite.leaves_request {w : ResetWrite} (hw : w.keepsRequest = true) {old : Byte} (h : regresetBit old = true) :
    regresetBit (w.leaves 0x18 old) = true := by
  cases w with
  | byte a v =>
    simp only [keepsRequest, Bool.or_eq_true, bne_iff_ne, ne_eq] at hw
    simp only [leaves]
    split_ifs with ha
    · exact hw.resolve_left (not_not.mpr ha.symm)
    · exact h
  | field a v =>
    simp only [keepsRequest, Bool.and_eq_true, bne_iff_ne, ne_eq] at hw
    rwa [leaves, if_neg fun e => hw.2 e.symm, if_neg fun e => hw.1 e.symm]

theorem foldl_leaves_request {ws : List ResetWrite} (hws : ∀ w ∈ ws, w.keepsRequest = true) {old : Byte}
    (h : regresetBit old = true) : regresetBit (ws.foldl (fun old w => w.leaves 0x18 old) old) = true := by
  induction ws generalizing old with
  | nil => exact h
  | cons w ws ih =>
    rw [List.forall_mem_cons] at hws
    exact ih hws.2 (w.leaves_request hws.1 h)

/-- What one write of the script leaves at address `x`, where nothing is known of the byte that was there. -/
def ResetWrite.leavesKnown (w : ResetWrite) (x : Byte) (old : Option Byte) : Option Byte :=
  match w with
  | .byte a v => if x = a then some v else old
  | .field a v => if x = a + 1 then some (hiByte v) else if x = a then some (loByte v) else old

theorem ResetWrite.leaves_getD (w : ResetWrite) (x b : Byte) (old : Option Byte) :
    w.leaves x (old.getD b) = (w.leavesKnown x old).getD b := by
  cases w <;> simp only [leaves, leavesKnown] <;> split_ifs <;> rfl

theorem foldl_leaves_getD (ws : List ResetWrite) (x b : Byte) (old : Option Byte) :
    ws.foldl (fun old w => w.leaves x old) (old.getD b) = (ws.foldl (fun old w => w.leavesKnown x old) old).getD b := by
  induction ws generalizing old with
  | nil => rfl
  | cons w ws ih => rw [List.foldl_cons, w.leaves_getD, ih, List.foldl_cons]

/-- The byte the script leaves at each address; the identification registers alone are not written (R50, R163). -/
theorem resetScript_leavesKnown : ∀ x : Byte,
    (resetScript Config.device).foldl (fun old w => w.leavesKnown x old) none =
      if x = 0x1E ∨ x = 0x1F then none
      else some (if x = 0x18 then 0x80
        else if x = 0x1A then 0x20
        else if x = 0x1B then 0x4E
        else if 0x20 ≤ x.toNat ∧ x.toNat < 0x80 ∧ x.toNat % 4 = 1 then 0xFF
        else 0x00) := by
  decide +kernel

/-- The registers after the script: the register-reset values, with the request bit still set (R163). -/
theorem runScript_resetScript_regRead {s : State} (h : Quiet s) (x : Byte) :
    regRead Config.device x (runScript Config.device (resetScript Config.device) s) =
      if x = 0x18 then 0x80 else registerResetByte s x := by
  have hfold := foldl_leaves_getD (resetScript Config.device) x (regRead Config.device x s) none
  rw [Option.getD_none, resetScript_leavesKnown] at hfold
  rw [runScript_regRead _ _ _ h, hfold]
  unfold registerResetByte
  by_cases hid : x = 0x1E ∨ x = 0x1F
  · have h18 : x ≠ 0x18 := by rintro rfl; revert hid; decide
    simp only [if_pos hid, if_neg h18, Option.getD_none]
  · simp only [if_neg hid, Option.getD_some]

theorem clearRequest_quiet (P : Params) {s : State} (h : Quiet s) :
    clearRequest P s = regWrite P ctrl0Addr (regRead P ctrl0Addr s &&& 0x7F) s := by
  obtain ⟨hmask, hheld, harr⟩ := h
  unfold clearRequest
  rw [window_quiet P harr]
  simp only [leaveSection, regWrite_held, enterSection_held, hheld, isrAll_nil]
  rw [show regRead P ctrl0Addr (enterSection s) = regRead P ctrl0Addr s from rfl]
  cases s
  simp_all [regWrite, enterSection]

theorem regReset_requested {s : State} (h : Quiet s) (hreq : regresetBit (regRead Config.device 0x18 s) = true) :
    regReset Config.device s =
      { initRuntime (regWrite Config.device 0x18 0x00 (runScript Config.device (resetScript Config.device) s)) with phase := 3 } := by
  have hs := runScript_quiet Config.device (resetScript Config.device) s h
  have hq : Quiet (initRuntime (runScript Config.device (resetScript Config.device) s)) := by
    rw [hs]
    exact h
  have h80 : regRead Config.device ctrl0Addr (initRuntime (runScript Config.device (resetScript Config.device) s)) = 0x80 :=
    (runScript_resetScript_regRead h 0x18).trans (if_pos rfl)
  unfold regReset
  rw [engRead_quiet _ _ h.2.2]
  dsimp only
  rw [if_pos (show regresetBit (regRead Config.device ctrl0Addr s) = true from hreq), clearRequest_quiet _ hq, h80]
  exact endPhase_quiet _ _ hq.2.2

theorem regReset_not_requested {s : State} (h : Quiet s) (hreq : regresetBit (regRead Config.device 0x18 s) = false) :
    regReset Config.device s = { s with phase := 3 } := by
  unfold regReset
  rw [engRead_quiet _ _ h.2.2]
  dsimp only
  rw [if_neg (show ¬ regresetBit (regRead Config.device ctrl0Addr s) = true from Bool.eq_false_iff.mp hreq),
    endPhase_quiet _ _ h.2.2]

/-- Settles O24: the script's writes keep the request bit, and the last write of the phase clears it. -/
theorem registerResetRestoresDefaultsAndClearsTheRequestLast :
    Obligations.RegisterResetRestoresDefaultsAndClearsTheRequestLast := by
  unfold Obligations.RegisterResetRestoresDefaultsAndClearsTheRequestLast
  intro s h
  refine ⟨fun hreq => ⟨fun k => ?_, regReset Config.device s, rfl, fun a => ?_, ?_⟩,
    fun hreq => congrArg Host.Outcome.next (regReset_not_requested h hreq)⟩
  · rw [runScript_regRead _ _ _ h]
    exact foldl_leaves_request (fun w hw => resetScript_keepsRequest w (List.mem_of_mem_take hw)) hreq
  · rw [regReset_requested h hreq]
    have hregs : regRead Config.device a
        { initRuntime (regWrite Config.device 0x18 0x00 (runScript Config.device (resetScript Config.device) s)) with
          phase := 3 } =
        regRead Config.device a (regWrite Config.device 0x18 0x00 (runScript Config.device (resetScript Config.device) s)) := rfl
    rw [hregs, regRead_regWrite, runScript_resetScript_regRead h]
    by_cases ha : a = 0x18
    · subst ha
      rfl
    · simp only [if_neg ha]
  · rw [regReset_requested h hreq, runScript_quiet _ _ _ h]
    rfl

/-! ## `CH.UPDATE` (R164, R170) -/

/-- The mode is read, and the duty is noted; it is pushed when it differs from the one last pushed. -/
theorem chUpdatePush_quiet (P : Params) (n : Chan) (t : Nat) (L limit : Byte) {s : State} (h : s.arrivals = []) {d : Rat}
    (hd : calcDuty P (effectiveLevel L limit s.deadline[n] t) (regRead P (cfgAddr n 0) s) = d) :
    chUpdatePush P n t L limit s =
      { s with
        phase := chPhase n + 1, duty := s.duty.set n (some d)
        alloc := if s.duty[n] = some d then s.alloc else setLevel n d s.alloc } := by
  unfold chUpdatePush
  rw [engRead_quiet P _ h]
  dsimp only
  rw [hd, nextPhase_chPhase]
  split_ifs with hsame
  · have hset : s.duty.set n (some d) = s.duty := by rw [← hsame]; exact Vector.set_getElem_self n.isLt
    rw [endPhase_quiet P _ h, hset]
  · exact endPhase_quiet P _ h

/-- The level is being written: the channel is skipped (D14). -/
theorem chUpdate_level_written {n : Chan} {s : State} (h : Quiet s) (hw : wip (levelAddr n) 1 s = true) :
    chUpdate Config.device n s = { s with phase := chPhase n + 1 } := by
  simp only [chUpdate, engAtomicRead_quiet _ _ _ h, hw, if_true]
  rw [endPhase_quiet _ _ h.2.2, nextPhase_chPhase]

/-- The level is read. -/
theorem chUpdate_level_read {n : Chan} {s : State} (h : Quiet s) (hw : wip (levelAddr n) 1 s = false) :
    chUpdate Config.device n s = chUpdateSeen Config.device n s.now (levelOf n s) s := by
  simp only [chUpdate, engAtomicRead_quiet _ _ _ h, hw, memRead_one, Bool.false_eq_true, if_false, BitVec.ofNat_toNat,
    BitVec.setWidth_eq]
  rfl

/-- The level is the one last seen. -/
theorem chUpdateSeen_same {n : Chan} {s : State} (h : s.arrivals = []) (t : Nat) {L : Byte} (hL : L = s.lastLevel[n]) :
    chUpdateSeen Config.device n t L s = chUpdatePush Config.device n t L (limitOf n s) s := by
  unfold chUpdateSeen
  rw [engRead_quiet _ _ h]
  exact if_pos hL

/-- The level differs from the one last seen, and the deadline update answers `u`. -/
theorem chUpdateSeen_changed {n : Chan} {s : State} (h : s.arrivals = []) (t : Nat) {L : Byte} (hL : L ≠ s.lastLevel[n])
    {u : DeadlineUpdate} (hu : updateDeadline Config.device n L s.lastLevel[n] (limitOf n s) s.deadline[n] t s = u) :
    chUpdateSeen Config.device n t L s =
      if u.ok then
        chUpdatePush Config.device n t L (limitOf n s)
          { u.state with deadline := u.state.deadline.set n u.dl, lastLevel := u.state.lastLevel.set n L }
      else endPhase Config.device (nextPhase (chPhase n)) u.state := by
  subst hu
  unfold chUpdateSeen
  rw [engRead_quiet _ _ h]
  exact if_neg hL

/-- The level newly crosses above the limit while the timeout is being written: the channel is skipped (D14). -/
theorem chUpdate_timeout_written {n : Chan} {s : State} (h : Quiet s) (hw : wip (levelAddr n) 1 s = false)
    (hc : Crossing n s) (ht : wip (cfgAddr n 2) 2 s = true) :
    chUpdate Config.device n s = { s with phase := chPhase n + 1 } := by
  have hne : levelOf n s ≠ s.lastLevel[n] := fun e =>
    absurd (e ▸ hc.1 : limitOf n s < s.lastLevel[n]) (BitVec.not_lt.mpr hc.2)
  have hu : updateDeadline Config.device n (levelOf n s) s.lastLevel[n] (limitOf n s) s.deadline[n] s.now s =
      ⟨false, s.deadline[n], s⟩ := by
    rw [updateDeadline_quiet _ _ _ _ _ _ _ _ h, if_pos hc.1, if_pos hc.2, if_pos ht]
  rw [chUpdate_level_read h hw, chUpdateSeen_changed h.2.2 _ hne hu]
  exact (endPhase_quiet _ _ h.2.2).trans (by rw [nextPhase_chPhase])

/-- `UpdateDeadline` answers the deadline that the rules give (R168). -/
theorem updateDeadline_deadlineAfter {n : Chan} {s : State} (h : Quiet s) (hne : levelOf n s ≠ s.lastLevel[n])
    (hc : Crossing n s → wip (cfgAddr n 2) 2 s = false) :
    updateDeadline Config.device n (levelOf n s) s.lastLevel[n] (limitOf n s) s.deadline[n] s.now s =
      ⟨true, deadlineAfter n s, s⟩ := by
  rw [updateDeadline_quiet _ _ _ _ _ _ _ _ h, deadlineAfter, if_neg hne]
  by_cases hL : limitOf n s < levelOf n s
  · rw [if_pos hL, if_neg (BitVec.not_le.mpr hL)]
    by_cases hp : s.lastLevel[n] ≤ limitOf n s
    · rw [if_pos hp, if_pos hp, if_neg (by simp [hc ⟨hL, hp⟩])]
      rfl
    · rw [if_neg hp, if_neg hp]
  · rw [if_neg hL, if_pos (BitVec.not_lt.mp hL)]

/-- Otherwise the level is seen, the deadline follows it, and the duty is computed and pushed when it differs. -/
theorem chUpdate_seen {n : Chan} {s : State} (h : Quiet s) (hw : wip (levelAddr n) 1 s = false)
    (hc : Crossing n s → wip (cfgAddr n 2) 2 s = false) :
    chUpdate Config.device n s =
      { s with
        phase := chPhase n + 1
        lastLevel := s.lastLevel.set n (levelOf n s)
        deadline := s.deadline.set n (deadlineAfter n s)
        duty := s.duty.set n (some (dutyAfter n s))
        alloc := if s.duty[n] = some (dutyAfter n s) then s.alloc else setLevel n (dutyAfter n s) s.alloc } := by
  rw [chUpdate_level_read h hw]
  by_cases hsame : levelOf n s = s.lastLevel[n]
  · have hdl : deadlineAfter n s = s.deadline[n] := if_pos hsame
    have hset : s.lastLevel.set n (levelOf n s) = s.lastLevel := by
      rw [hsame]
      exact Vector.set_getElem_self n.isLt
    have hset' : s.deadline.set n (deadlineAfter n s) = s.deadline := by
      rw [hdl]
      exact Vector.set_getElem_self n.isLt
    rw [chUpdateSeen_same h.2.2 _ hsame, hset, hset']
    exact chUpdatePush_quiet _ n _ _ _ h.2.2 (by rw [dutyAfter, hdl]; rfl)
  · rw [chUpdateSeen_changed h.2.2 _ hsame (updateDeadline_deadlineAfter h hsame hc), if_pos rfl]
    have hd : calcDuty Config.device (effectiveLevel (levelOf n s) (limitOf n s)
        (s.deadline.set n (deadlineAfter n s))[n] s.now) (modeOf n s) = dutyAfter n s := by
      rw [getElem_set_self]
      rfl
    exact chUpdatePush_quiet
      (s := { s with deadline := s.deadline.set n (deadlineAfter n s), lastLevel := s.lastLevel.set n (levelOf n s) })
      _ n _ _ _ h.2.2 hd

/-- A duty of the unit interval is in the call's range (entry N14). -/
theorem exec_setLevel (n : Chan) {d : Rat} (h0 : 0 ≤ d) (h1 : d ≤ 1) (s : State) :
    exec (.setLevel n.val d) s = .next { s with alloc := setLevel n d s.alloc } := by
  change execSetLevel n.val d s = _
  rw [execSetLevel, if_pos ⟨h0, h1⟩, withChan_val]

/-- Settles O25: the two skips, and else the update, which pushes by `SetLevel`. -/
theorem channelUpdateComputesAndPushes : Obligations.ChannelUpdateComputesAndPushes := by
  unfold Obligations.ChannelUpdateComputesAndPushes
  intro n s h
  refine ⟨fun hw => congrArg Host.Outcome.next (chUpdate_level_written h hw),
    fun hw hc ht => congrArg Host.Outcome.next (chUpdate_timeout_written h hw hc ht),
    fun hw hc => ⟨_, congrArg Host.Outcome.next (chUpdate_seen h hw hc), rfl, fun hsame => if_pos hsame, fun hne => ?_⟩⟩
  obtain ⟨h0, h1⟩ : 0 ≤ dutyAfter n s ∧ dutyAfter n s ≤ 1 := calcDuty_unit _ Config.device_wellFormed _ _
  rw [exec_setLevel n h0 h1, if_neg hne]

/-! ## The document's end-to-end property (41_engine.md section 4) -/

theorem dutyAfter_gamma {n : Chan} {s : State} (h : modeOf n s = 0x02) :
    dutyAfter n s =
      Config.device.gammaTable (effectiveLevel (levelOf n s) (limitOf n s) (deadlineAfter n s) s.now) := by
  rw [dutyAfter, h, calcDuty_activeHigh _ _ _ (by decide)]
  exact if_pos (by decide)

/-- Settles O29: the first update arms the deadline; a later one sees the same level, keeps it, and compares it with the
clock. -/
theorem throttleLimitsAfterItsTimeout : Obligations.ThrottleLimitsAfterItsTimeout := by
  unfold Obligations.ThrottleLimitsAfterItsTimeout
  intro n s hq hw ht hmode hlimit htimeout hlevel hlast
  have hcross : limitOf n s < levelOf n s := by rw [hlimit, hlevel]; decide
  have hne : levelOf n s ≠ s.lastLevel[n] := fun e => absurd (hlevel.symm.trans e ▸ hlast) (by decide)
  have hdl : deadlineAfter n s = some (s.now + 1000000) := by
    rw [deadlineAfter, if_neg hne, if_neg (BitVec.not_le.mpr hcross), if_pos (by rw [hlimit]; exact hlast), htimeout]
  refine ⟨_, congrArg Host.Outcome.next (chUpdate_seen hq hw fun _ => ht), ?_, fun u hqu hregs hwu hulast hudl hnow => ?_⟩
  · rw [getElem_set_self, dutyAfter_gamma hmode, hdl, hlevel, effectiveLevel, if_neg (by omega)]
  · rw [getElem_set_self, hlevel] at hulast
    rw [getElem_set_self, hdl] at hudl
    have hulevel : levelOf n u = 255 := (regRead_congr _ _ hregs).trans hlevel
    have hulimit : limitOf n u = 128 := (regRead_congr _ _ hregs).trans hlimit
    have humode : modeOf n u = 0x02 := (regRead_congr _ _ hregs).trans hmode
    have hudl' : deadlineAfter n u = some (s.now + 1000000) :=
      (if_pos (hulevel.trans hulast.symm)).trans hudl
    have hucross : ¬ Crossing n u := fun hc => absurd (hulast ▸ hulimit ▸ hc.2) (by decide)
    refine ⟨_, congrArg Host.Outcome.next (chUpdate_seen hqu hwu fun hc => absurd hc hucross), ?_, rfl, ?_, ?_⟩
    · rw [getElem_set_self, dutyAfter_gamma humode, hudl', hulevel, hulimit, effectiveLevel]
      by_cases hlate : u.now < s.now + 1000000
      · rw [if_pos hlate, if_neg (Nat.not_le.mpr hlate)]
      · rw [if_neg hlate, if_pos (Nat.not_lt.mp hlate)]
    · rw [getElem_set_self, getElem_set_self, hulevel, hlevel]
    · rw [getElem_set_self, getElem_set_self, hudl', hdl]

/-! ## `FREQ.APPLY` and `OE.APPLY` (R165, R166) -/

theorem freqApply_skipped {s : State} (h : Quiet s)
    (hskip : wip freqAddr 2 s = true ∨ s.appliedFreq = some (BitVec.ofNat 16 (memRead Config.device freqAddr 2 s))) :
    freqApply Config.device s = { s with phase := 28 } := by
  simp only [freqApply, engAtomicRead_quiet _ _ _ h]
  by_cases hw : wip freqAddr 2 s = true
  · rw [if_pos hw]
    exact endPhase_quiet _ _ h.2.2
  · rw [if_neg hw]
    dsimp only
    rw [if_pos (hskip.resolve_left hw)]
    exact endPhase_quiet _ _ h.2.2

theorem freqApply_applied {s : State} (h : Quiet s) (hw : wip freqAddr 2 s = false)
    (hne : s.appliedFreq ≠ some (BitVec.ofNat 16 (memRead Config.device freqAddr 2 s))) :
    freqApply Config.device s =
      { applyFreq Config.device (BitVec.ofNat 16 (memRead Config.device freqAddr 2 s)) s with
        appliedFreq := some (BitVec.ofNat 16 (memRead Config.device freqAddr 2 s)), phase := 28 } := by
  simp only [freqApply, engAtomicRead_quiet _ _ _ h]
  rw [if_neg (Bool.eq_false_iff.mp hw)]
  dsimp only
  rw [if_neg hne]
  exact endPhase_quiet _ _ h.2.2

/-- Settles O30: by whether the register is being written, and whether its value was applied before. -/
theorem frequencyIsAppliedOnChange : Obligations.FrequencyIsAppliedOnChange := by
  unfold Obligations.FrequencyIsAppliedOnChange
  refine fun s h => ⟨fun hw => congrArg Host.Outcome.next (freqApply_skipped h (.inl hw)),
    fun hsame => congrArg Host.Outcome.next (freqApply_skipped h (.inr hsame)), fun hw hne => ⟨_, ?_,
      congrArg Host.Outcome.next (freqApply_applied h hw hne)⟩⟩
  exact if_pos (memRead_two_lt _ _ _)

theorem oeApply_quiet {s : State} (h : s.arrivals = []) :
    oeApply Config.device s =
      if oeBit (regRead Config.device 0x18 s) = s.appliedEnable then { s with phase := 0 }
      else
        { s with
          alloc := enableOutputs (oeBit (regRead Config.device 0x18 s)) s.alloc
          appliedEnable := oeBit (regRead Config.device 0x18 s), phase := 0 } := by
  unfold oeApply
  rw [engRead_quiet _ _ h]
  dsimp only
  rw [endPhase_quiet _ _ h]
  exact congrArg _ (endPhase_quiet _ _ h)

/-- Settles O31: by whether the bit differs from the one last applied. -/
theorem outputEnableIsAppliedOnChange : Obligations.OutputEnableIsAppliedOnChange := by
  unfold Obligations.OutputEnableIsAppliedOnChange
  exact fun s h => ⟨fun hsame => congrArg Host.Outcome.next ((oeApply_quiet h).trans (if_pos hsame)),
    fun hne => ⟨_, rfl, congrArg Host.Outcome.next ((oeApply_quiet h).trans (if_neg hne))⟩⟩

/-! ## Who may touch what (60_exceptions.md section 4) -/

/-- `t` differs from `s` at most in registers and in what is the engine's own: its phase and runtime state, the settings last
applied, the watchdog's feed, the allocator and the log. -/
def EngineOnly (s t : State) : Prop :=
  t = { s with
    regs := t.regs, phase := t.phase, lastLevel := t.lastLevel, duty := t.duty, deadline := t.deadline
    appliedFreq := t.appliedFreq, appliedEnable := t.appliedEnable, wdtLastFeed := t.wdtLastFeed
    alloc := t.alloc, log := t.log }

theorem chUpdate_engineOnly {n : Chan} {s : State} (h : Quiet s) :
    EngineOnly s (chUpdate Config.device n s) ∧ (chUpdate Config.device n s).regs = s.regs := by
  cases hw : wip (levelAddr n) 1 s with
  | true =>
    rw [chUpdate_level_written h hw]
    exact ⟨rfl, rfl⟩
  | false =>
    by_cases hskip : Crossing n s ∧ wip (cfgAddr n 2) 2 s = true
    · rw [chUpdate_timeout_written h hw hskip.1 hskip.2]
      exact ⟨rfl, rfl⟩
    · rw [chUpdate_seen h hw fun hc => Bool.eq_false_iff.mpr fun ht => hskip ⟨hc, ht⟩]
      exact ⟨rfl, rfl⟩

theorem freqApply_engineOnly {s : State} (h : Quiet s) :
    EngineOnly s (freqApply Config.device s) ∧ (freqApply Config.device s).regs = s.regs := by
  by_cases hskip : wip freqAddr 2 s = true ∨
      s.appliedFreq = some (BitVec.ofNat 16 (memRead Config.device freqAddr 2 s))
  · rw [freqApply_skipped h hskip]
    exact ⟨rfl, rfl⟩
  · obtain ⟨hw, hne⟩ := not_or.mp hskip
    rw [freqApply_applied h (Bool.eq_false_iff.mpr hw) hne]
    exact ⟨rfl, rfl⟩

theorem regReset_engineOnly {s : State} (h : Quiet s) : EngineOnly s (regReset Config.device s) := by
  cases hreq : regresetBit (regRead Config.device 0x18 s) with
  | true =>
    rw [regReset_requested h hreq, runScript_quiet _ _ _ h]
    rfl
  | false =>
    rw [regReset_not_requested h hreq]
    rfl

/-- A phase in which no bus event lands, and which restarts nothing, writes what is the engine's own, and registers in
`REG.RESET` alone. -/
theorem phase_engineOnly {p : Phase} {i : Instr} {s t : State} (hdec : decode ⟨.M, p.val, []⟩ = .ok i) (h : Quiet s)
    (hdue : restartDue Config.device s.now s.hs = none) (ht : exec i s = .next t) :
    EngineOnly s t ∧ (i ≠ .regReset → t.regs = s.regs) := by
  obtain rfl | rfl | rfl | ⟨n, rfl⟩ | rfl | rfl := phase_cases p
  · cases hdec
    cases ht
    rw [wdtFeed, endPhase_quiet (s := { s with wdtLastFeed := s.now }) _ _ h.2.2]
    exact ⟨rfl, fun _ => rfl⟩
  · cases hdec
    cases ht
    have hwin := window_quiet Config.device h.2.2
    rw [hsEval_notDue (by rw [hwin]; exact hdue), hwin, endPhase_quiet _ _ h.2.2]
    exact ⟨rfl, fun _ => rfl⟩
  · cases hdec
    cases ht
    exact ⟨regReset_engineOnly h, fun hne => absurd rfl hne⟩
  · cases (decode_chPhase n).symm.trans hdec
    cases ht
    obtain ⟨hown, hregs⟩ := chUpdate_engineOnly (n := n) h
    exact ⟨hown, fun _ => hregs⟩
  · cases hdec
    cases ht
    obtain ⟨hown, hregs⟩ := freqApply_engineOnly h
    exact ⟨hown, fun _ => hregs⟩
  · cases hdec
    cases ht
    rw [oeApply_quiet h.2.2]
    split <;> exact ⟨rfl, fun _ => rfl⟩

/-- The registers after a bus event: a data byte is stored at the cursor, unless the cursor is at a read-only register or
the handshake register (R130, R133). -/
theorem isr_rx_regRead {P : Params} {s : State} (hbus : s.bus = .data)
    (hcur : s.cursor ≠ 0x1E ∧ s.cursor ≠ 0x1F ∧ s.cursor ≠ 0xDD) (b x : Byte) :
    regRead P x (isr P (.rx b) s) = if x = s.cursor then b else regRead P x s := by
  rw [isr_rx_data _ _ _ hbus, dataByte_regRead]
  by_cases hx : x = s.cursor
  · rw [if_pos ⟨hx, by rwa [hx]⟩, if_pos hx]
  · rw [if_neg fun h => hx h.1, if_neg hx]

/-- A data byte at a read-only register or at the handshake register stores nothing. -/
theorem dataByte_regs_special {s : State} (h : s.cursor = 0x1E ∨ s.cursor = 0x1F ∨ s.cursor = 0xDD) (P : Params) (b : Byte) :
    (dataByte P b s).regs = s.regs := by
  have hclass : addressClass s.cursor = .version ∨ addressClass s.cursor = .whoami ∨ addressClass s.cursor = .reset := by
    obtain h | h | h := h <;> rw [h] <;> decide
  unfold dataByte
  obtain h | h | h := hclass <;> simp only [h]
  · rfl
  · rfl
  · unfold wrReset
    split_ifs <;> rfl

theorem isr_regs_kept {e : BusEvent} {s : State}
    (h : ¬ ((∃ b, e = .rx b) ∧ s.bus = .data ∧ s.cursor ≠ 0x1E ∧ s.cursor ≠ 0x1F ∧ s.cursor ≠ 0xDD)) (P : Params) :
    (isr P e s).regs = s.regs := by
  cases e with
  | startW | rq | fin => rfl
  | rx b =>
    by_cases hbus : s.bus = .data
    · rw [isr_rx_data _ _ _ hbus]
      refine dataByte_regs_special ?_ P b
      by_contra hn
      simp only [not_or] at hn
      exact h ⟨⟨b, rfl⟩, hbus, hn⟩
    · simp only [isr, hbus, if_false]
      rfl

/-- Beyond that a bus event changes the cursor, the bus state, the handshake and the reply (R151). -/
theorem isr_changes (P : Params) (e : BusEvent) (s : State) :
    isr P e s =
      { s with
        regs := (isr P e s).regs, cursor := (isr P e s).cursor, bus := (isr P e s).bus, hs := (isr P e s).hs
        busReply := (isr P e s).busReply } := by
  have honly := isr_isrOnly P e s
  obtain ⟨hmask, hheld, harr, hnow, hline⟩ := isr_keeps_mask P e s
  unfold IsrOnly at honly
  rw [hmask, hheld, harr, hnow, hline] at honly
  exact honly

/-- Settles O18: the handler by the event, the engine by its phases. -/
theorem whoMayTouchWhat : Obligations.WhoMayTouchWhat := by
  unfold Obligations.WhoMayTouchWhat
  refine ⟨fun e s => ⟨isr_changes _ e s, ?_, fun h => isr_regs_kept h _⟩, fun p i s t hdec h hdue ht => ?_⟩
  · rintro b rfl ⟨hbus, hcur⟩ x
    exact isr_rx_regRead hbus hcur b x
  · obtain ⟨hown, hregs⟩ := phase_engineOnly hdec h hdue ht
    rw [EngineOnly] at hown
    refine ⟨?_, ?_, ?_, ?_, ?_, ?_, ?_, hregs⟩ <;> rw [hown]

end Sys2Proof.Machine
end

section
/-! PROOFS. The remaining statements about the bus (40_bus_isr.md, 20_memory.md section 5): single operations, the reset
handshake, masked events, and what sequences of events leave. -/

namespace Sys2Proof.Machine

open Sys2Proof.Safety

/-! ## Single operations (R131 to R141, R149) -/

/-- Settles O1: both set the bus state alone, and no field is protected while the bus is idle. -/
theorem startAndStopSetTheBusState : Obligations.StartAndStopSetTheBusState := by
  unfold Obligations.StartAndStopSetTheBusState
  exact fun s => ⟨rfl, fin s, rfl, rfl, fun a w => rfl⟩

theorem setaddr_device (b : Byte) (s : State) : setaddr Config.device b s = { s with cursor := b, bus := .data } := by
  rw [setaddr, cursorOf_device]

/-- Settles O2: every byte is an address of the device, and the bus is in the data phase from here on. -/
theorem addressByteSetsTheCursor : Obligations.AddressByteSetsTheCursor := by
  unfold Obligations.AddressByteSetsTheCursor
  refine fun b s => ⟨⟨_, congrArg Host.Outcome.next (setaddr_device b s), rfl, fun a w => ?_⟩, fun h => ?_⟩
  · rw [wip_iff]
    exact and_iff_right rfl
  · exact (if_neg h).trans (setaddr_device b s)

/-- Settles O5: the byte is stored whole, so each flag is its bit. -/
theorem writeControl0ReplacesTheByte : Obligations.WriteControl0ReplacesTheByte := by
  unfold Obligations.WriteControl0ReplacesTheByte
  refine fun b => ⟨storesAndAdvances_of_exec fun _ => rfl, fun s => ⟨_, rfl, ?_⟩⟩
  have hstored : regRead Config.device 0x18 (wrCtrl0 Config.device b s) = b :=
    (regRead_storeAdvance Config.device ctrl0Addr b 0x18 s).trans (if_pos rfl)
  rw [hstored]
  exact ⟨rfl, rfl, rfl⟩

theorem unlistedAddress_iff (a : Byte) :
    unlistedAddress a = true ↔ a = 0x1C ∨ a = 0x1D ∨ (0x80 ≤ a.toNat ∧ a ≠ 0xDD) := by
  simp only [unlistedAddress, Bool.or_eq_true, Bool.and_eq_true, beq_iff_eq, bne_iff_ne, decide_eq_true_eq, or_assoc, ne_eq]

/-- Settles O6: both operations are the store template, at every address that is an operand. -/
theorem writeReservedAndUnlistedStores : Obligations.WriteReservedAndUnlistedStores := by
  unfold Obligations.WriteReservedAndUnlistedStores
  exact ⟨fun b => storesAndAdvances_of_exec fun _ => rfl,
    fun a b ha => storesAndAdvances_of_exec fun _ => if_pos ((unlistedAddress_iff a).mpr ha)⟩

theorem exec_rd (c : Byte) (s : State) :
    exec (.rd c) s = .next { s with busReply := some (regRead Config.device c s), cursor := c + 1 } :=
  congrArg Host.Outcome.next (by rw [rd, nextCursor_device])

/-- Settles O10: the request is answered from the register file. -/
theorem readAnswersAndAdvances : Obligations.ReadAnswersAndAdvances := by
  unfold Obligations.ReadAnswersAndAdvances
  exact exec_rd

/-- Settles O9: the writes move the cursor alone; the reads answer what the three cells hold. -/
theorem identificationRegistersAreReadOnly : Obligations.IdentificationRegistersAreReadOnly := by
  unfold Obligations.IdentificationRegistersAreReadOnly
  refine fun s => ⟨fun b => rfl, fun b => rfl, fun ⟨hversion, hwhoami, hreset⟩ => ⟨?_, ?_, ?_⟩⟩
  · rw [exec_rd, ← hversion]
    rfl
  · rw [exec_rd, ← hwhoami]
    rfl
  · rw [exec_rd, ← hreset]
    rfl

/-! ## The reset handshake (R136, R145 to R148) -/

theorem armHs_of_ne_idle {h : Handshake} (hne : h ≠ .idle) (now : Nat) : armHs now h = .idle := by
  cases h with
  | idle => exact absurd rfl hne
  | armed | confirmed => rfl

theorem confirmHs_inWindow {P : Params} {t now : Nat} (h : now - t < P.armWindowUs) (kind : ResetKind) :
    confirmHs P kind now (.armed t) = .confirmed kind now := if_pos h

theorem confirmHs_late {P : Params} {h : Handshake} {now : Nat} (hlate : ∀ t, h = .armed t → ¬ now - t < P.armWindowUs)
    (kind : ResetKind) : confirmHs P kind now h = .idle := by
  cases h with
  | armed t => exact if_neg (hlate t rfl)
  | idle | confirmed => rfl

/-- A handshake is confirmed by its code, from an arm inside the window (R146, R147). -/
theorem confirmHs_eq_confirmed {P : Params} {k kind : ResetKind} {now t : Nat} {h : Handshake}
    (hc : confirmHs P k now h = .confirmed kind t) :
    k = kind ∧ now = t ∧ ∃ t₀, h = .armed t₀ ∧ now - t₀ < P.armWindowUs := by
  cases h with
  | armed t₀ =>
    simp only [confirmHs] at hc
    split_ifs at hc with hw
    cases hc
    exact ⟨rfl, rfl, t₀, rfl, hw⟩
  | idle | confirmed => cases hc

theorem inWindow_iff (now t : Nat) : now - t < Config.device.armWindowUs ↔ now < t + 5000000 := by
  change now - t < 5000000 ↔ _
  omega

/-- Settles O11: what each code makes of the handshake. -/
theorem handshakeCodesFollowTheSequence : Obligations.HandshakeCodesFollowTheSequence := by
  unfold Obligations.HandshakeCodesFollowTheSequence
  have arm : ∀ s, exec .hsArm s = .next { s with hs := armHs s.now s.hs, cursor := 0xDE } := fun _ => rfl
  have reset : ∀ s, exec .hsReset s = .next { s with hs := confirmHs Config.device .cpu s.now s.hs, cursor := 0xDE } :=
    fun _ => rfl
  have bootsel : ∀ s, exec .hsBootsel s =
      .next { s with hs := confirmHs Config.device .bootsel s.now s.hs, cursor := 0xDE } := fun _ => rfl
  refine fun s => ⟨fun h => ?_, fun h => ?_, fun t h hnow => ?_, fun hlate => ?_⟩
  · rw [arm, h]
    rfl
  · rw [arm, armHs_of_ne_idle h]
  · rw [reset, bootsel, h]
    have hw := (inWindow_iff s.now t).mpr hnow
    rw [confirmHs_inWindow hw, confirmHs_inWindow hw]
    exact ⟨rfl, rfl⟩
  · have hl : ∀ t, s.hs = .armed t → ¬ s.now - t < Config.device.armWindowUs := fun t h hw =>
      absurd ((inWindow_iff s.now t).mp hw) (Nat.not_lt.mpr (hlate t h))
    rw [reset, bootsel, confirmHs_late hl, confirmHs_late hl]
    exact ⟨rfl, rfl⟩

/-- Settles O12: the byte is no code, so it is an operand of `HS.OTHER`. -/
theorem otherHandshakeByteResetsTheHandshake : Obligations.OtherHandshakeByteResetsTheHandshake := by
  unfold Obligations.OtherHandshakeByteResetsTheHandshake
  intro b s h1 h2 h3
  exact if_neg (Bool.eq_false_iff.mp ((handshakeCode_eq_false_iff b).mpr ⟨h1, h2, h3⟩))

theorem dataByte_at_reset {s : State} (h : s.cursor = 0xDD) (P : Params) (b : Byte) : dataByte P b s = wrReset P b s := by
  have hclass : addressClass s.cursor = .reset := by rw [h]; decide
  simp only [dataByte, hclass]

/-- A data byte elsewhere leaves the handshake. -/
theorem dataByte_hs_elsewhere {s : State} (h : s.cursor ≠ 0xDD) (P : Params) (b : Byte) : (dataByte P b s).hs = s.hs := by
  have hreset := (address_of_class s.cursor).2.2.2.2.2.2
  unfold dataByte
  cases hclass : addressClass s.cursor with
  | reset => exact absurd (hreset hclass) h
  | cfg n j => fin_cases j <;> rfl
  | level | ctrl0 | ctrl1 | freqLo | freqHi | undoc | version | whoami => rfl

/-- Only a byte written at the handshake register moves the handshake. -/
theorem isr_hs_kept {e : BusEvent} {s : State} (h : ¬ ((∃ b, e = .rx b) ∧ s.bus = .data ∧ s.cursor = 0xDD)) (P : Params) :
    (isr P e s).hs = s.hs := by
  cases e with
  | startW | rq | fin => rfl
  | rx b =>
    by_cases hbus : s.bus = .data
    · rw [isr_rx_data _ _ _ hbus]
      exact dataByte_hs_elsewhere (fun hcur => h ⟨⟨b, rfl⟩, hbus, hcur⟩) P b
    · simp only [isr, hbus, if_false]
      rfl

/-- A byte at the handshake register that leaves it confirmed is the code of the kind, inside the window. -/
theorem wrReset_confirmed {P : Params} {b : Byte} {s : State} {kind : ResetKind} {t : Nat}
    (h : (wrReset P b s).hs = .confirmed kind t) :
    (∃ t₀, s.hs = .armed t₀ ∧ s.now - t₀ < P.armWindowUs) ∧ t = s.now ∧ b = confirmCode kind := by
  unfold wrReset at h
  split_ifs at h with h1 h2 h3
  · have harm : armHs s.now s.hs = .confirmed kind t := h
    cases hs : s.hs <;> rw [hs] at harm <;> cases harm
  · obtain ⟨rfl, ht, hwin⟩ := confirmHs_eq_confirmed (show confirmHs P .cpu s.now s.hs = _ from h)
    exact ⟨hwin, ht.symm, h2⟩
  · obtain ⟨rfl, ht, hwin⟩ := confirmHs_eq_confirmed (show confirmHs P .bootsel s.now s.hs = _ from h)
    exact ⟨hwin, ht.symm, h3⟩
  · cases h

/-- Settles O13: by whether the event is a byte at the handshake register. -/
theorem onlyHandshakeBytesMoveTheHandshake : Obligations.OnlyHandshakeBytesMoveTheHandshake := by
  unfold Obligations.OnlyHandshakeBytesMoveTheHandshake
  refine fun e s => ⟨fun hne => by_contra fun h => hne (isr_hs_kept h _), fun kind t hc => ?_⟩
  by_cases h : (∃ b, e = .rx b) ∧ s.bus = .data ∧ s.cursor = 0xDD
  · obtain ⟨⟨b, rfl⟩, hbus, hcur⟩ := h
    rw [isr_rx_data _ _ _ hbus, dataByte_at_reset hcur] at hc
    obtain ⟨⟨t₀, harmed, hwin⟩, ht, rfl⟩ := wrReset_confirmed hc
    refine .inr ⟨⟨t₀, harmed, (inWindow_iff _ _).mp hwin⟩, ht, ?_⟩
    cases kind <;> rfl
  · exact .inl ((isr_hs_kept h _).symm.trans hc)

/-! ## Interrupt-disabled sections (R44, R80, R277) -/

theorem memRead_congr (P : Params) (a : Byte) (w : Nat) {s t : State} (h : t.regs = s.regs) :
    memRead P a w t = memRead P a w s := by
  induction w generalizing a with
  | zero => rfl
  | succ w ih => simp only [memRead, regRead_congr P a h, ih]

/-- Settles O14: the section changes neither the registers nor what the predicate looks at. -/
theorem atomicReadFailsOrReadsTheField : Obligations.AtomicReadFailsOrReadsTheField := by
  unfold Obligations.AtomicReadFailsOrReadsTheField
  refine fun a w s => ⟨?_, rfl⟩
  simp only [atomicRead, wip_iff, enterSection_bus, enterSection_cursor]
  rw [memRead_congr (s := s) (t := enterSection s) _ a w rfl]

theorem isrAll_irqMasked (P : Params) (es : List BusEvent) (s : State) : (isrAll P es s).irqMasked = s.irqMasked := by
  induction es generalizing s with
  | nil => rfl
  | cons e es ih => exact (ih _).trans (isr_keeps_mask P e s).1

/-- A masked device holds what is delivered, in order. -/
theorem deliverAll_masked (P : Params) (es : List BusEvent) {s : State} (hrun : s.run = .running)
    (hmask : s.irqMasked = true) : deliverAll P es s = { s with held := s.held ++ es } := by
  induction es generalizing s with
  | nil => simp [deliverAll]
  | cons e es ih =>
    have hone : deliver P e s = { s with held := s.held ++ [e] } := by simp [deliver, hrun, hmask]
    change deliverAll P es (deliver P e s) = _
    rw [hone, ih (s := { s with held := s.held ++ [e] }) hrun hmask, List.append_assoc, List.singleton_append]

/-- Settles O17: what was held is handled first, then what comes after the section. -/
theorem maskedEventsAreHeldAndHandledInOrder : Obligations.MaskedEventsAreHeldAndHandledInOrder := by
  unfold Obligations.MaskedEventsAreHeldAndHandledInOrder
  refine ⟨fun e rest s hag hrun hmask => ?_, fun es s hrun hmask => ?_⟩
  · rw [step_event hag]
    simp [deliver, hrun, hmask]
  · have hrun' : (leaveSection Config.device s).run = .running := (leaveSection_isrOnly _ s).run.trans hrun
    have hmask' : (leaveSection Config.device s).irqMasked = false := isrAll_irqMasked _ _ _
    rw [deliverAll_masked _ _ hrun hmask, deliverAll_running _ _ _ hrun' hmask']
    simp only [leaveSection, isrAll_append]

/-! ## Data bytes in sequence (R113, R133) -/

theorem isrAll_data_bus (ds : List Byte) {s : State} (h : s.bus = .data) :
    (isrAll Config.device (ds.map .rx) s).bus = .data := by
  induction ds generalizing s with
  | nil => exact h
  | cons d ds ih =>
    rw [List.map_cons, isrAll_cons, isr_rx_data _ _ _ h]
    exact ih ((dataByte_bus _ _ _).trans h)

theorem isrAll_data_cursor (ds : List Byte) {s : State} (h : s.bus = .data) :
    (isrAll Config.device (ds.map .rx) s).cursor = s.cursor + BitVec.ofNat 8 ds.length := by
  induction ds generalizing s with
  | nil => simp
  | cons d ds ih =>
    rw [List.map_cons, isrAll_cons, isr_rx_data _ _ _ h, ih ((dataByte_bus _ _ _).trans h), dataByte_cursor,
      nextCursor_device, List.length_cons]
    bv_omega

/-- The bytes leave an address that the cursor does not pass. -/
theorem isrAll_data_regRead_other (ds : List Byte) {s : State} (h : s.bus = .data) {x : Byte}
    (hx : ∀ i < ds.length, s.cursor + BitVec.ofNat 8 i ≠ x) :
    regRead Config.device x (isrAll Config.device (ds.map .rx) s) = regRead Config.device x s := by
  induction ds generalizing s with
  | nil => rfl
  | cons d ds ih =>
    have hcur : x ≠ s.cursor := fun e => hx 0 (Nat.succ_pos _) (by rw [e]; simp)
    rw [List.map_cons, isrAll_cons, isr_rx_data _ _ _ h, ih ((dataByte_bus _ _ _).trans h), dataByte_regRead,
      if_neg fun e => hcur e.1]
    intro i hi
    rw [dataByte_cursor, nextCursor_device]
    have := hx (i + 1) (Nat.succ_lt_succ hi)
    bv_omega

/-- Settles O16: a long write by induction on its bytes, the device being in one state at each byte's address; the reads by
their number. -/
theorem longTransactionsAreOneByteTransactions : Obligations.LongTransactionsAreOneByteTransactions := by
  unfold Obligations.LongTransactionsAreOneByteTransactions
  refine ⟨fun a data s hne => ?_, fun k s => ?_⟩
  · induction data generalizing a s with
    | nil => exact absurd rfl hne
    | cons d ds ih =>
      cases ds with
      | nil => rfl
      | cons d' ds =>
        have hone : isrAll Config.device [.startW, .rx a, .rx d, .fin] s =
            fin (dataByte Config.device d { s with cursor := a, bus := .data }) := isrAll_writeEvents a [d] s
        have hat : { fin (dataByte Config.device d { s with cursor := a, bus := .data }) with
              cursor := a + 1, bus := .data } =
            dataByte Config.device d { s with cursor := a, bus := .data } := by
          rw [dataByte_changes, nextCursor_device]
          rfl
        rw [singleWrites, isrAll_append, hone, ← ih (a + 1) _ (List.cons_ne_nil _ _), isrAll_writeEvents,
          isrAll_writeEvents, hat]
        rfl
  · have hread : isrAll Config.device (List.replicate k .rq) s =
        { s with
          cursor := s.cursor + BitVec.ofNat 8 k
          busReply := (isrAll Config.device (List.replicate k .rq) s).busReply } := by
      induction k with
      | zero => simp
      | succ k ih =>
        rw [List.replicate_succ', isrAll_append, ih]
        simp only [isrAll_cons, isrAll_nil, isr, rd, nextCursor_device]
        have hcur : s.cursor + BitVec.ofNat 8 k + 1 = s.cursor + BitVec.ofNat 8 (k + 1) := by bv_omega
        rw [hcur]
    intro t
    have ht : t = _ := hread
    refine ⟨?_, ?_⟩
    · rw [ht]
    · rw [ht]
      rfl

end Sys2Proof.Machine
end

section
/-! PROOFS. The protected read while a transaction that writes its field is under way (20_memory.md section 5). -/

namespace Sys2Proof.Machine

open Sys2Proof.Safety

/-! ## A transaction cut off (R101) -/

/-- The first events of a write transaction: nothing, the start, the address with some of the data bytes, or all of it. -/
theorem take_writeEvents (b : Byte) (data : List Byte) (k : Nat) :
    (writeEvents b data).take k = [] ∨ (writeEvents b data).take k = [.startW] ∨
    (∃ j, (writeEvents b data).take k = [.startW, .rx b] ++ (data.take j).map .rx) ∨
    (writeEvents b data).take k = writeEvents b data := by
  match k with
  | 0 => exact .inl rfl
  | 1 => exact .inr (.inl rfl)
  | j + 2 =>
    by_cases hj : j ≤ data.length
    · refine .inr (.inr (.inl ⟨j, ?_⟩))
      simp [writeEvents, List.take_append_of_le_length, hj, List.map_take]
    · refine .inr (.inr (.inr (List.take_of_length_le ?_)))
      simp only [writeEvents, List.length_append, List.length_cons, List.length_nil, List.length_map]
      omega

/-- The first bytes of a transaction that writes a two-byte field: before it, up to its first byte, or past it. -/
theorem take_fieldBytes (pre post : List Byte) (lo hi : Byte) (j : Nat) :
    (∃ i, (pre ++ [lo, hi] ++ post).take j = pre.take i) ∨
    (pre ++ [lo, hi] ++ post).take j = pre ++ [lo] ∨
    ∃ i, (pre ++ [lo, hi] ++ post).take j = pre ++ [lo, hi] ++ post.take i := by
  by_cases hle : j ≤ pre.length
  · exact .inl ⟨j, by rw [List.append_assoc, List.take_append_of_le_length hle]⟩
  · by_cases hone : j = pre.length + 1
    · refine .inr (.inl ?_)
      rw [hone, List.append_assoc, List.take_length_add_append]
      rfl
    · obtain ⟨i, rfl⟩ : ∃ i, j = (pre ++ [lo, hi]).length + i :=
        ⟨j - (pre.length + 2), by simp only [List.length_append, List.length_cons, List.length_nil]; omega⟩
      exact .inr (.inr ⟨i, List.take_length_add_append i⟩)

/-! ## The field while its bytes are written (R79, R80) -/

theorem atomicRead_unprotected {a : Byte} {s : State} (h : wip a 2 s = false) :
    (atomicRead Config.device a 2 s).1 = some (memRead Config.device a 2 s) := by
  rw [(atomicReadFailsOrReadsTheField a 2 s).1]
  exact if_neg fun hw => Bool.eq_false_iff.mp h ((wip_iff a 2 s).mpr hw)

theorem atomicRead_protected {a : Byte} {s : State} (h : wip a 2 s = true) : (atomicRead Config.device a 2 s).1 = none := by
  rw [(atomicReadFailsOrReadsTheField a 2 s).1]
  exact if_pos ((wip_iff a 2 s).mp h)

theorem memRead_two_congr {a : Byte} {s t : State} (h : regRead Config.device a t = regRead Config.device a s)
    (h' : regRead Config.device (a + 1) t = regRead Config.device (a + 1) s) :
    memRead Config.device a 2 t = memRead Config.device a 2 s := by
  rw [memRead_two, memRead_two, h, h']

section
variable {a : Byte} {pre : List Byte} {s : State} (hbus : s.bus = .data)
  (hcur : s.cursor + BitVec.ofNat 8 pre.length = a)
include hbus hcur

/-- The bytes before the field leave it as it is. -/
theorem memRead_before_field (hpre : pre.length ≤ 254) (i : Nat) :
    memRead Config.device a 2 (isrAll Config.device ((pre.take i).map .rx) s) = memRead Config.device a 2 s := by
  have hlen : (pre.take i).length ≤ pre.length := by rw [List.length_take]; omega
  refine memRead_two_congr ?_ ?_
  · refine isrAll_data_regRead_other _ hbus fun j hj => ?_
    bv_omega
  · refine isrAll_data_regRead_other _ hbus fun j hj => ?_
    bv_omega

/-- After the first byte of the field the cursor is inside it: the field is protected. -/
theorem wip_inside_field (ha : a.toNat + 2 < 256) (lo : Byte) :
    wip a 2 (isrAll Config.device ((pre ++ [lo]).map .rx) s) = true := by
  have hc := isrAll_data_cursor (pre ++ [lo]) hbus
  rw [List.length_append, List.length_singleton] at hc
  have hnext : (isrAll Config.device ((pre ++ [lo]).map .rx) s).cursor = a + 1 := by rw [hc]; bv_omega
  rw [wip_iff, hnext]
  refine ⟨isrAll_data_bus _ hbus, ?_, ?_⟩ <;> bv_omega

/-- After both bytes the field holds them, whatever follows short of passing it again. -/
theorem memRead_past_field (hplain : (a ≠ 0x1E ∧ a ≠ 0x1F ∧ a ≠ 0xDD) ∧ a + 1 ≠ 0x1E ∧ a + 1 ≠ 0x1F ∧ a + 1 ≠ 0xDD)
    (lo hi : Byte) {post : List Byte} (hpost : post.length ≤ 254) :
    memRead Config.device a 2 (isrAll Config.device ((pre ++ [lo, hi] ++ post).map .rx) s) =
      lo.toNat + 256 * hi.toNat := by
  obtain ⟨hplain, hplain'⟩ := hplain
  have hbus₁ := isrAll_data_bus pre hbus
  have hcur₁ := (isrAll_data_cursor pre hbus).trans hcur
  rw [List.append_assoc, List.map_append, isrAll_append]
  generalize isrAll Config.device (pre.map .rx) s = u at hbus₁ hcur₁ ⊢
  have hlo : isr Config.device (.rx lo) u = dataByte Config.device lo u := isr_rx_data _ _ _ hbus₁
  have hhi : isr Config.device (.rx hi) (dataByte Config.device lo u) =
      dataByte Config.device hi (dataByte Config.device lo u) := isr_rx_data _ _ _ ((dataByte_bus _ _ _).trans hbus₁)
  have hcur₂ : (dataByte Config.device lo u).cursor = a + 1 := by rw [dataByte_cursor, hcur₁, nextCursor_device]
  have hcur₃ : (dataByte Config.device hi (dataByte Config.device lo u)).cursor = a + 2 := by
    rw [dataByte_cursor, hcur₂, nextCursor_device]
    bv_omega
  have hbus₃ : (dataByte Config.device hi (dataByte Config.device lo u)).bus = .data := by
    rw [dataByte_bus, dataByte_bus, hbus₁]
  rw [List.cons_append, List.singleton_append, List.map_cons, List.map_cons, isrAll_cons, hlo, isrAll_cons, hhi,
    memRead_two, isrAll_data_regRead_other _ hbus₃ fun i hi => by rw [hcur₃]; bv_omega,
    isrAll_data_regRead_other _ hbus₃ fun i hi => by rw [hcur₃]; bv_omega,
    dataByte_regRead, dataByte_regRead, dataByte_regRead, hcur₂, hcur₁, if_neg (fun h => by bv_omega),
    if_pos ⟨rfl, hplain⟩, if_pos ⟨rfl, hplain'⟩, le16_toNat]

end

/-- The frequency and the timeouts are plain registers, away from the end of the array (R20, R22, R25). -/
theorem protectedField_plain {a : Byte} (h : a = 0x1A ∨ ∃ n : Chan, a = BitVec.ofNat 8 (0x22 + 4 * n.val)) :
    a.toNat + 2 < 256 ∧ (a ≠ 0x1E ∧ a ≠ 0x1F ∧ a ≠ 0xDD) ∧ a + 1 ≠ 0x1E ∧ a + 1 ≠ 0x1F ∧ a + 1 ≠ 0xDD := by
  obtain rfl | ⟨n, rfl⟩ := h
  · decide
  · revert n
    decide

/-- Settles O15: by where the transaction is cut off: before the field, between its bytes, or past it. -/
theorem protectedReadIsNeverTorn : Obligations.ProtectedReadIsNeverTorn := by
  unfold Obligations.ProtectedReadIsNeverTorn
  intro a b pre post lo hi k s hfield hcur hpre hpost es r
  obtain ⟨ha, hplain⟩ := protectedField_plain hfield
  have hbus : ({ s with cursor := b, bus := .data } : State).bus = .data := rfl
  have hpast : ∀ i, memRead Config.device a 2
      (isrAll Config.device ((pre ++ [lo, hi] ++ post.take i).map .rx) { s with cursor := b, bus := .data }) =
      lo.toNat + 256 * hi.toNat := fun i =>
    memRead_past_field hbus hcur hplain lo hi ((List.length_take_le' i post).trans hpost)
  have hfull : (atomicRead Config.device a 2 (isrAll Config.device es s)).1 = some (lo.toNat + 256 * hi.toNat) := by
    have hes : isrAll Config.device es s = _ := isrAll_writeEvents b (pre ++ [lo, hi] ++ post) s
    rw [hes, atomicRead_unprotected rfl]
    refine congrArg some ((memRead_congr _ _ _ rfl).trans ?_)
    have hall := hpast post.length
    rwa [List.take_length] at hall
  have hdata : ∀ l : List Byte, isrAll Config.device ([.startW, .rx b] ++ l.map .rx) s =
      isrAll Config.device (l.map .rx) { s with cursor := b, bus := .data } := fun l => by
    rw [isrAll_append]
    exact congrArg _ (setaddr_device b _)
  refine ⟨?_, hfull⟩
  have hr : r = (atomicRead Config.device a 2 (isrAll Config.device (es.take k) s)).1 := rfl
  have hopen : ∀ {t v}, isrAll Config.device (es.take k) s = t → memRead Config.device a 2 t = v → r = none ∨ r = some v := by
    rintro t v rfl rfl
    cases hw : wip a 2 (isrAll Config.device (es.take k) s) with
    | true => exact .inl (atomicRead_protected hw)
    | false => exact .inr (atomicRead_unprotected hw)
  obtain hk | hk | ⟨j, hk⟩ | hk := take_writeEvents b (pre ++ [lo, hi] ++ post) k
  · exact (hopen (congrArg (isrAll Config.device · s) hk) rfl).imp_right .inl
  · exact (hopen (congrArg (isrAll Config.device · s) hk) (memRead_congr _ _ _ rfl)).imp_right .inl
  · have hrun := (congrArg (isrAll Config.device · s) hk).trans (hdata _)
    obtain ⟨i, hi'⟩ | hi' | ⟨i, hi'⟩ := take_fieldBytes pre post lo hi j <;> rw [hi'] at hrun
    · exact (hopen hrun ((memRead_before_field hbus hcur hpre i).trans (memRead_congr _ _ _ rfl))).imp_right .inl
    · refine .inl ?_
      rw [hr, show isrAll Config.device (es.take k) s = _ from hrun]
      exact atomicRead_protected (wip_inside_field hbus hcur ha lo)
    · exact (hopen hrun (hpast i)).imp_right .inr
  · refine .inr (.inr ?_)
    rw [hr, show es.take k = es from hk, hfull]

end Sys2Proof.Machine
end

section
/-! PROOFS. The statements about restarts and about runs of the whole machine (60_exceptions.md section 3, 10_state.md sections
7 and 10): the table of hardware-reset values, the boot loader, the clock, and what escalates. -/

namespace Sys2Proof.Machine

open Sys2Proof.Safety

/-! ## Restart (R50, R283 to R285, R311) -/

/-- An unlisted address reads as its value in the table (R50). -/
theorem resetByte_device (a : Byte) : resetByte Config.device a.toNat = hardwareResetByte a := by
  have hlo : loByte defaultFreq = 0x20 := by decide
  have hhi : hiByte defaultFreq = 0x4E := by decide
  have hflag : Config.device.ctrl0HwresetAtBoot = true := rfl
  simp only [resetByte, hardwareResetByte, hlo, hhi, hflag, if_true, ← BitVec.toNat_inj]
  rfl

theorem pin_disabled {s : State} (h : s.alloc.outEnabled = false) (n : Chan) : s.pin n = .hiz := by
  cases hk : s.alloc.binding[n].cls with
  | none => exact pin_inert hk
  | some k => rw [pin_bound hk, h, if_neg Bool.false_ne_true]

/-- The boot sequence leaves the table of values. -/
theorem hardwareReset_values (s : State) : HardwareResetValues (hardwareReset Config.device s) := by
  obtain ⟨htimer, hlane, hout, hzero⟩ := bootAllocator_keeps Config.device
  have ha := hardwareReset_alloc Config.device s
  have houts : (hardwareReset Config.device s).alloc.outEnabled = false := by rw [ha, hout]
  refine ⟨resetByte_device, ⟨rfl, rfl, rfl, rfl, rfl⟩, ⟨rfl, rfl, rfl, rfl⟩, fun n => ?_, ?_, ?_, fun n => ?_, houts,
    hardwareReset_log _ s, rfl⟩
  · simp [hardwareReset]
  · unfold MappingFixed
    rw [ha]
    exact ⟨rfl, rfl, rfl⟩
  · rw [ha]
    exact ⟨htimer, hlane⟩
  · rw [ha]
    exact ⟨(hzero n).1, (hzero n).2, pin_disabled houts n⟩

theorem restart_of_ne_bootsel {kind : RestartKind} (h : kind ≠ .bootsel) (P : Params) (s : State) :
    restart P kind s = hardwareReset P (pinsHiz s) := by
  cases kind with
  | bootsel => exact absurd rfl h
  | cpu | wdt => rfl

/-- Settles O22: power-on and the two restarts leave what the boot sequence leaves. -/
theorem hardwareResetLeavesTheTableOfValues : Obligations.HardwareResetLeavesTheTableOfValues := by
  unfold Obligations.HardwareResetLeavesTheTableOfValues
  refine ⟨hardwareReset_values State.reset, fun kind s hkind => ?_⟩
  rw [restart_of_ne_bootsel hkind]
  exact ⟨hardwareReset_values _, rfl, rfl⟩

/-! ## The traffic of a call, batch by batch (log 39) -/

/-- A relation between the steps still to fall inside a call and the state, kept by each of those steps, by the call's events
and by the consumption of `beside`, holds at the end of the traffic. -/
theorem transmit_batches (P : Params) (Q : List Beside → State → Prop)
    (hb : ∀ b bs u, Q (b :: bs) u → Q bs (besideStep P b u)) (hl : ∀ bs u, Q bs u → Q bs (takeLine P u))
    (hc : ∀ bs u l, Q bs u → Q bs { u with beside := l }) (n : Nat) (s : State) (h : Q s.beside.flatten s) :
    Q (transmit P n s).beside.flatten (transmit P n s) := by
  have fold : ∀ (batch bs : List Beside) (u : State), Q (batch ++ bs) u →
      Q bs (batch.foldl (fun s b => besideStep P b s) u) ∧
        (batch.foldl (fun s b => besideStep P b s) u).beside = u.beside := by
    intro batch bs
    induction batch with
    | nil => exact fun u hu => ⟨hu, rfl⟩
    | cons b batch ih =>
      intro u hu
      obtain ⟨hq, hkept⟩ := ih _ (hb b _ u hu)
      exact ⟨hq, hkept.trans (besideStep_driverKept P b u).beside⟩
  have hw : ∀ u, Q u.beside.flatten u → Q (besideWindow P u).beside.flatten (besideWindow P u) := by
    intro u hu
    unfold besideWindow
    split
    · exact hu
    · next batch rest hbeside =>
      rw [hbeside, List.flatten_cons] at hu
      obtain ⟨hq, hkept⟩ := fold batch rest.flatten _ (hc _ u rest hu)
      rw [hkept]
      exact hq
  induction n generalizing s with
  | zero => exact h
  | succ n ih =>
    unfold transmit
    split
    · exact h
    · refine ih _ ?_
      rw [(takeLine_isrOnly P _).beside]
      exact hl _ _ (hw s h)

/-! ## The boot loader (R285, D11) -/

/-- What may change while the device is in the boot loader: the clock, the host driver, and the inputs. -/
def BootloaderKept (s t : State) : Prop :=
  t = { s with
    agenda := t.agenda, now := t.now, host := t.host, freeCount := t.freeCount, link := t.link, line := t.line
    beside := t.beside }

theorem BootloaderKept.run {s t : State} (h : BootloaderKept s t) : t.run = s.run := by
  rw [BootloaderKept] at h
  rw [h]

theorem BootloaderKept.trans {s t u : State} (h : BootloaderKept s t) (k : BootloaderKept t u) : BootloaderKept s u := by
  unfold BootloaderKept at *
  rw [k, h]

theorem enginePhase_bootloader {s : State} (h : s.run = .bootloader) (P : Params) (during : List (List Arrival)) :
    enginePhase P during s = s := if_pos h

theorem deliver_bootloader {s : State} (h : s.run = .bootloader) (P : Params) (e : BusEvent) : deliver P e s = s := if_pos h

theorem besideStep_bootloader {s : State} (h : s.run = .bootloader) (P : Params) (b : Beside) :
    BootloaderKept s (besideStep P b s) := by
  cases b with
  | elapse us => rfl
  | watchdog =>
    rw [besideStep, watchdogStep, if_neg fun hw => absurd (h.symm.trans ((wdtExpired_iff P s).mp hw).1) (by decide)]
    rfl
  | engine during =>
    rw [besideStep, enginePhase_bootloader h]
    rfl

theorem sendEvent_bootloader {s : State} (h : s.run = .bootloader) (P : Params) (e : BusEvent) (rest : List BusEvent)
    (queue : List (List BusEvent)) : BootloaderKept s (sendEvent P e rest queue s) := by
  unfold sendEvent deliver
  rw [if_pos h]
  rfl

theorem takeLine_bootloader {s : State} (h : s.run = .bootloader) (P : Params) : BootloaderKept s (takeLine P s) := by
  unfold takeLine
  split
  · exact sendEvent_bootloader h P _ _ _
  · rfl
  · rfl
  · exact sendEvent_bootloader h P _ _ _

theorem converse_bootloader {s : State} (h : s.run = .bootloader) (errands : List Errand) :
    BootloaderKept s (converse Config.device errands s) := by
  have hsent : BootloaderKept s (sendAll Config.device errands s) :=
    transmit_induction Config.device (BootloaderKept s)
      (fun b u hu => hu.trans (besideStep_bootloader (hu.run.trans h) _ b))
      (fun u hu => hu.trans (takeLine_bootloader (hu.run.trans h) _)) (fun u bs hu => hu.trans rfl) _ _ rfl
  exact hsent.trans rfl

/-- Settles O23: the restart turns the pins off; afterwards time and the host driver alone go on. -/
theorem bootloaderIsTerminalAndHighImpedance : Obligations.BootloaderIsTerminalAndHighImpedance := by
  unfold Obligations.BootloaderIsTerminalAndHighImpedance
  refine ⟨fun s => ⟨rfl, fun n => pin_disabled rfl n, rfl, rfl⟩, fun s t hrun ht => ?_⟩
  change BootloaderKept s t
  have taken : ∀ rest beside, BootloaderKept s { s with agenda := rest, beside := beside } := fun _ _ => rfl
  have still : ∀ rest beside, ({ s with agenda := rest, beside := beside } : State).run = .bootloader := fun _ _ => hrun
  match hag : s.agenda with
  | [] =>
    rw [step_empty hag, enginePhase_bootloader hrun] at ht
    cases ht
    rfl
  | .event e :: rest =>
    rw [step_event hag, deliver_bootloader (s := { s with agenda := rest }) hrun] at ht
    cases ht
    rfl
  | .query q :: rest =>
    rw [step_query hag, ask, if_pos hrun] at ht
    cases ht
    rfl
  | .elapse us :: rest =>
    rw [step_elapse hag] at ht
    cases ht
    exact (taken rest s.beside).trans (besideStep_bootloader (still rest s.beside) _ _)
  | .watchdog :: rest =>
    rw [step_watchdog hag] at ht
    cases ht
    exact (taken rest s.beside).trans (besideStep_bootloader (still rest s.beside) _ _)
  | .engine during :: rest =>
    rw [step_engine hag] at ht
    cases ht
    exact (taken rest s.beside).trans (besideStep_bootloader (still rest s.beside) _ _)
  | .host sel args beside :: rest =>
    rw [step_host hag] at ht
    obtain ⟨errands, rfl⟩ | heff := hostEffect_of_runKey ht
    · exact (taken rest beside).trans (converse_bootloader (still rest beside) errands)
    · rw [heff]
      rfl

/-! ## What escalates (60_exceptions.md section 3) -/

/-- A running device has not entered the boot loader, and disabled outputs have not been enabled. -/
def NoEscalation (s t : State) : Prop :=
  (s.run = .running → t.run = .running) ∧ (s.alloc.outEnabled = false → t.alloc.outEnabled = false)

theorem NoEscalation.of_eq {s t : State} (hrun : t.run = s.run) (hout : t.alloc.outEnabled = s.alloc.outEnabled) :
    NoEscalation s t := ⟨hrun.trans, hout.trans⟩

theorem NoEscalation.trans {s t u : State} (h : NoEscalation s t) (k : NoEscalation t u) : NoEscalation s u :=
  ⟨fun hrun => k.1 (h.1 hrun), fun hout => k.2 (h.2 hout)⟩

theorem noEscalation_of_isrOnly {s t : State} (h : IsrOnly s t) : NoEscalation s t :=
  .of_eq h.run (congrArg Allocator.outEnabled h.alloc)

/-- A hardware reset leaves a running device with its outputs off. -/
theorem hardwareReset_noEscalation (s u : State) : NoEscalation s (hardwareReset Config.device u) :=
  ⟨fun _ => rfl, fun _ => (hardwareReset_values u).outEnabled⟩

theorem watchdogStep_noEscalation (s : State) : NoEscalation s (watchdogStep Config.device s) := by
  unfold watchdogStep
  split
  · exact hardwareReset_noEscalation _ _
  · exact .of_eq rfl rfl

/-- What a step of an agent from `s` to `t` may escalate: the boot loader is entered from phase 1 by a confirmed, elapsed
bootloader code in the window's state `w`; the outputs are enabled in phase 28 with the output-enable bit set in `w`. -/
def Escalates (s w t : State) : Prop :=
  (s.run = .running → t.run = .bootloader →
    s.phase = 1 ∧ ∃ t₀, w.hs = .confirmed .bootsel t₀ ∧ Config.device.resetGraceUs ≤ s.now - t₀) ∧
  (s.alloc.outEnabled = false → t.alloc.outEnabled = true →
    s.phase = 28 ∧ oeBit (regRead Config.device 0x18 w) = true)

theorem NoEscalation.not_bootloader {s t : State} (h : NoEscalation s t) (hrun : s.run = .running) :
    t.run ≠ .bootloader := fun hboot => absurd ((h.1 hrun).symm.trans hboot) (by decide)

theorem NoEscalation.not_enabled {s t : State} (h : NoEscalation s t) (hout : s.alloc.outEnabled = false) :
    t.alloc.outEnabled ≠ true := fun hon => absurd ((h.2 hout).symm.trans hon) (by decide)

theorem NoEscalation.escalates {s t : State} (h : NoEscalation s t) (w : State) : Escalates s w t :=
  ⟨fun hrun hboot => absurd hboot (h.not_bootloader hrun), fun hout hon => absurd hon (h.not_enabled hout)⟩

theorem hsEval_escalates {s : State} (hp : s.phase = 1) :
    Escalates s (window Config.device s) (hsEval Config.device s) := by
  cases hd : restartDue Config.device s.now (window Config.device s).hs with
  | none =>
    rw [hsEval_notDue hd]
    have hend := endPhase_isrOnly Config.device 2 (window_isrOnly Config.device s)
    exact NoEscalation.escalates (s := s) (.of_eq hend.run (by rw [hend.alloc])) _
  | some kind =>
    rw [hsEval_due hd]
    cases kind with
    | cpu => exact (hardwareReset_noEscalation _ _).escalates _
    | bootsel => exact ⟨fun _ _ => ⟨hp, restartDue_eq_some_iff.mp hd⟩, fun _ hon => by cases hon⟩

theorem oeApply_escalates {s : State} (hp : s.phase = 28) :
    Escalates s (window Config.device s) (oeApply Config.device s) := by
  obtain ⟨hisr, hout⟩ := oeApply_isrOnly Config.device s
  refine ⟨fun hrun hboot => absurd (hrun.symm.trans (hisr.run.symm.trans hboot)) (by decide), fun hoff hon => ⟨hp, ?_⟩⟩
  obtain hsame | hbit := hout
  · exact absurd (hoff.symm.trans (hsame.symm.trans hon)) (by decide)
  · exact hbit.symm.trans hon

/-- Phase 1 alone enters the boot loader, and phase 28 alone enables the outputs. -/
theorem runPhase_escalates (s : State) : Escalates s (window Config.device s) (runPhase Config.device s) := by
  have calm : ∀ {t}, NoEscalation s t → Escalates s (window Config.device s) t := fun h => h.escalates _
  unfold runPhase
  split
  · have h := wdtFeed_isrOnly Config.device s
    exact calm (.of_eq h.run (by rw [h.alloc]))
  split
  · next hp => exact hsEval_escalates (Fin.ext hp)
  split
  · have h := regReset_isrOnly Config.device s
    exact calm (.of_eq h.run (by rw [h.alloc]))
  split
  · next h3 =>
    have h := chUpdate_channelOnly Config.device ⟨s.phase.val - 3, h3⟩ s
    exact calm (.of_eq h.frame.run (by rw [h.alloc]))
  split
  · obtain ⟨h, hout⟩ := freqApply_isrOnly Config.device s
    exact calm (.of_eq h.run hout)
  · next h0 h1 h2 h3 h27 =>
    have hlt := s.phase.isLt
    exact oeApply_escalates (Fin.ext (show s.phase.val = 28 by omega))

theorem enginePhase_escalates (during : List (List Arrival)) (s : State) :
    Escalates s (window Config.device { s with arrivals := during }) (enginePhase Config.device during s) := by
  unfold enginePhase
  split
  · exact NoEscalation.escalates (.of_eq rfl rfl) _
  · exact runPhase_escalates { s with arrivals := during }

/-- A call with no other agent's step inside it escalates nothing. -/
theorem converse_noEscalation {s : State} (h : s.beside.flatten = []) (errands : List Errand) :
    NoEscalation s (converse Config.device errands s) := by
  refine (transmit_batches Config.device (fun bs u => bs = [] ∧ NoEscalation s u) ?_ ?_ (fun _ _ _ hu => hu) _
    (beginCall Config.device errands s) ⟨h, .of_eq rfl rfl⟩).2
  · intro b bs u hu
    cases hu.1
  · intro bs u ⟨hbs, hu⟩
    exact ⟨hbs, hu.trans (noEscalation_of_isrOnly (takeLine_isrOnly _ u))⟩

theorem hostEffect_noEscalation {s t : State} (h : s.beside.flatten = []) (ht : HostEffect s t) : NoEscalation s t := by
  obtain ⟨errands, rfl⟩ | ht := ht
  · exact converse_noEscalation h errands
  · rw [ht]
    exact .of_eq rfl rfl

/-- The first part of O52: a step, by the next agenda entry. -/
theorem step_escalates {s t : State} (ht : step s = .next t) (hbeside : besideNext s = []) :
    Escalates s (window Config.device (phaseStart s)) t := by
  match hag : s.agenda with
  | [] =>
    rw [step_empty hag] at ht
    cases ht
    rw [phaseStart, hag]
    exact enginePhase_escalates [] s
  | .elapse us :: rest =>
    rw [step_elapse hag] at ht
    cases ht
    exact NoEscalation.escalates (.of_eq rfl rfl) _
  | .watchdog :: rest =>
    rw [step_watchdog hag] at ht
    cases ht
    exact NoEscalation.escalates (watchdogStep_noEscalation { s with agenda := rest }) _
  | .event e :: rest =>
    rw [step_event hag] at ht
    cases ht
    exact NoEscalation.escalates (noEscalation_of_isrOnly (deliver_isrOnly _ e { s with agenda := rest })) _
  | .engine during :: rest =>
    rw [step_engine hag] at ht
    cases ht
    rw [phaseStart, hag]
    exact enginePhase_escalates during { s with agenda := rest }
  | .query q :: rest =>
    rw [step_query hag] at ht
    cases ht
    unfold ask
    split <;> exact NoEscalation.escalates (.of_eq rfl rfl) _
  | .host sel args beside :: rest =>
    rw [besideNext, hag] at hbeside
    rw [step_host hag] at ht
    exact (hostEffect_noEscalation (s := { s with agenda := rest, beside := beside }) hbeside
      (hostEffect_of_runKey ht)).escalates _

/-- Settles O52: steps, the steps inside a call, the events of a call, and the induction over a call. -/
theorem onlyTheseEventsEscalate : Obligations.OnlyTheseEventsEscalate := by
  unfold Obligations.OnlyTheseEventsEscalate
  refine ⟨fun s t ht hbeside => step_escalates ht hbeside, fun b s => ?_,
    fun s => ⟨(takeLine_isrOnly _ s).run, (takeLine_isrOnly _ s).alloc⟩, ?_⟩
  · cases b with
    | elapse us =>
      have h : NoEscalation s (besideStep Config.device (.elapse us) s) := .of_eq rfl rfl
      exact ⟨fun hrun hboot => absurd hboot (h.not_bootloader hrun), fun hout hon => absurd hon (h.not_enabled hout)⟩
    | watchdog =>
      have h := watchdogStep_noEscalation s
      exact ⟨fun hrun hboot => absurd hboot (h.not_bootloader hrun), fun hout hon => absurd hon (h.not_enabled hout)⟩
    | engine during =>
      obtain ⟨hboot, hon⟩ := enginePhase_escalates during s
      refine ⟨fun hr hb => ?_, fun h0 h1 => ?_⟩
      · obtain ⟨hp, t₀, hc, hg⟩ := hboot hr hb
        exact ⟨hp, during, t₀, rfl, hc, hg⟩
      · obtain ⟨hp, hbit⟩ := hon h0 h1
        exact ⟨hp, during, rfl, hbit⟩
  · intro Q hb hl hframe sel args beside rest s t hag ht hs
    rw [step_host hag] at ht
    have hs' : Q { s with agenda := rest, beside := beside } := hframe s _ hs rfl
    obtain ⟨errands, rfl⟩ | heff := hostEffect_of_runKey ht
    · have hsent : Q (sendAll Config.device errands { s with agenda := rest, beside := beside }) :=
        transmit_induction Config.device Q hb hl (fun u bs hu => hframe u _ hu rfl) _ _ (hframe _ _ hs' rfl)
      exact hframe _ _ hsent rfl
    · refine hframe _ t hs' ?_
      rw [heff]

/-! ## The clock (R26, log 2, log 39) -/

/-- The clock has not gone back, and has gone on by no more than what was still to pass inside the phase. -/
structure ClockKept (s t : State) : Prop where
  mono   : s.now ≤ t.now
  budget : t.now + elapsedDuring t.arrivals ≤ s.now + elapsedDuring s.arrivals

theorem ClockKept.of_eq {s t : State} (hnow : t.now = s.now) (harr : t.arrivals = s.arrivals) : ClockKept s t :=
  ⟨hnow.ge, by rw [hnow, harr]⟩

theorem ClockKept.trans {s t u : State} (h : ClockKept s t) (k : ClockKept t u) : ClockKept s u :=
  ⟨h.mono.trans k.mono, k.budget.trans h.budget⟩

theorem deliver_clock (P : Params) (e : BusEvent) (s : State) :
    (deliver P e s).now = s.now ∧ (deliver P e s).arrivals = s.arrivals := by
  obtain ⟨-, -, harr, hnow, -⟩ := isr_keeps_mask P e s
  unfold deliver
  split_ifs
  · exact ⟨rfl, rfl⟩
  · exact ⟨rfl, rfl⟩
  · exact ⟨hnow, harr⟩

theorem takeLine_clock (P : Params) (s : State) :
    (takeLine P s).now = s.now ∧ (takeLine P s).arrivals = s.arrivals := by
  unfold takeLine
  split
  · exact deliver_clock P _ _
  · exact ⟨rfl, rfl⟩
  · exact ⟨rfl, rfl⟩
  · exact deliver_clock P _ _

theorem isrAll_clock (P : Params) (es : List BusEvent) (s : State) :
    (isrAll P es s).now = s.now ∧ (isrAll P es s).arrivals = s.arrivals := by
  induction es generalizing s with
  | nil => exact ⟨rfl, rfl⟩
  | cons e es ih =>
    obtain ⟨-, -, harr, hnow, -⟩ := isr_keeps_mask P e s
    exact ⟨(ih _).1.trans hnow, (ih _).2.trans harr⟩

/-- The end of a section takes no time. -/
theorem leaveSection_clock (P : Params) {s u : State} (hnow : u.now = s.now) (harr : u.arrivals = s.arrivals) :
    ClockKept s (leaveSection P u) := by
  obtain ⟨hnow', harr'⟩ := isrAll_clock P u.held { u with irqMasked := false, held := [] }
  exact .of_eq (hnow'.trans hnow) (harr'.trans harr)

/-- A batch of arrivals takes the time that passes before each of them. -/
theorem arriveAll_clock (P : Params) (batch : List Arrival) (s : State) :
    (arriveAll P batch s).now = s.now + (batch.map Arrival.elapse).sum ∧
      (arriveAll P batch s).arrivals = s.arrivals := by
  induction batch generalizing s with
  | nil => exact ⟨rfl, rfl⟩
  | cons a batch ih =>
    have hland : (arrive P a s).now = s.now + a.elapse ∧ (arrive P a s).arrivals = s.arrivals := by
      unfold arrive land
      split
      · exact deliver_clock P _ _
      · exact takeLine_clock P _
    obtain ⟨hnow, harr⟩ := ih (arrive P a s)
    refine ⟨hnow.trans ?_, harr.trans hland.2⟩
    rw [hland.1, List.map_cons, List.sum_cons, Nat.add_assoc]

theorem elapsedDuring_cons (batch : List Arrival) (rest : List (List Arrival)) :
    elapsedDuring (batch :: rest) = (batch.map Arrival.elapse).sum + elapsedDuring rest := by
  simp [elapsedDuring]

theorem window_clock (P : Params) (s : State) : ClockKept s (window P s) := by
  unfold window
  split
  · exact .of_eq rfl rfl
  · next batch rest hs =>
    obtain ⟨hnow, harr⟩ := arriveAll_clock P batch { s with arrivals := rest }
    have hsum := elapsedDuring_cons batch rest
    dsimp only at hnow harr
    exact ⟨by omega, by rw [hs, harr]; omega⟩

theorem endPhase_clock (P : Params) (p : Phase) (s : State) : ClockKept s (endPhase P p s) := by
  obtain ⟨hnow, harr⟩ := arriveAll_clock P s.arrivals.flatten { s with arrivals := [] }
  have hend : (endPhase P p s).now = s.now + elapsedDuring s.arrivals := hnow
  have hnil : elapsedDuring (endPhase P p s).arrivals = 0 := congrArg elapsedDuring harr
  exact ⟨by omega, by omega⟩

theorem restart_clock (P : Params) (kind : RestartKind) (s : State) : ClockKept s (restart P kind s) := by
  cases kind <;> exact ⟨le_rfl, Nat.le_add_right _ _⟩

theorem engAtomicRead_clock (P : Params) (a : Byte) (w : Nat) (s : State) : ClockKept s (engAtomicRead P a w s).2 :=
  (window_clock P s).trans (leaveSection_clock P rfl rfl)

theorem resetWrite_clock (P : Params) (w : ResetWrite) (s : State) : ClockKept s (resetWrite P w s) := by
  cases w with
  | byte a v => exact (window_clock P s).trans (.of_eq rfl rfl)
  | field a v => exact (window_clock P s).trans (leaveSection_clock P rfl rfl)

theorem runScript_clock (P : Params) (ws : List ResetWrite) (s : State) : ClockKept s (runScript P ws s) := by
  induction ws generalizing s with
  | nil => exact .of_eq rfl rfl
  | cons w ws ih => exact (resetWrite_clock P w s).trans (ih _)

theorem clearRequest_clock (P : Params) (s : State) : ClockKept s (clearRequest P s) :=
  (window_clock P s).trans (leaveSection_clock P rfl rfl)

theorem hsEval_clock (P : Params) (s : State) : ClockKept s (hsEval P s) := by
  unfold hsEval
  dsimp only
  split
  · exact (window_clock P s).trans (restart_clock P _ _)
  · exact (window_clock P s).trans (endPhase_clock P _ _)

theorem regReset_clock (P : Params) (s : State) : ClockKept s (regReset P s) := by
  unfold regReset
  dsimp only [engRead]
  split
  · have hscript := (window_clock P s).trans (runScript_clock P (resetScript P) _)
    have hinit : ClockKept s (initRuntime (runScript P (resetScript P) (window P s))) := hscript.trans (.of_eq rfl rfl)
    exact (hinit.trans (clearRequest_clock P _)).trans (endPhase_clock P 3 _)
  · exact (window_clock P s).trans (endPhase_clock P 3 _)

theorem updateDeadline_clock (P : Params) (n : Chan) (L prev limit : Byte) (dl : Option Nat) (now : Nat) (s : State) :
    ClockKept s (updateDeadline P n L prev limit dl now s).state := by
  have h := engAtomicRead_clock P (cfgAddr n 2) 2 s
  unfold updateDeadline
  split
  · split
    · split
      · next heq => rw [heq] at h; exact h
      · next heq => rw [heq] at h; exact h
    · exact .of_eq rfl rfl
  · exact .of_eq rfl rfl

theorem chUpdatePush_clock (P : Params) (n : Chan) (t : Nat) (L limit : Byte) (s : State) :
    ClockKept s (chUpdatePush P n t L limit s) := by
  unfold chUpdatePush
  dsimp only [engRead]
  split
  · exact (window_clock P s).trans (endPhase_clock P _ _)
  · refine ((window_clock P s).trans ?_).trans (endPhase_clock P _ _)
    exact .of_eq rfl rfl

theorem chUpdateSeen_clock (P : Params) (n : Chan) (t : Nat) (L : Byte) (s : State) :
    ClockKept s (chUpdateSeen P n t L s) := by
  have hw : ClockKept s (engRead P (cfgAddr n 1) s).2 := window_clock P s
  unfold chUpdateSeen
  generalize engRead P (cfgAddr n 1) s = r at hw ⊢
  obtain ⟨limit, w⟩ := r
  dsimp only at hw ⊢
  have hu := updateDeadline_clock P n L w.lastLevel[n] limit w.deadline[n] t w
  generalize updateDeadline P n L w.lastLevel[n] limit w.deadline[n] t w = u at hu ⊢
  split
  · exact hw.trans (chUpdatePush_clock P n t L _ w)
  split
  · refine ((hw.trans hu).trans ?_).trans (chUpdatePush_clock P n t L _ _)
    exact .of_eq rfl rfl
  · exact (hw.trans hu).trans (endPhase_clock P _ _)

theorem chUpdate_clock (P : Params) (n : Chan) (s : State) : ClockKept s (chUpdate P n s) := by
  have h := engAtomicRead_clock P (levelAddr n) 1 s
  unfold chUpdate
  split
  · next heq => rw [heq] at h; exact h.trans (endPhase_clock P _ _)
  · next heq => rw [heq] at h; exact h.trans (chUpdateSeen_clock P n _ _ _)

theorem freqApply_clock (P : Params) (s : State) : ClockKept s (freqApply P s) := by
  have h := engAtomicRead_clock P freqAddr 2 s
  unfold freqApply
  split
  · next heq => rw [heq] at h; exact h.trans (endPhase_clock P _ _)
  · next f w heq =>
    rw [heq] at h
    split
    · exact h.trans (endPhase_clock P _ _)
    · refine ClockKept.trans (h.trans ?_) (endPhase_clock P _ _)
      exact .of_eq rfl rfl

theorem oeApply_clock (P : Params) (s : State) : ClockKept s (oeApply P s) := by
  unfold oeApply
  dsimp only [engRead]
  split
  · exact (window_clock P s).trans (endPhase_clock P _ _)
  · refine ((window_clock P s).trans ?_).trans (endPhase_clock P _ _)
    exact .of_eq rfl rfl

/-- Every phase takes at most the time that passes inside it. -/
theorem runPhase_clock (P : Params) (s : State) : ClockKept s (runPhase P s) := by
  unfold runPhase
  split
  · exact ClockKept.trans (t := { s with wdtLastFeed := s.now }) (.of_eq rfl rfl) (endPhase_clock P 1 _)
  split
  · exact hsEval_clock P s
  split
  · exact regReset_clock P s
  split
  · exact chUpdate_clock P _ s
  split
  · exact freqApply_clock P s
  · exact oeApply_clock P s

/-- A step of another agent takes at most what CLOCK lets pass in it. -/
theorem besideStep_clock (P : Params) (b : Beside) (s : State) :
    s.now ≤ (besideStep P b s).now ∧ (besideStep P b s).now ≤ s.now + elapsedBeside b := by
  cases b with
  | elapse us => exact ⟨Nat.le_add_right _ _, le_rfl⟩
  | watchdog =>
    simp only [besideStep, watchdogStep]
    split <;> exact ⟨le_rfl, le_rfl⟩
  | engine during =>
    simp only [besideStep, enginePhase]
    split
    · exact ⟨le_rfl, Nat.le_add_right _ _⟩
    · obtain ⟨hmono, hbudget⟩ := runPhase_clock P { s with arrivals := during }
      exact ⟨hmono, (Nat.le_add_right _ _).trans hbudget⟩

/-- A call takes at most the time of the steps that fall inside it. -/
theorem converse_clock (errands : List Errand) (s : State) :
    s.now ≤ (converse Config.device errands s).now ∧
      (converse Config.device errands s).now ≤ s.now + (s.beside.flatten.map elapsedBeside).sum := by
  have h := transmit_batches Config.device
    (fun bs u => s.now ≤ u.now ∧
      u.now + (bs.map elapsedBeside).sum ≤ s.now + (s.beside.flatten.map elapsedBeside).sum)
    ?_ ?_ (fun _ _ _ hu => hu) ((callTraffic Config.device errands s).map fun es => es.length + 1).sum
    (beginCall Config.device errands s) ⟨le_rfl, le_rfl⟩
  · exact ⟨h.1, (Nat.le_add_right _ _).trans h.2⟩
  · intro b bs u ⟨hmono, hbudget⟩
    obtain ⟨hstep, hbound⟩ := besideStep_clock Config.device b u
    rw [List.map_cons, List.sum_cons] at hbudget
    exact ⟨hmono.trans hstep, by omega⟩
  · intro bs u hu
    rw [(takeLine_clock Config.device u).1]
    exact hu

/-- Settles O51: by the next agenda entry. -/
theorem clockNeverDecreases : Obligations.ClockNeverDecreases := by
  unfold Obligations.ClockNeverDecreases
  intro s t ht
  match hag : s.agenda with
  | [] =>
    rw [step_empty hag] at ht
    cases ht
    exact besideStep_clock Config.device (.engine []) s
  | .elapse us :: rest =>
    rw [step_elapse hag] at ht
    cases ht
    exact besideStep_clock Config.device (.elapse us) { s with agenda := rest }
  | .watchdog :: rest =>
    rw [step_watchdog hag] at ht
    cases ht
    exact besideStep_clock Config.device .watchdog { s with agenda := rest }
  | .engine during :: rest =>
    rw [step_engine hag] at ht
    cases ht
    exact besideStep_clock Config.device (.engine during) { s with agenda := rest }
  | .event e :: rest =>
    rw [step_event hag] at ht
    cases ht
    rw [(deliver_clock _ _ _).1]
    exact ⟨le_rfl, le_rfl⟩
  | .query q :: rest =>
    rw [step_query hag] at ht
    cases ht
    unfold ask
    split <;> exact ⟨le_rfl, le_rfl⟩
  | .host sel args beside :: rest =>
    rw [step_host hag] at ht
    obtain ⟨errands, rfl⟩ | heff := hostEffect_of_runKey ht
    · exact converse_clock errands { s with agenda := rest, beside := beside }
    · rw [heff]
      exact ⟨le_rfl, Nat.le_add_right _ _⟩

end Sys2Proof.Machine
end

section
/-! PROOFS. The statements about the allocator (42_allocator.md, 10_state.md R42): levels and counts, the frequency's
divider and cycle length, the pins, and which resource each channel gets. -/

namespace Sys2Proof.Machine

open Sys2Proof.Safety

/-! ## Levels (R207, R208, R210) -/

/-- `SetLevel` of a new value on a bound channel stores it by `writeLevel` (R207). -/
theorem setLevel_new {n : Chan} {d : Rat} {a : Allocator} {k : ResClass} (hk : a.binding[n].cls = some k)
    (hd : d ≠ a.level[n]) : setLevel n d a = writeLevel k n d a := by
  unfold setLevel
  rw [hk]
  exact if_neg hd

/-- The count `writeLevel` leaves: computed when there is a cycle length, else untouched (R207, D18). -/
theorem writeLevel_count (k : ResClass) (n : Chan) (d : Rat) (a : Allocator) :
    (∀ rs, (a.cls k).res = some rs → (writeLevel k n d a).count[n] = toCount d rs) ∧
    ((a.cls k).res = none → (writeLevel k n d a).count[n] = a.count[n]) := by
  unfold writeLevel
  constructor
  · intro rs hrs
    rw [hrs]
    simp
  · intro hrs
    rw [hrs]

theorem getLevel_inert {n : Chan} {a : Allocator} (h : a.binding[n].cls = none) : getLevel n a = 0 := by
  unfold getLevel
  rw [h]

theorem getLevel_bound {n : Chan} {a : Allocator} {k : ResClass} (h : a.binding[n].cls = some k) :
    getLevel n a = a.level[n] := by
  unfold getLevel
  rw [h]

theorem setLevel_binding (n : Chan) (d : Rat) (a : Allocator) : (setLevel n d a).binding = a.binding := by
  rw [setLevel_changes]

/-- Settles O36: the four cases of `SetLevel`, each read back by `GetLevel`. -/
theorem setLevelStoresWhatGetLevelAnswers : Obligations.SetLevelStoresWhatGetLevelAnswers := by
  unfold Obligations.SetLevelStoresWhatGetLevelAnswers
  intro n d s h0 h1
  refine ⟨{ s with alloc := setLevel n d s.alloc }, exec_setLevel n h0 h1 s, ?_, fun m hm => setLevel_other n m hm d s.alloc,
    ?_, ?_, ?_⟩
  · exact congrArg (fun a => { s with alloc := a }) (setLevel_changes n d s.alloc)
  · intro hn
    rw [setLevel_inert n d s.alloc hn]
    refine ⟨rfl, ?_⟩
    rw [exec_getLevel, getLevel_inert hn]
  · rintro rfl
    rw [setLevel_same]
  · intro k hk
    have hlevel := setLevel_level n d s.alloc (by rw [hk]; simp)
    refine ⟨hlevel, ?_, ?_⟩
    · rw [exec_getLevel, getLevel_bound ((setLevel_binding n d s.alloc).symm ▸ hk), hlevel]
    · intro hd
      rw [setLevel_new hk hd]
      exact writeLevel_count k n d s.alloc

/-! ## The pins (R42) -/

/-- A count inside its cycle length shows as that fraction (R42). -/
theorem activeFraction_of_le {c rs : Nat} (h : c ≤ rs) : activeFraction c rs = (c : Rat) / rs := by
  rw [activeFraction, Nat.min_eq_left h]

/-- The fraction shown for a duty is within half a count of it (R42, R210). -/
theorem activeFraction_toCount_near {d : Rat} {rs : Nat} (h0 : 0 ≤ d) (h1 : d ≤ 1) (hrs : 1 ≤ rs) :
    |activeFraction (toCount d rs) rs - d| ≤ 1 / (2 * (rs : Rat)) := by
  obtain ⟨hle, hup, hlow⟩ := toCount_bounds d rs h0 h1
  have hpos : (0 : Rat) < rs := by exact_mod_cast hrs
  have hfrac : (toCount d rs : Rat) / rs - d = (toCount d rs - d * rs) / rs := by field_simp
  have hhalf : 1 / (2 * (rs : Rat)) = 1 / 2 / rs := by field_simp
  rw [activeFraction_of_le hle, hfrac, abs_div, abs_of_pos hpos, hhalf]
  gcongr
  rw [abs_le]
  constructor <;> linarith

/-- Full duty is the whole cycle length (R210). -/
theorem toCount_one (rs : Nat) : toCount 1 rs = rs := by
  obtain ⟨hle, -, hlow⟩ := toCount_bounds 1 rs zero_le_one le_rfl
  have : (rs : Rat) < (toCount 1 rs : Nat) + 1 := by linarith
  have : rs < toCount 1 rs + 1 := by exact_mod_cast this
  omega

/-- Settles O40: in the invariant the count is that of the level, and the fraction of a count is near its duty. -/
theorem pinIsActiveForItsLevel : Obligations.PinIsActiveForItsLevel := by
  unfold Obligations.PinIsActiveForItsLevel
  intro n k rs s hinv hout hk hrs
  have hcount := hinv.countsFollowLevels n k rs hk hrs
  obtain ⟨h0, h1⟩ := (hinv.levelsInUnit n).1
  have hpos : 1 ≤ rs := ((hinv.settingsInBounds k).1 rs hrs).1
  refine ⟨s.alloc.count[n], (s.alloc.cls k).div, ?_, ?_, ?_, ?_, ?_⟩
  · rw [pin_bound hk, if_pos hout, hrs]
  · rw [hcount]
    exact (toCount_bounds _ rs h0 h1).1
  · rw [hcount]
    exact activeFraction_toCount_near h0 h1 hpos
  · intro hl
    rw [hcount, hl, toCount_zero, activeFraction_of_le (Nat.zero_le rs)]
    simp
  · intro hl
    rw [hcount, hl, toCount_one, activeFraction_of_le le_rfl]
    exact div_self (by exact_mod_cast (by omega : rs ≠ 0))

/-! ## The divider and the cycle length (R205, R211) -/

/-- Rounding moves a non-negative number by at most one half (R16 item 6). -/
theorem roundHalfUp_near {x : Rat} (h : 0 ≤ x) : |(roundHalfUp x : Rat) - x| ≤ 1 / 2 := by
  have hfloor : 0 ≤ (x + 1 / 2).floor := by
    rw [Rat.le_floor_iff]
    push_cast
    linarith
  have hcast : ((roundHalfUp x : Nat) : Rat) = ((x + 1 / 2).floor : Rat) := by
    have : (((x + 1 / 2).floor.toNat : Nat) : Int) = (x + 1 / 2).floor := Int.toNat_of_nonneg hfloor
    exact_mod_cast congrArg (fun z : Int => (z : Rat)) this
  have hle := Rat.floor_le (x + 1 / 2)
  have hlt := Rat.lt_floor_add_one (x + 1 / 2)
  push_cast at hlt
  rw [hcast, abs_le]
  constructor <;> linarith

/-- Rounding does not fall below an integer bound. -/
theorem le_roundHalfUp {x : Rat} {m : Int} (h0 : 0 ≤ x) (h : (m : Rat) ≤ x) : (m : Rat) ≤ roundHalfUp x := by
  have hnear := (abs_le.mp (roundHalfUp_near h0)).1
  have : (m : Rat) < ((roundHalfUp x : Int) + 1 : Int) := by push_cast; linarith
  have : m < (roundHalfUp x : Int) + 1 := by exact_mod_cast this
  have : m ≤ (roundHalfUp x : Int) := by omega
  exact_mod_cast this

/-- Rounding does not rise above an integer bound. -/
theorem roundHalfUp_le {x : Rat} {m : Int} (h0 : 0 ≤ x) (h : x ≤ m) : (roundHalfUp x : Rat) ≤ m := by
  have hnear := (abs_le.mp (roundHalfUp_near h0)).2
  have : (((roundHalfUp x : Int) - 1 : Int) : Rat) < m := by push_cast; linarith
  have : (roundHalfUp x : Int) - 1 < m := by exact_mod_cast this
  have : (roundHalfUp x : Int) ≤ m := by omega
  exact_mod_cast this

/-- A half or more rounds to at least 1. -/
theorem one_le_roundHalfUp {x : Rat} (h : 1 / 2 ≤ x) : 1 ≤ roundHalfUp x := by
  have hfloor : 1 ≤ (x + 1 / 2).floor := by
    rw [Rat.le_floor_iff]
    push_cast
    linarith
  unfold roundHalfUp
  omega

/-- The clamp of dividers keeps what is inside its bounds. -/
theorem clampDiv_of_mem {v lo hi : Rat} (hlo : lo ≤ v) (hhi : v ≤ hi) : clampDiv v lo hi = v := by
  unfold clampDiv
  by_cases h : v ≤ lo
  · have : lo = v := le_antisymm hlo h
    simp [this, hhi]
  · simp [h, hhi]

/-- The clamp of counts keeps what is inside its bounds. -/
theorem clampCount_of_mem {v lo hi : Nat} (hlo : lo ≤ v) (hhi : v ≤ hi) : clampCount v lo hi = v := by
  unfold clampCount
  omega

theorem computeDivRes_zero (c : ClassParams) : computeDivRes c 0 = floorConfig c := by
  unfold computeDivRes
  exact if_pos rfl

theorem computeDivRes_high {c : ClassParams} {f : Half} (hf : f ≠ 0) (h : idealDiv c f < c.divMin) :
    computeDivRes c f =
      ⟨c.divMin, clampCount (roundHalfUp (countRate c / ((f.toNat : Rat) * c.divMin))) 1 c.resMax, false⟩ := by
  unfold computeDivRes
  rw [if_neg hf, if_pos h]

theorem computeDivRes_low {c : ClassParams} {f : Half} (hc : c.divMin ≤ c.divMax) (h : c.divMax < idealDiv c f) :
    computeDivRes c f = floorConfig c := by
  unfold computeDivRes
  rw [if_neg (not_lt.mpr (hc.trans h.le)), if_pos h, ite_self]

theorem computeDivRes_middle {c : ClassParams} {f : Half} (hf : f ≠ 0) (hlo : c.divMin ≤ idealDiv c f)
    (hhi : idealDiv c f ≤ c.divMax) :
    computeDivRes c f =
      ⟨clampDiv ((roundHalfUp (idealDiv c f * (c.divDen : Rat)) : Rat) / (c.divDen : Rat)) c.divMin c.divMax, c.resMax,
        false⟩ := by
  unfold computeDivRes
  rw [if_neg hf, if_neg (not_lt.mpr hlo), if_neg (not_lt.mpr hhi)]

/-- The error is answered at 0 and where the ideal divider exceeds the maximum (R205, D19). -/
theorem computeDivRes_err_iff {c : ClassParams} (hc : c.divMin ≤ c.divMax) (f : Half) :
    (computeDivRes c f).err = true ↔ f = 0 ∨ c.divMax < idealDiv c f := by
  by_cases hf : f = 0
  · subst hf
    exact ⟨fun _ => .inl rfl, fun _ => congrArg DivRes.err (computeDivRes_zero c)⟩
  rcases lt_or_ge c.divMax (idealDiv c f) with hhi | hhi
  · exact ⟨fun _ => .inr hhi, fun _ => congrArg DivRes.err (computeDivRes_low hc hhi)⟩
  have herr : (computeDivRes c f).err = false := by
    rcases lt_or_ge (idealDiv c f) c.divMin with hlo | hlo
    · rw [computeDivRes_high hf hlo]
    · rw [computeDivRes_middle hf hlo hhi]
  rw [herr]
  exact ⟨fun h => absurd h Bool.false_ne_true, fun h => (h.elim hf (not_lt.mpr hhi)).elim⟩

/-- The error comes with the floor configuration (R211). -/
theorem computeDivRes_of_err {c : ClassParams} (hc : c.divMin ≤ c.divMax) {f : Half} (h : (computeDivRes c f).err = true) :
    computeDivRes c f = floorConfig c := by
  rcases (computeDivRes_err_iff hc f).mp h with rfl | hhi
  · exact computeDivRes_zero c
  · exact computeDivRes_low hc hhi

theorem toNat_pos_of_ne_zero {f : Half} (hf : f ≠ 0) : (0 : Rat) < f.toNat := by
  have : f.toNat ≠ 0 := fun h => hf (BitVec.eq_of_toNat_eq (by simpa using h))
  exact_mod_cast Nat.pos_of_ne_zero this

/-- The high branch: the smallest divider, and a cycle length off by at most half a count (R205). -/
theorem computeDivRes_high_near {P : Params} (hP : P.WellFormed) (k : ResClass) {f : Half} (hf : f ≠ 0)
    (h : idealDiv (P.cls k) f < (P.cls k).divMin)
    (hhalf : 1 / 2 ≤ countRate (P.cls k) / ((f.toNat : Rat) * (P.cls k).divMin)) :
    |(P.cls k).divMin * (computeDivRes (P.cls k) f).res - countRate (P.cls k) / f.toNat| ≤ (P.cls k).divMin / 2 := by
  have hfpos := toNat_pos_of_ne_zero hf
  have hmin := hP.divMinPos k
  have hmax : (0 : Rat) < (P.cls k).resMax := by exact_mod_cast hP.resMaxPos k
  rw [computeDivRes_high hf h]
  generalize (P.cls k) = c at *
  rw [idealDiv, div_lt_iff₀ (by positivity)] at h
  have hx : countRate c / ((f.toNat : Rat) * c.divMin) ≤ (c.resMax : Int) := by
    rw [div_le_iff₀ (by positivity)]
    push_cast
    nlinarith
  have hx0 : 0 ≤ countRate c / ((f.toNat : Rat) * c.divMin) := le_trans (by norm_num) hhalf
  have hres : roundHalfUp (countRate c / ((f.toNat : Rat) * c.divMin)) ≤ c.resMax := by
    exact_mod_cast roundHalfUp_le hx0 hx
  dsimp only
  rw [clampCount_of_mem (one_le_roundHalfUp hhalf) hres]
  have hperiod : countRate c / f.toNat = c.divMin * (countRate c / ((f.toNat : Rat) * c.divMin)) := by field_simp
  rw [hperiod, ← mul_sub, abs_mul, abs_of_pos hmin, div_eq_mul_one_div c.divMin 2]
  exact mul_le_mul_of_nonneg_left (roundHalfUp_near hx0) hmin.le

/-- The middle branch: the divider is the ideal one rounded to a step, which the bounds, being steps, do not clamp. -/
theorem computeDivRes_middle_div {P : Params} (hP : P.WellFormed) (k : ResClass) {f : Half} (hf : f ≠ 0)
    (hlo : (P.cls k).divMin ≤ idealDiv (P.cls k) f) (hhi : idealDiv (P.cls k) f ≤ (P.cls k).divMax) :
    (computeDivRes (P.cls k) f).div =
      (roundHalfUp (idealDiv (P.cls k) f * ((P.cls k).divDen : Rat)) : Rat) / ((P.cls k).divDen : Rat) := by
  have hmin := hP.divMinPos k
  have hden : (0 : Rat) < (P.cls k).divDen := by exact_mod_cast hP.divDenPos k
  have hminInt := Rat.eq_num_of_isInt (hP.divMinSteps k)
  have hmaxInt := Rat.eq_num_of_isInt (hP.divMaxSteps k)
  rw [computeDivRes_middle hf hlo hhi]
  generalize (P.cls k) = c at *
  have hx0 : 0 ≤ idealDiv c f * (c.divDen : Rat) := mul_nonneg (hmin.le.trans hlo) hden.le
  refine clampDiv_of_mem ?_ ?_
  · rw [le_div_iff₀ hden, hminInt]
    exact le_roundHalfUp hx0 (hminInt ▸ mul_le_mul_of_nonneg_right hlo hden.le)
  · rw [div_le_iff₀ hden, hmaxInt]
    exact roundHalfUp_le hx0 (hmaxInt ▸ mul_le_mul_of_nonneg_right hhi hden.le)

theorem computeDivRes_middle_near {P : Params} (hP : P.WellFormed) (k : ResClass) {f : Half} (hf : f ≠ 0)
    (hlo : (P.cls k).divMin ≤ idealDiv (P.cls k) f) (hhi : idealDiv (P.cls k) f ≤ (P.cls k).divMax) :
    |(computeDivRes (P.cls k) f).div * (P.cls k).resMax - countRate (P.cls k) / f.toNat| ≤
      (P.cls k).resMax / (2 * (P.cls k).divDen) := by
  have hfpos := toNat_pos_of_ne_zero hf
  have hmin := hP.divMinPos k
  have hmax : (0 : Rat) < (P.cls k).resMax := by exact_mod_cast hP.resMaxPos k
  have hden : (0 : Rat) < (P.cls k).divDen := by exact_mod_cast hP.divDenPos k
  rw [computeDivRes_middle_div hP k hf hlo hhi]
  generalize (P.cls k) = c at *
  have hx0 : 0 ≤ idealDiv c f * (c.divDen : Rat) := mul_nonneg (hmin.le.trans hlo) hden.le
  have hperiod : countRate c / f.toNat = idealDiv c f * c.resMax := by
    rw [idealDiv]
    field_simp
  have hstep : (roundHalfUp (idealDiv c f * (c.divDen : Rat)) : Rat) / c.divDen * c.resMax - idealDiv c f * c.resMax =
      (roundHalfUp (idealDiv c f * (c.divDen : Rat)) - idealDiv c f * c.divDen) * (c.resMax / c.divDen) := by
    field_simp
  have hbound : (c.resMax : Rat) / (2 * c.divDen) = 1 / 2 * (c.resMax / c.divDen) := by field_simp
  rw [hperiod, hstep, hbound, abs_mul, abs_of_pos (div_pos hmax hden)]
  exact mul_le_mul_of_nonneg_right (roundHalfUp_near hx0) (div_pos hmax hden).le

/-- Settles O38: the three branches, rounding being off by at most one half. -/
theorem dividerAndResolutionReproduceTheFrequency : Obligations.DividerAndResolutionReproduceTheFrequency := by
  unfold Obligations.DividerAndResolutionReproduceTheFrequency
  intro P k f hP c r F d0
  have hc := hP.divOrder k
  obtain ⟨⟨h1, h2⟩, h3, h4⟩ := computeDivRes_bounds hP k f
  refine ⟨⟨h1, h2, h3, h4⟩, computeDivRes_err_iff hc f, ?_, ?_, ?_⟩
  · intro h
    have hr : r = floorConfig c := computeDivRes_of_err hc h
    rw [hr]
    exact ⟨rfl, rfl⟩
  · intro hf hlo
    have hdiv : r.div = c.divMin := congrArg DivRes.div (computeDivRes_high hf hlo)
    refine ⟨hdiv, fun hhalf => ?_⟩
    rw [hdiv]
    exact computeDivRes_high_near hP k hf hlo hhalf
  · intro hf hlo hhi
    have hres : r.res = c.resMax := congrArg DivRes.res (computeDivRes_middle hf hlo hhi)
    refine ⟨hres, ⟨_, computeDivRes_middle_div hP k hf hlo hhi⟩, ?_⟩
    rw [hres]
    exact computeDivRes_middle_near hP k hf hlo hhi

end Sys2Proof.Machine
end

section
/-! PROOFS. The statements about the assignment of channels to resources (42_allocator.md section 1, 70_reset_and_hazards.md
R311): which resource a channel gets, and that the boot sequence gives none twice. -/

namespace Sys2Proof.Machine

/-! ## The search for a lane (R202) -/

/-- The search over a finite range answers its first hit. -/
theorem findSome?_finRange_eq_some {α : Type} {n : Nat} {f : Fin n → Option α} {i : Fin n} {x : α} (h : f i = some x)
    (hlt : ∀ j, j < i → f j = none) : (List.finRange n).findSome? f = some x := by
  rw [← Fin.findSome?_eq_findSome?_finRange, Fin.findSome?_eq_some_iff]
  exact ⟨i, h, hlt⟩

theorem findSome?_finRange_eq_none {α : Type} {n : Nat} {f : Fin n → Option α} (h : ∀ i, f i = none) :
    (List.finRange n).findSome? f = none := by
  rw [← Fin.findSome?_eq_findSome?_finRange, Fin.findSome?_eq_none_iff]
  exact h

theorem leastFreeLane_eq_some_iff {unit : SoftUnit} {l : LaneIx} :
    leastFreeLane unit = some l ↔ unit.lanes[l] = .free ∧ ∀ l', l' < l → unit.lanes[l'] ≠ .free := by
  rw [leastFreeLane, ← Fin.find?_eq_find?_finRange, Fin.find?_eq_some_iff]
  simp

theorem leastFreeLane_eq_none_iff {unit : SoftUnit} : leastFreeLane unit = none ↔ ∀ l : LaneIx, unit.lanes[l] ≠ .free := by
  rw [leastFreeLane, ← Fin.find?_eq_find?_finRange, Fin.find?_eq_none_iff]
  simp

/-- A resident unit with a free lane: what pass 1 of `AssignSoft` looks for (R202). -/
def Reusable (a : Allocator) (u : UnitIx) : Prop := a.units[u].loaded = true ∧ ∃ l : LaneIx, a.units[u].lanes[l] = .free

/-- A unit without the program, with space for it and a free lane: what pass 2 looks for (R202). -/
def Loadable (P : Params) (a : Allocator) (u : UnitIx) : Prop :=
  a.units[u].loaded = false ∧ P.unitAvailable u = true ∧ ∃ l : LaneIx, a.units[u].lanes[l] = .free

theorem leastFreeLane_eq_none {unit : SoftUnit} (h : ¬ ∃ l : LaneIx, unit.lanes[l] = .free) : leastFreeLane unit = none :=
  leastFreeLane_eq_none_iff.mpr fun l hl => h ⟨l, hl⟩

/-- Pass 1 answers nothing at a unit that is not reusable. -/
theorem reuse_none {a : Allocator} {u : UnitIx} (h : ¬ Reusable a u) :
    (if a.units[u].loaded then (leastFreeLane a.units[u]).map fun l => (u, l) else none) = none := by
  split
  · next hl => rw [leastFreeLane_eq_none fun hf => h ⟨hl, hf⟩, Option.map_none]
  · rfl

/-- Pass 2 answers nothing at a unit that is not loadable. -/
theorem fresh_none {P : Params} {a : Allocator} {u : UnitIx} (h : ¬ Loadable P a u) :
    (if !a.units[u].loaded && P.unitAvailable u then (leastFreeLane a.units[u]).map fun l => (u, l) else none) = none := by
  split
  · next hl =>
      rw [Bool.and_eq_true, Bool.not_eq_true'] at hl
      rw [leastFreeLane_eq_none fun hf => h ⟨hl.1, hl.2, hf⟩, Option.map_none]
  · rfl

theorem reuseLane_eq_some {a : Allocator} {u : UnitIx} {l : LaneIx} (hu : Reusable a u)
    (hlt : ∀ u', u' < u → ¬ Reusable a u') (hl : leastFreeLane a.units[u] = some l) : reuseLane a = some (u, l) := by
  refine findSome?_finRange_eq_some ?_ fun u' h => reuse_none (hlt u' h)
  rw [if_pos hu.1, hl, Option.map_some]

theorem reuseLane_eq_none {a : Allocator} (h : ∀ u, ¬ Reusable a u) : reuseLane a = none :=
  findSome?_finRange_eq_none fun u => reuse_none (h u)

theorem freshLane_eq_some {P : Params} {a : Allocator} {u : UnitIx} {l : LaneIx} (hu : Loadable P a u)
    (hlt : ∀ u', u' < u → ¬ Loadable P a u') (hl : leastFreeLane a.units[u] = some l) : freshLane P a = some (u, l) := by
  refine findSome?_finRange_eq_some ?_ fun u' h => fresh_none (hlt u' h)
  rw [if_pos (by rw [hu.1, hu.2.1]; rfl), hl, Option.map_some]

theorem freshLane_eq_none {P : Params} {a : Allocator} (h : ∀ u, ¬ Loadable P a u) : freshLane P a = none :=
  findSome?_finRange_eq_none fun u => fresh_none (h u)

theorem assignSoft_some {P : Params} {a : Allocator} {u : UnitIx} {l : LaneIx} (p : Pin)
    (h : (reuseLane a).or (freshLane P a) = some (u, l)) : assignSoft P p a = (.lane u l, claimLane u l p a, []) := by
  rw [assignSoft, h]

theorem assignSoft_none {P : Params} {a : Allocator} (p : Pin) (h : (reuseLane a).or (freshLane P a) = none) :
    assignSoft P p a = (.failed, a, [.resourceExhausted p]) := by
  rw [assignSoft, h]

/-- Settles O33: the two passes and the failure. -/
theorem softLanesAreReusedBeforeAFreshLoad : Obligations.SoftLanesAreReusedBeforeAFreshLoad := by
  unfold Obligations.SoftLanesAreReusedBeforeAFreshLoad
  intro P p a free reusable loadable taken
  refine ⟨?_, ?_, ?_⟩
  · intro u l hu hlt hl hleast
    refine assignSoft_some p ?_
    rw [reuseLane_eq_some hu hlt (leastFreeLane_eq_some_iff.mpr ⟨hl, hleast⟩), Option.some_or]
  · intro u l hnone hu hlt hl hleast
    refine assignSoft_some p ?_
    rw [reuseLane_eq_none hnone, freshLane_eq_some hu hlt (leastFreeLane_eq_some_iff.mpr ⟨hl, hleast⟩), Option.none_or]
  · intro hreuse hfresh
    refine assignSoft_none p ?_
    rw [reuseLane_eq_none hreuse, freshLane_eq_none hfresh, Option.none_or]

/-- A lane that `AssignSoft` takes was free (R202). -/
theorem free_of_taken {P : Params} {a : Allocator} {u : UnitIx} {l : LaneIx}
    (h : (reuseLane a).or (freshLane P a) = some (u, l)) : a.units[u].lanes[l] = .free := by
  have hmap : ∀ u' : UnitIx, (leastFreeLane a.units[u']).map (fun l => (u', l)) = some (u, l) → a.units[u].lanes[l] = .free := by
    intro u' hm
    obtain ⟨l', hl', e⟩ := Option.map_eq_some_iff.mp hm
    obtain ⟨rfl, rfl⟩ := Prod.mk.injEq _ _ _ _ ▸ e
    exact (leastFreeLane_eq_some_iff.mp hl').1
  rcases Option.or_eq_some_iff.mp h with h1 | ⟨-, h2⟩
  · obtain ⟨u', -, hu'⟩ := List.exists_of_findSome?_eq_some h1
    split at hu'
    · exact hmap u' hu'
    · exact absurd hu' (by simp)
  · obtain ⟨u', -, hu'⟩ := List.exists_of_findSome?_eq_some h2
    split at hu'
    · exact hmap u' hu'
    · exact absurd hu' (by simp)

/-! ## The choice of a resource (R201, conflict C6) -/

theorem chooseResource_unclaimed {P : Params} {p : Pin} {a : Allocator}
    (h : a.sliceClaim[(P.timerOfPin p).1][(P.timerOfPin p).2] = none) :
    chooseResource P p a = (.timer (P.timerOfPin p).1 (P.timerOfPin p).2,
      { a with
          sliceClaim :=
            a.sliceClaim.set (P.timerOfPin p).1 (a.sliceClaim[(P.timerOfPin p).1].set (P.timerOfPin p).2 (some p)) }, []) := by
  unfold chooseResource
  exact if_pos h

theorem chooseResource_own {P : Params} {p : Pin} {a : Allocator}
    (h : a.sliceClaim[(P.timerOfPin p).1][(P.timerOfPin p).2] = some p) :
    chooseResource P p a = (.timer (P.timerOfPin p).1 (P.timerOfPin p).2, a, []) := by
  unfold chooseResource
  dsimp only
  rw [h, if_neg (by simp), if_pos rfl]

theorem chooseResource_soft {P : Params} {p q : Pin} {a : Allocator}
    (h : a.sliceClaim[(P.timerOfPin p).1][(P.timerOfPin p).2] = some q) (hq : q ≠ p) :
    chooseResource P p a = assignSoft P p a := by
  unfold chooseResource
  dsimp only
  rw [h, if_neg (by simp), if_neg (by simpa using hq)]

/-- The assignment of an unbound channel: the chosen resource's claims, the binding, and level and count at 0 (R201). -/
theorem assignChannel_unbound {P : Params} {n : Chan} {a : Allocator} (h : a.binding[n] = .unbound) :
    let r := chooseResource P (P.pinOfChannel n) a
    assignChannel P n a =
      ({ a with
          binding := a.binding.set n r.1
          sliceClaim := r.2.1.sliceClaim
          units := r.2.1.units
          level := a.level.set n 0
          count := a.count.set n 0 }, r.2.2) := by
  intro r
  have hr := (chooseResource_changes P (P.pinOfChannel n) a).1
  unfold assignChannel
  rw [if_pos h]
  refine Prod.ext ?_ rfl
  exact congrArg (fun q : Allocator =>
    { q with binding := q.binding.set n r.1, level := q.level.set n 0, count := q.count.set n 0 }) hr

theorem getElem_set_fin {α : Type} {k : Nat} (v : Vector α k) (i j : Fin k) (x : α) :
    (v.set i x)[j] = if j = i then x else v[j] := by
  simp only [Fin.getElem_fin, Vector.getElem_set, Fin.ext_iff, eq_comm]

/-- What a claim of a slice channel leaves at each slice channel. -/
theorem getElem_claimSlice {α : Type} {k m : Nat} (v : Vector (Vector α m) k) (i i' : Fin k) (j j' : Fin m) (x : α) :
    (v.set i (v[i].set j x))[i'][j'] = if (i', j') = (i, j) then x else v[i'][j'] := by
  rw [getElem_set_fin]
  by_cases hi : i' = i
  · subst hi
    rw [if_pos rfl, getElem_set_fin]
    simp only [Prod.mk.injEq, true_and]
  · simp only [hi, Prod.mk.injEq, false_and, if_false]

theorem exec_assignChannel (n : Chan) (s : State) :
    exec (.assignChannel n.val) s =
      .next { s with
        alloc := (assignChannel Config.device n s.alloc).1
        log := s.log ++ (assignChannel Config.device n s.alloc).2 } := by
  change execAssignChannel n.val s = _
  rw [execAssignChannel, withChan_val]

/-- Settles O32: the bound channel, and the three cases of the native channel's claim. -/
theorem assignPrefersTheNativeTimer : Obligations.AssignPrefersTheNativeTimer := by
  unfold Obligations.AssignPrefersTheNativeTimer
  intro n s p sl ch
  rw [exec_assignChannel]
  constructor
  · intro h
    rw [assignChannel_bound _ _ _ h, List.append_nil]
  intro h
  have hcase := assignChannel_unbound (P := Config.device) h
  have hsoft := (assignSoft_changes Config.device p s.alloc).1
  refine ⟨_, rfl, rfl, ?_⟩
  dsimp only at hcase ⊢
  rw [hcase]
  refine ⟨rfl, getElem_set_self n _ _, getElem_set_self n _ _,
    fun m hm => ⟨getElem_set_other hm _ _, getElem_set_other hm _ _, getElem_set_other hm _ _⟩, ?_, ?_, ?_⟩
  · intro sl' ch' hother
    rcases hclaim : s.alloc.sliceClaim[sl][ch] with _ | q
    · rw [chooseResource_unclaimed hclaim]
      exact (getElem_claimSlice _ _ _ _ _ _).trans (if_neg hother)
    by_cases hq : q = p
    · subst hq
      rw [chooseResource_own hclaim]
    · rw [chooseResource_soft hclaim hq, hsoft]
  · rintro (hclaim | hclaim)
    · rw [chooseResource_unclaimed hclaim]
      exact ⟨getElem_set_self n _ _, (getElem_claimSlice _ _ _ _ _ _).trans (if_pos rfl), rfl, List.append_nil _⟩
    · rw [chooseResource_own hclaim]
      exact ⟨getElem_set_self n _ _, hclaim, rfl, List.append_nil _⟩
  · intro q hclaim hq
    rw [chooseResource_soft hclaim hq]
    exact ⟨getElem_set_self n _ _, by rw [hsoft], rfl, rfl⟩

/-! ## The boot sequence (R311) -/

/-- Each bound channel's resource is claimed for its pin. -/
structure ClaimsMatch (P : Params) (a : Allocator) : Prop where
  timer : ∀ (n : Chan) (sl : SliceIx) (ch : SliceChan), a.binding[n] = .timer sl ch →
    a.sliceClaim[sl][ch] = some (P.pinOfChannel n)
  lane : ∀ (n : Chan) (u : UnitIx) (l : LaneIx), a.binding[n] = .lane u l →
    a.units[u].lanes[l] = .pin (P.pinOfChannel n)

/-- Two channels with one resource have one pin. -/
theorem ClaimsMatch.pin_eq {P : Params} {a : Allocator} (h : ClaimsMatch P a) {n m : Chan}
    (hb : a.binding[n] = a.binding[m]) (hbound : a.binding[n].cls ≠ none) : P.pinOfChannel n = P.pinOfChannel m := by
  rcases hn : a.binding[n] with _ | ⟨sl, ch⟩ | ⟨u, l⟩ | _
  · rw [hn] at hbound
    exact absurd rfl hbound
  · exact Option.some.inj ((h.timer n sl ch hn).symm.trans (h.timer m sl ch (hb ▸ hn)))
  · exact LaneClaim.pin.inj ((h.lane n u l hn).symm.trans (h.lane m u l (hb ▸ hn)))
  · rw [hn] at hbound
    exact absurd rfl hbound

theorem emptyAllocator_unbound (P : Params) (n : Chan) : (emptyAllocator P).binding[n] = .unbound := by
  simp [emptyAllocator]

theorem emptyAllocator_claimsMatch (P : Params) : ClaimsMatch P (emptyAllocator P) where
  timer n sl ch h := by rw [emptyAllocator_unbound] at h; exact Binding.noConfusion h
  lane n u l h := by rw [emptyAllocator_unbound] at h; exact Binding.noConfusion h

/-- A choice claims what it answers for the pin. -/
theorem chooseResource_claims (P : Params) (p : Pin) (a : Allocator) :
    (∀ sl ch, (chooseResource P p a).1 = .timer sl ch → (chooseResource P p a).2.1.sliceClaim[sl][ch] = some p) ∧
    (∀ u l, (chooseResource P p a).1 = .lane u l → (chooseResource P p a).2.1.units[u].lanes[l] = .pin p) := by
  rcases hclaim : a.sliceClaim[(P.timerOfPin p).1][(P.timerOfPin p).2] with _ | q
  · rw [chooseResource_unclaimed hclaim]
    refine ⟨?_, nofun⟩
    rintro _ _ ⟨⟩
    exact (getElem_claimSlice _ _ _ _ _ _).trans (if_pos rfl)
  by_cases hq : q = p
  · subst hq
    rw [chooseResource_own hclaim]
    refine ⟨?_, nofun⟩
    rintro _ _ ⟨⟩
    exact hclaim
  rw [chooseResource_soft hclaim hq]
  rcases hlane : (reuseLane a).or (freshLane P a) with _ | ⟨u, l⟩
  · rw [assignSoft_none p hlane]
    exact ⟨nofun, nofun⟩
  · rw [assignSoft_some p hlane]
    refine ⟨nofun, ?_⟩
    rintro _ _ ⟨⟩
    simp [claimLane]

/-- A choice takes no claim of a pin away. -/
theorem chooseResource_keepsClaims (P : Params) (p : Pin) (a : Allocator) :
    (∀ (sl : SliceIx) (ch : SliceChan) (q : Pin), a.sliceClaim[sl][ch] = some q →
      (chooseResource P p a).2.1.sliceClaim[sl][ch] = some q) ∧
    (∀ (u : UnitIx) (l : LaneIx) (q : Pin), a.units[u].lanes[l] = .pin q →
      (chooseResource P p a).2.1.units[u].lanes[l] = .pin q) := by
  rcases hclaim : a.sliceClaim[(P.timerOfPin p).1][(P.timerOfPin p).2] with _ | q
  · rw [chooseResource_unclaimed hclaim]
    refine ⟨fun sl ch q h => (getElem_claimSlice _ _ _ _ _ _).trans ((if_neg ?_).trans h), fun _ _ _ h => h⟩
    rintro ⟨⟩
    exact absurd (hclaim.symm.trans h) nofun
  by_cases hq : q = p
  · rw [chooseResource_own (hq ▸ hclaim)]
    exact ⟨fun _ _ _ h => h, fun _ _ _ h => h⟩
  rw [chooseResource_soft hclaim hq]
  rcases hlane : (reuseLane a).or (freshLane P a) with _ | ⟨u, l⟩
  · rw [assignSoft_none p hlane]
    exact ⟨fun _ _ _ h => h, fun _ _ _ h => h⟩
  · rw [assignSoft_some p hlane]
    refine ⟨fun _ _ _ h => h, fun u' l' q' h => ?_⟩
    have hfree := free_of_taken hlane
    change ((a.units.set u ⟨true, a.units[u].lanes.set l (.pin p)⟩)[u']).lanes[l'] = _
    rw [getElem_set_fin]
    by_cases hu : u' = u
    · subst hu
      rw [if_pos rfl]
      refine (getElem_set_fin _ _ _ _).trans ((if_neg ?_).trans h)
      rintro rfl
      exact absurd (hfree.symm.trans h) nofun
    · rw [if_neg hu]
      exact h

theorem ClaimsMatch.assignChannel {P : Params} {a : Allocator} (h : ClaimsMatch P a) (n : Chan) :
    ClaimsMatch P (assignChannel P n a).1 := by
  by_cases hb : a.binding[n] = .unbound
  · obtain ⟨hnewTimer, hnewLane⟩ := chooseResource_claims P (P.pinOfChannel n) a
    obtain ⟨hkeepTimer, hkeepLane⟩ := chooseResource_keepsClaims P (P.pinOfChannel n) a
    rw [assignChannel_unbound hb]
    constructor
    · intro m sl ch hm
      by_cases hmn : m = n
      · subst hmn
        exact hnewTimer sl ch ((getElem_set_self m _ _).symm.trans hm)
      · exact hkeepTimer sl ch _ (h.timer m sl ch ((getElem_set_other hmn _ _).symm.trans hm))
    · intro m u l hm
      by_cases hmn : m = n
      · subst hmn
        exact hnewLane u l ((getElem_set_self m _ _).symm.trans hm)
      · exact hkeepLane u l _ (h.lane m u l ((getElem_set_other hmn _ _).symm.trans hm))
  · rw [assignChannel_bound P n a hb]
    exact h

theorem ClaimsMatch.assignAll {P : Params} (l : List Chan) {a : Allocator} (h : ClaimsMatch P a) :
    ClaimsMatch P (assignAll P l a).1 := by
  induction l generalizing a with
  | nil => exact h
  | cons n l ih => exact ih (h.assignChannel n)

/-- A choice logs exactly its failure (R202). -/
theorem chooseResource_log (P : Params) (p : Pin) (a : Allocator) :
    (chooseResource P p a).2.2 = if (chooseResource P p a).1 = .failed then [.resourceExhausted p] else [] := by
  rcases hclaim : a.sliceClaim[(P.timerOfPin p).1][(P.timerOfPin p).2] with _ | q
  · rw [chooseResource_unclaimed hclaim, if_neg nofun]
  by_cases hq : q = p
  · rw [chooseResource_own (hq ▸ hclaim), if_neg nofun]
  rw [chooseResource_soft hclaim hq]
  rcases hlane : (reuseLane a).or (freshLane P a) with _ | ⟨u, l⟩
  · rw [assignSoft_none p hlane, if_pos rfl]
  · rw [assignSoft_some p hlane, if_neg nofun]

theorem assignChannel_log {P : Params} {n : Chan} {a : Allocator} (h : a.binding[n] = .unbound) :
    (assignChannel P n a).2 =
      if (assignChannel P n a).1.binding[n] = .failed then [.resourceExhausted (P.pinOfChannel n)] else [] := by
  rw [assignChannel_unbound h]
  refine (chooseResource_log P (P.pinOfChannel n) a).trans ?_
  rw [getElem_set_self]

/-- Assigning different unbound channels decides each and logs each failure, in order. -/
theorem assignAll_decides {P : Params} {l : List Chan} (hl : l.Nodup) {a : Allocator}
    (hun : ∀ n ∈ l, a.binding[n] = .unbound) :
    (∀ n ∈ l, (assignAll P l a).1.binding[n] ≠ .unbound) ∧
    (assignAll P l a).2 = (l.filter fun n => (assignAll P l a).1.binding[n] = .failed).map
      (fun n => .resourceExhausted (P.pinOfChannel n)) := by
  induction l generalizing a with
  | nil => exact ⟨nofun, rfl⟩
  | cons n l ih =>
    obtain ⟨hnl, hl⟩ := List.nodup_cons.mp hl
    obtain ⟨-, -, -, -, hbound, hothers⟩ := assignChannel_keeps P n a
    have hhead := (assignAll_keeps P l (assignChannel P n a).1).2.2.2.2 n hnl
    have hrest : ∀ m ∈ l, (assignChannel P n a).1.binding[m] = .unbound := fun m hm =>
      (hothers m fun e => hnl (e ▸ hm)).trans (hun m (List.mem_cons_of_mem n hm))
    obtain ⟨hdecided, hlog⟩ := ih hl hrest
    constructor
    · intro m hm
      rcases List.mem_cons.mp hm with rfl | hm
      · exact fun e => hbound (hhead.symm.trans e)
      · exact hdecided m hm
    · change (assignChannel P n a).2 ++ (assignAll P l (assignChannel P n a).1).2 = _
      rw [hlog, assignChannel_log (hun n List.mem_cons_self), ← hhead]
      change _ = (List.filter (fun m => decide ((assignAll P l (assignChannel P n a).1).1.binding[m] = .failed)) (n :: l)).map _
      by_cases hf : (assignAll P l (assignChannel P n a).1).1.binding[n] = .failed
      · rw [if_pos hf, List.filter_cons_of_pos (by simpa using hf)]
        rfl
      · rw [if_neg hf, List.filter_cons_of_neg (by simpa using hf)]
        rfl

/-- Settles O34: the assignments decide each channel and log each failure; the claims tell two channels apart. -/
theorem bootBindsEachResourceAtMostOnce : Obligations.BootBindsEachResourceAtMostOnce := by
  unfold Obligations.BootBindsEachResourceAtMostOnce
  intro P
  have hboot : bootAllocator P = assignAll P (List.finRange 24) (emptyAllocator P) := by unfold bootAllocator; rfl
  obtain ⟨hdecided, hlog⟩ :=
    assignAll_decides (P := P) (List.nodup_finRange 24) (a := emptyAllocator P) fun n _ => emptyAllocator_unbound P n
  have hclaims := (emptyAllocator_claimsMatch P).assignAll (List.finRange 24)
  rw [← hboot] at hdecided hlog hclaims
  refine ⟨fun n => hdecided n (List.mem_finRange n), hlog, fun hP n m hnm hb => ?_⟩
  by_contra hfailed
  refine hnm (hP.pinInjective n m (hclaims.pin_eq hb fun hcls => ?_))
  rcases hn : (bootAllocator P).1.binding[n] with _ | _ | _ | _
  · exact hdecided n (List.mem_finRange n) hn
  · rw [hn] at hcls; exact absurd hcls nofun
  · rw [hn] at hcls; exact absurd hcls nofun
  · exact hfailed hn

end Sys2Proof.Machine
end

section
/-! PROOFS. The statements about the host driver (43_host_driver.md): construction, the calls that only note an intent, the
throttle's configuration, and the service tick. -/

namespace Sys2Proof.Machine

open Sys2Proof.Safety

/-! ## The calls without I/O (R241, R247, R248) -/

theorem mem_serviceOrder (r : LogicalReg) : r ∈ serviceOrder := by
  unfold serviceOrder
  cases r with
  | level c => exact List.mem_append_left _ (List.mem_map_of_mem (List.mem_finRange c))
  | ctrl0 => exact List.mem_append_right _ List.mem_cons_self

theorem mem_dirtyRegs {h : HostDriver} {r : LogicalReg} : r ∈ h.dirtyRegs ↔ (h.shadow r).dirty = true := by
  rw [HostDriver.dirtyRegs, List.mem_filter]
  exact and_iff_right (mem_serviceOrder r)

/-- Nothing is dirty when every shadow's local value is its chip value. -/
theorem dirtyRegs_eq_nil {h : HostDriver} (hclean : ∀ r, (h.shadow r).dirty = false) : h.dirtyRegs = [] :=
  List.eq_nil_iff_forall_not_mem.mpr fun r hr => by
    rw [mem_dirtyRegs, hclean r] at hr
    exact Bool.false_ne_true hr

theorem exec_hostConstruct (a : BusAddr) (s : State) : exec (.hostConstruct a.toNat) s = .next (hostConstruct a s) := by
  change execHostConstruct a.toNat s = _
  rw [execHostConstruct, if_pos a.isLt, BitVec.ofNat_toNat, BitVec.setWidth_eq]

theorem hostInit_shadow (r : LogicalReg) (s : State) : (hostInit s).host.shadow r = ⟨0, 0⟩ := by
  cases r with
  | level c => exact Vector.getElem_replicate _
  | ctrl0 => rfl

/-- Settles O41: the two calls write the driver object alone, and `Init` its shadows at their default. -/
theorem constructThenInitGivesACleanDriver : Obligations.ConstructThenInitGivesACleanDriver := by
  unfold Obligations.ConstructThenInitGivesACleanDriver
  refine fun s => ⟨fun a => ⟨_, exec_hostConstruct a s, rfl, rfl⟩,
    hostInit s, rfl, rfl, rfl, rfl, rfl, fun r => hostInit_shadow r s, dirtyRegs_eq_nil fun r => ?_⟩
  rw [hostInit_shadow]
  rfl

/-- Settles O43: both calls write their intent into the driver object. -/
theorem enableAndRebootOnlyNoteTheIntent : Obligations.EnableAndRebootOnlyNoteTheIntent := by
  unfold Obligations.EnableAndRebootOnlyNoteTheIntent
  intro b s
  cases b with
  | false => exact ⟨rfl, rfl⟩
  | true => exact ⟨rfl, rfl⟩

/-! ## `ConfigureFlipperLogic` (R246) -/

theorem exec_hostConfigureFlipperLogic (c : Chan) (limit : Byte) (timeout : Half) (s : State) :
    exec (.hostConfigureFlipperLogic c.val limit.toNat timeout.toNat) s =
      .next (hostConfigureFlipperLogic Config.device c limit timeout s) := by
  change execHostConfigureFlipperLogic c.val limit.toNat timeout.toNat s = _
  rw [execHostConfigureFlipperLogic, if_pos ⟨limit.isLt, timeout.isLt⟩, withChan_val]
  simp only [BitVec.ofNat_toNat, BitVec.setWidth_eq]

theorem cfgAddr_limit_succ (c : Chan) : cfgAddr c 1 + 1 = cfgAddr c 2 := by revert c; decide

/-- A byte received in the data phase with the cursor in a channel's configuration group is stored there (R142 to R144). -/
theorem isr_rx_cfg {c : Chan} {j : Fin 4} {s : State} (b : Byte) (hbus : s.bus = .data) (hcursor : s.cursor = cfgAddr c j) :
    isr Config.device (.rx b) s = storeAdvance Config.device (cfgAddr c j) b s := by
  rw [isr_rx_data _ _ _ hbus]
  simp only [dataByte, hcursor, addressClass_cfgAddr]
  fin_cases j <;> rfl

/-- Three bytes written at a channel's limit address are stored at the limit and the timeout (R143, R144). -/
theorem isrAll_writeEvents_throttle (c : Chan) (limit lo hi : Byte) (s : State) :
    isrAll Config.device (writeEvents (cfgAddr c 1) [limit, lo, hi]) s =
      { storeAdvance Config.device (cfgAddr c 3) hi (storeAdvance Config.device (cfgAddr c 2) lo
          (storeAdvance Config.device (cfgAddr c 1) limit s)) with bus := .idle } := by
  rw [isrAll_writeEvents]
  simp only [List.map_cons, List.map_nil, isrAll_cons, isrAll_nil]
  rw [isr_rx_cfg (c := c) (j := 1) limit, isr_rx_cfg (c := c) (j := 2) lo, isr_rx_cfg (c := c) (j := 3) hi]
  · rfl
  · rfl
  · exact (nextCursor_device _).trans (cfgAddr_timeout_succ c)
  · rfl
  · exact (nextCursor_device _).trans (cfgAddr_limit_succ c)
  · rfl
  · rfl

theorem hostConfigureFlipperLogic_working (c : Chan) (limit : Byte) (timeout : Half) {s : State} (h : LinkUp 1 s) :
    hostConfigureFlipperLogic Config.device c limit timeout s =
      { storeAdvance Config.device (cfgAddr c 3) (hiByte timeout) (storeAdvance Config.device (cfgAddr c 2) (loByte timeout)
          (storeAdvance Config.device (cfgAddr c 1) limit s)) with
        bus := .idle, line := .idle, link := s.link.drop 1
        host := s.host.settle (⟨cfgAddr c 1, [limit, loByte timeout, hiByte timeout], .nothing⟩, true) } := by
  rw [hostConfigureFlipperLogic, converse_single_working _ h, isrAll_writeEvents_throttle]

theorem loByte_eq (v : Half) : loByte v = BitVec.ofNat 8 (v.toNat % 256) := by
  apply BitVec.eq_of_toNat_eq
  simp [loByte]

theorem hiByte_eq (v : Half) : hiByte v = BitVec.ofNat 8 (v.toNat / 256) := by
  apply BitVec.eq_of_toNat_eq
  simp [hiByte, Nat.shiftRight_eq_div_pow]

/-- The two bytes of a 16-bit value, low first, read as the value (R70). -/
theorem loByte_hiByte_toNat (v : Half) : (loByte v).toNat + 256 * (hiByte v).toNat = v.toNat := by
  have := v.isLt
  rw [loByte_eq, hiByte_eq]
  simp only [BitVec.toNat_ofNat]
  omega

/-- The order in which three consecutive addresses are told apart does not matter. -/
theorem ite_three_addresses (a x u v w z : Byte) :
    (if x = a + 2 then w else if x = a + 1 then v else if x = a then u else z) =
      if x = a then u else if x = a + 1 then v else if x = a + 2 then w else z := by
  by_cases h₀ : x = a
  · have h₁ : x ≠ a + 1 := by bv_omega
    have h₂ : x ≠ a + 2 := by bv_omega
    rw [if_neg h₂, if_neg h₁, if_pos h₀, if_pos h₀]
  · by_cases h₁ : x = a + 1
    · have h₂ : x ≠ a + 2 := by bv_omega
      rw [if_neg h₂, if_pos h₁, if_neg h₀, if_pos h₁]
    · rw [if_neg h₁, if_neg h₀, if_neg h₀, if_neg h₁]

/-- Settles O45: one transaction that names no shadow; on a working link its bytes are stored at the channel's limit and
timeout. -/
theorem configureFlipperLogicWritesLimitAndTimeout : Obligations.ConfigureFlipperLogicWritesLimitAndTimeout := by
  unfold Obligations.ConfigureFlipperLogicWritesLimitAndTimeout
  intro c limit timeout s a lo hi
  have ha : cfgAddr c 1 = a := cfgAddr_eq c 1
  have ha₁ : cfgAddr c 2 = a + 1 := ha ▸ (cfgAddr_limit_succ c).symm
  have ha₂ : cfgAddr c 3 = a + 2 := by rw [← cfgAddr_timeout_succ, ha₁, BitVec.add_assoc]; rfl
  have hlo : loByte timeout = lo := loByte_eq timeout
  have hhi : hiByte timeout = hi := hiByte_eq timeout
  obtain ⟨ok, hhost, hok⟩ := converse_single_host ⟨cfgAddr c 1, [limit, loByte timeout, hiByte timeout], .nothing⟩ s
  rw [settle_nothing, ha, hlo, hhi] at hhost
  refine ⟨hostConfigureFlipperLogic Config.device c limit timeout s, ok, exec_hostConfigureFlipperLogic c limit timeout s,
    ?_, converse_isrOnly _ _ s, fun hup => ⟨hok hup, ?_⟩⟩
  · rw [hostConfigureFlipperLogic, ha, hlo, hhi]
    exact hhost
  rw [hostConfigureFlipperLogic_working c limit timeout hup]
  have hread : ∀ x, regRead Config.device x (storeAdvance Config.device (cfgAddr c 3) (hiByte timeout)
      (storeAdvance Config.device (cfgAddr c 2) (loByte timeout) (storeAdvance Config.device (cfgAddr c 1) limit s))) =
      if x = a then limit else if x = a + 1 then lo else if x = a + 2 then hi else regRead Config.device x s := by
    intro x
    simp only [regRead_storeAdvance, ha, ha₁, ha₂, hlo, hhi]
    exact ite_three_addresses a x limit lo hi _
  refine ⟨?_, rfl, ?_, hread⟩
  · have hcursor : nextCursor Config.device (cfgAddr c 3) = a + 3 := by
      rw [nextCursor_device, ha₂, BitVec.add_assoc]
      rfl
    rw [DeviceKept, ← hcursor]
    rfl
  · rw [timeoutOf, memRead_two, le16_toNat, ← loByte_hiByte_toNat timeout]
    refine congrArg₂ (fun x y : Byte => x.toNat + 256 * y.toNat) ((hread _).trans ?_) ((hread _).trans ?_)
    · rw [ha₁, if_neg (by bv_omega), if_pos rfl, hlo]
    · rw [ha₁, if_neg (by bv_omega), if_neg (by bv_omega), if_pos (by bv_omega), hhi]

/-! ## What the ends of a tick's transactions leave of the driver (R244, R249) -/

theorem shadow_setShadow_same (h : HostDriver) (r : LogicalReg) (v : ChipReg) : (h.setShadow r v).shadow r = v := by
  cases r with
  | level c => exact Vector.getElem_set_self _
  | ctrl0 => rfl

theorem shadow_setShadow_other (h : HostDriver) {r q : LogicalReg} (hq : q ≠ r) (v : ChipReg) :
    (h.setShadow r v).shadow q = h.shadow q := by
  cases r with
  | level c =>
    cases q with
    | level d => exact getElem_set_other (fun e => hq (congrArg LogicalReg.level e)) _ _
    | ctrl0 => rfl
  | ctrl0 =>
    cases q with
    | level d => rfl
    | ctrl0 => exact absurd rfl hq

/-- What a transaction's end does to the shadow it is for: an acknowledged one makes the sent value the chip value (R244). -/
theorem settle_regErrand_same (h g : HostDriver) (r : LogicalReg) (ok : Bool) :
    (g.settle (h.regErrand r, ok)).shadow r = ⟨(g.shadow r).loc, if ok then (h.shadow r).loc else (g.shadow r).chip⟩ := by
  cases ok with
  | false => cases r <;> rfl
  | true =>
    refine (shadow_setShadow_same _ r _).trans ?_
    cases r <;> rfl

theorem settle_regErrand_other (h g : HostDriver) {r q : LogicalReg} (hq : q ≠ r) (ok : Bool) :
    (g.settle (h.regErrand r, ok)).shadow q = g.shadow q := by
  cases ok with
  | false => cases q <;> rfl
  | true =>
    refine (shadow_setShadow_other _ hq _).trans ?_
    cases q <;> rfl

theorem settle_regErrand_pendingReset (h g : HostDriver) (r : LogicalReg) (ok : Bool) :
    (g.settle (h.regErrand r, ok)).pendingReset = g.pendingReset := by
  cases ok with
  | false => rfl
  | true => cases r <;> rfl

/-- The end of a code's transaction moves the pending reset on when it was acknowledged (R249). -/
theorem settle_pending (g : HostDriver) (a : Byte) (d : List Byte) (p : Option PendingReset) (ok : Bool) :
    g.settle (⟨a, d, .pending p⟩, ok) =
      { g with traffic := g.traffic ++ [⟨a, d, ok⟩], pendingReset := if ok then p else g.pendingReset } := by
  cases ok <;> rfl

theorem settle_frame (g : HostDriver) (x : Errand × Bool) :
    (g.settle x).busAddr = g.busAddr ∧ (g.settle x).reply = g.reply := by
  unfold HostDriver.settle
  dsimp only
  split
  · exact ⟨take_busAddr _ _, take_reply _ _⟩
  · exact ⟨rfl, rfl⟩

theorem foldl_settle_frame (xs : List (Errand × Bool)) (g : HostDriver) :
    (xs.foldl HostDriver.settle g).busAddr = g.busAddr ∧ (xs.foldl HostDriver.settle g).reply = g.reply := by
  induction xs generalizing g with
  | nil => exact ⟨rfl, rfl⟩
  | cons x xs ih => exact ⟨(ih _).1.trans (settle_frame g x).1, (ih _).2.trans (settle_frame g x).2⟩

theorem foldl_settle_traffic (xs : List (Errand × Bool)) (g : HostDriver) :
    (xs.foldl HostDriver.settle g).traffic = g.traffic ++ xs.map fun x => ⟨x.1.addr, x.1.data, x.2⟩ := by
  induction xs generalizing g with
  | nil => exact (List.append_nil _).symm
  | cons x xs ih =>
    rw [List.foldl_cons, ih, settle_traffic, List.append_assoc]
    rfl

/-- The ends of the transactions for the registers of a list, in order. -/
def settleRegs (h : HostDriver) (rs : List LogicalReg) (oks : List Bool) (g : HostDriver) : HostDriver :=
  ((rs.map h.regErrand).zip oks).foldl HostDriver.settle g

theorem settleRegs_cons (h : HostDriver) (r : LogicalReg) (rs : List LogicalReg) (ok : Bool) (oks : List Bool)
    (g : HostDriver) : settleRegs h (r :: rs) (ok :: oks) g = settleRegs h rs oks (g.settle (h.regErrand r, ok)) := rfl

theorem settleRegs_pendingReset (h : HostDriver) (rs : List LogicalReg) (oks : List Bool) (g : HostDriver) :
    (settleRegs h rs oks g).pendingReset = g.pendingReset := by
  induction rs generalizing oks g with
  | nil => rfl
  | cons r rs ih =>
    cases oks with
    | nil => rfl
    | cons ok oks => rw [settleRegs_cons, ih, settle_regErrand_pendingReset]

theorem settleRegs_shadow_other (h : HostDriver) {q : LogicalReg} {rs : List LogicalReg} (hq : q ∉ rs) (oks : List Bool)
    (g : HostDriver) : (settleRegs h rs oks g).shadow q = g.shadow q := by
  induction rs generalizing oks g with
  | nil => rfl
  | cons r rs ih =>
    rw [List.mem_cons, not_or] at hq
    obtain ⟨hr, hrs⟩ := hq
    cases oks with
    | nil => rfl
    | cons ok oks => rw [settleRegs_cons, ih hrs, settle_regErrand_other _ _ hr]

/-- Each register of the list has its one end. -/
theorem settleRegs_shadow {h : HostDriver} {rs : List LogicalReg} (hrs : rs.Nodup) {oks : List Bool} {g : HostDriver}
    (hg : ∀ r ∈ rs, g.shadow r = h.shadow r) {r : LogicalReg} {ok : Bool} (hr : (r, ok) ∈ rs.zip oks) :
    (settleRegs h rs oks g).shadow r = ⟨(h.shadow r).loc, if ok then (h.shadow r).loc else (h.shadow r).chip⟩ := by
  induction rs generalizing oks g with
  | nil => exact absurd hr List.not_mem_nil
  | cons q rs ih =>
    obtain ⟨hq, hrs⟩ := List.nodup_cons.mp hrs
    cases oks with
    | nil => exact absurd hr List.not_mem_nil
    | cons ok' oks =>
      rw [settleRegs_cons]
      rcases List.mem_cons.mp hr with e | hr
      · obtain ⟨rfl, rfl⟩ := Prod.mk.inj e
        rw [settleRegs_shadow_other h hq, settle_regErrand_same, hg r List.mem_cons_self]
      · refine ih hrs (fun p hp => ?_) hr
        have hne : p ≠ q := fun e => hq (e ▸ hp)
        rw [settle_regErrand_other _ _ hne, hg p (List.mem_cons_of_mem q hp)]

theorem settleRegs_traffic (h : HostDriver) (rs : List LogicalReg) (oks : List Bool) (g : HostDriver) :
    (settleRegs h rs oks g).traffic =
      g.traffic ++ List.zipWith (fun r ok => ⟨r.addr, [(h.shadow r).loc], ok⟩) rs oks := by
  rw [settleRegs, foldl_settle_traffic, List.zip_map_left, List.map_map, ← List.map_uncurry_zip_eq_zipWith]
  rfl

theorem nodup_dirtyRegs (h : HostDriver) : h.dirtyRegs.Nodup := by
  refine List.Nodup.filter _ ?_
  unfold serviceOrder
  refine List.Nodup.append ((List.nodup_finRange 24).map fun c d e => LogicalReg.level.inj e) (List.nodup_singleton _) ?_
  simp [List.Disjoint]

end Sys2Proof.Machine
end

section
/-! PROOFS. The statements about the host driver's service tick (43_host_driver.md rules R244 and R249): what it records and
leaves of the driver, and what it leaves of the device on a working link. -/

namespace Sys2Proof.Machine

open Sys2Proof.Safety

/-! ## The driver after a tick -/

/-- The ends of a tick's transactions: those of the dirty registers, then that of the pending code. -/
theorem foldl_settle_serviceErrands (h : HostDriver) {oks₁ oks₂ : List Bool} (hlen : oks₁.length = h.dirtyRegs.length) :
    (h.serviceErrands.zip (oks₁ ++ oks₂)).foldl HostDriver.settle h =
      (h.resetErrand.zip oks₂).foldl HostDriver.settle (settleRegs h h.dirtyRegs oks₁ h) := by
  rw [HostDriver.serviceErrands, List.zip_append (by rw [List.length_map, hlen]), List.foldl_append]
  rfl

theorem length_serviceErrands (h : HostDriver) :
    h.serviceErrands.length = h.dirtyRegs.length + h.resetErrand.length := by
  rw [HostDriver.serviceErrands, List.length_append, List.length_map]

/-- A tick ends each of its transactions once; on a working link each is acknowledged. -/
theorem service_host (s : State) : ∃ oks₁ oks₂ : List Bool,
    oks₁.length = s.host.dirtyRegs.length ∧ oks₂.length = s.host.resetErrand.length ∧
    (service Config.device s).host =
      (s.host.resetErrand.zip oks₂).foldl HostDriver.settle (settleRegs s.host s.host.dirtyRegs oks₁ s.host) ∧
    (LinkUp s.host.serviceErrands.length s → (∀ ok ∈ oks₁, ok = true) ∧ ∀ ok ∈ oks₂, ok = true) := by
  by_cases hup : LinkUp s.host.serviceErrands.length s
  · have hwork := hup
    obtain ⟨haddr, hrun, hmask, hbeside, hlink⟩ := hwork
    refine ⟨List.replicate s.host.dirtyRegs.length true, List.replicate s.host.resetErrand.length true,
      List.length_replicate, List.length_replicate, ?_,
      fun _ => ⟨fun _ => List.eq_of_mem_replicate, fun _ => List.eq_of_mem_replicate⟩⟩
    rw [← foldl_settle_serviceErrands _ List.length_replicate, List.replicate_append_replicate, ← length_serviceErrands,
      service, converse_working _ _ _ haddr hrun hmask hbeside hlink]
  · let oks := verdicts (nextEnds s.host.serviceErrands.length s.link)
      (sendAll Config.device s.host.serviceErrands s).line.heard
    have hoks : oks.length = s.host.dirtyRegs.length + s.host.resetErrand.length := by
      rw [length_verdicts, length_nextEnds, length_serviceErrands]
    have htake : (oks.take s.host.dirtyRegs.length).length = s.host.dirtyRegs.length := by
      rw [List.length_take, hoks]
      omega
    refine ⟨oks.take s.host.dirtyRegs.length, oks.drop s.host.dirtyRegs.length, htake, ?_, ?_, fun h => absurd h hup⟩
    · rw [List.length_drop, hoks]
      omega
    · rw [← foldl_settle_serviceErrands _ htake, List.take_append_drop]
      rfl

theorem resetErrand_none {h : HostDriver} (hp : h.pendingReset = none) : h.resetErrand = [] := by
  rw [HostDriver.resetErrand, hp]

theorem resetErrand_arm {h : HostDriver} {kind : ResetKind} (hp : h.pendingReset = some ⟨kind, .arm⟩) :
    h.resetErrand = [⟨resetAddr, [armCode], .pending (some ⟨kind, .confirm⟩)⟩] := by
  rw [HostDriver.resetErrand, hp]

theorem resetErrand_confirm {h : HostDriver} {kind : ResetKind} (hp : h.pendingReset = some ⟨kind, .confirm⟩) :
    h.resetErrand = [⟨resetAddr, [confirmCode kind], .pending none⟩] := by
  rw [HostDriver.resetErrand, hp]

/-- The code a tick forwards, if any, is one transaction that names the pending reset (R249). -/
theorem resetErrand_cases (h : HostDriver) :
    h.resetErrand = [] ∨ ∃ b p, h.resetErrand = [⟨resetAddr, [b], .pending p⟩] := by
  rcases hp : h.pendingReset with _ | ⟨kind, _ | _⟩
  · exact .inl (resetErrand_none hp)
  · exact .inr ⟨_, _, resetErrand_arm hp⟩
  · exact .inr ⟨_, _, resetErrand_confirm hp⟩

/-- The code's end leaves the shadows. -/
theorem foldl_settle_resetErrand_shadow (h : HostDriver) (oks : List Bool) (g : HostDriver) (r : LogicalReg) :
    ((h.resetErrand.zip oks).foldl HostDriver.settle g).shadow r = g.shadow r := by
  rcases resetErrand_cases h with e | ⟨b, p, e⟩
  · rw [e, List.zip_nil_left]
    rfl
  · rw [e]
    cases oks with
    | nil => rfl
    | cons ok oks =>
      rw [List.zip_cons_cons, List.zip_nil_left, List.foldl_cons, List.foldl_nil, settle_pending]
      cases r <;> rfl

/-- A tick with a code to forward: the shadows' ends, then the code's. -/
theorem service_host_forward {s : State} {b : Byte} {p : Option PendingReset}
    (hreset : s.host.resetErrand = [⟨resetAddr, [b], .pending p⟩]) : ∃ (oks : List Bool) (ok : Bool),
      oks.length = s.host.dirtyRegs.length ∧
      (service Config.device s).host =
        { settleRegs s.host s.host.dirtyRegs oks s.host with
          traffic := (settleRegs s.host s.host.dirtyRegs oks s.host).traffic ++ [⟨resetAddr, [b], ok⟩]
          pendingReset := if ok then p else s.host.pendingReset } ∧
      (LinkUp s.host.serviceErrands.length s → ok = true) := by
  obtain ⟨oks₁, oks₂, hlen₁, hlen₂, hhost, hup⟩ := service_host s
  rw [hreset] at hhost hlen₂
  obtain ⟨ok, rfl⟩ := List.length_eq_one_iff.mp hlen₂
  refine ⟨oks₁, ok, hlen₁, ?_, fun h => (hup h).2 ok List.mem_cons_self⟩
  rw [hhost, List.zip_cons_cons, List.zip_nil_left, List.foldl_cons, List.foldl_nil, settle_pending, settleRegs_pendingReset]

/-- The records of the code's end. -/
def codeTraffic (h : HostDriver) (oks : List Bool) : List Traffic :=
  (h.resetErrand.zip oks).map fun x => ⟨x.1.addr, x.1.data, x.2⟩

/-- A tick with nothing to send is over at once. -/
theorem service_nothing {s : State} (hclean : s.host.dirtyRegs = []) (hp : s.host.pendingReset = none) :
    service Config.device s = { s with line := .idle, beside := [] } := by
  have herrands : s.host.serviceErrands = [] := by
    rw [HostDriver.serviceErrands, hclean, resetErrand_none hp]
    rfl
  rw [service, herrands]
  rfl

/-- Two drivers that agree on address and reply differ in shadows, traffic and pending reset alone. -/
theorem HostDriver.eq_of_frame {g h : HostDriver} (haddr : g.busAddr = h.busAddr) (hreply : g.reply = h.reply) :
    g = { h with levels := g.levels, ctrl0 := g.ctrl0, traffic := g.traffic, pendingReset := g.pendingReset } := by
  cases g
  cases h
  cases haddr
  cases hreply
  rfl

/-- Settles O46: the ends of the dirty registers' transactions, in order, then the code's. -/
theorem serviceSendsEachDirtyRegisterOnce : Obligations.ServiceSendsEachDirtyRegisterOnce := by
  unfold Obligations.ServiceSendsEachDirtyRegisterOnce
  intro s
  refine ⟨?_, fun hclean hp => congrArg Host.Outcome.next (service_nothing hclean hp)⟩
  obtain ⟨oks₁, oks₂, hlen₁, hlen₂, hhost, -⟩ := service_host s
  have hcodes : ∀ {b : Byte} {p : Option PendingReset}, s.host.resetErrand = [⟨resetAddr, [b], .pending p⟩] →
      ∃ ok : Bool, codeTraffic s.host oks₂ = [⟨resetAddr, [b], ok⟩] ∧
        (service Config.device s).host.pendingReset = if ok then p else s.host.pendingReset := by
    intro b p e
    rw [e] at hlen₂
    obtain ⟨ok, rfl⟩ := List.length_eq_one_iff.mp hlen₂
    refine ⟨ok, by rw [codeTraffic, e]; rfl, ?_⟩
    rw [hhost, e, List.zip_cons_cons, List.zip_nil_left, List.foldl_cons, List.foldl_nil, settle_pending,
      settleRegs_pendingReset]
  refine ⟨service Config.device s, oks₁, codeTraffic s.host oks₂, rfl, hlen₁, ?_, ?_, ?_, ?_, ?_, ?_, ?_, ?_⟩
  · rw [hhost, foldl_settle_traffic, settleRegs_traffic]
    rfl
  · intro r ok hr
    rw [hhost, foldl_settle_resetErrand_shadow]
    exact settleRegs_shadow (nodup_dirtyRegs s.host) (fun _ _ => rfl) hr
  · intro r hr
    rw [hhost, foldl_settle_resetErrand_shadow]
    refine settleRegs_shadow_other s.host (fun hmem => ?_) oks₁ s.host
    rw [mem_dirtyRegs, hr] at hmem
    exact Bool.false_ne_true hmem
  · intro hp
    rw [hhost, codeTraffic, resetErrand_none hp]
    exact ⟨rfl, (settleRegs_pendingReset _ _ _ _).trans hp⟩
  · intro kind hp
    obtain ⟨ok, hcode, hpending⟩ := hcodes (resetErrand_arm hp)
    refine ⟨ok, hcode, ?_⟩
    rw [hpending, hp]
    cases ok <;> rfl
  · intro kind hp
    obtain ⟨ok, hcode, hpending⟩ := hcodes (resetErrand_confirm hp)
    refine ⟨ok, hcode.trans ?_, ?_⟩
    · cases kind <;> rfl
    · rw [hpending, hp]
  · obtain ⟨haddr, hreply⟩ := foldl_settle_frame (s.host.resetErrand.zip oks₂) (settleRegs s.host s.host.dirtyRegs oks₁ s.host)
    obtain ⟨haddr', hreply'⟩ := foldl_settle_frame ((s.host.dirtyRegs.map s.host.regErrand).zip oks₁) s.host
    rw [← hhost] at haddr hreply
    exact HostDriver.eq_of_frame (haddr.trans haddr') (hreply.trans hreply')
  · exact converse_isrOnly _ _ s

/-! ## The device after a tick on a working link -/

theorem levelAddr_injective : ∀ c d : Chan, levelAddr c = levelAddr d → c = d := by decide

theorem levelAddr_ne_ctrl0Addr : ∀ c : Chan, levelAddr c ≠ ctrl0Addr := by decide

theorem addr_injective {r q : LogicalReg} (h : r.addr = q.addr) : r = q := by
  cases r with
  | level c =>
    cases q with
    | level d => exact congrArg LogicalReg.level (levelAddr_injective c d h)
    | ctrl0 => exact absurd h (levelAddr_ne_ctrl0Addr c)
  | ctrl0 =>
    cases q with
    | level d => exact absurd h.symm (levelAddr_ne_ctrl0Addr d)
    | ctrl0 => rfl

/-- One byte written at a logical register is stored there (R137, R138). -/
theorem isrAll_writeEvents_register (r : LogicalReg) (b : Byte) (s : State) :
    isrAll Config.device (writeEvents r.addr [b]) s = { storeAdvance Config.device r.addr b s with bus := .idle } := by
  rw [isrAll_writeEvents, List.map_singleton, isrAll_cons, isrAll_nil, isr_rx_data _ _ _ rfl]
  cases r with
  | level c =>
    simp only [dataByte, LogicalReg.addr, addressClass_levelAddr]
    rfl
  | ctrl0 => rfl

/-- The bus events that send the registers of a list. -/
def registerEvents (h : HostDriver) (rs : List LogicalReg) : List BusEvent :=
  rs.flatMap fun r => writeEvents r.addr [(h.shadow r).loc]

theorem isrAll_registerEvents_cons (h : HostDriver) (r : LogicalReg) (rs : List LogicalReg) (s : State) :
    isrAll Config.device (registerEvents h (r :: rs)) s =
      isrAll Config.device (registerEvents h rs)
        { storeAdvance Config.device r.addr (h.shadow r).loc s with bus := .idle } := by
  rw [registerEvents, List.flatMap_cons, isrAll_append, isrAll_writeEvents_register]
  rfl

/-- Sending registers writes registers, the cursor and the bus state. -/
theorem isrAll_registerEvents_changes (h : HostDriver) (rs : List LogicalReg) (s : State) :
    isrAll Config.device (registerEvents h rs) s =
      { s with
        regs := (isrAll Config.device (registerEvents h rs) s).regs
        cursor := (isrAll Config.device (registerEvents h rs) s).cursor
        bus := (isrAll Config.device (registerEvents h rs) s).bus } := by
  induction rs generalizing s with
  | nil => rfl
  | cons r rs ih =>
    rw [isrAll_registerEvents_cons]
    exact (ih _).trans rfl

/-- The register byte at `x` once the registers of a list have been sent. -/
def sentByte (h : HostDriver) (rs : List LogicalReg) (x : Byte) (s : State) : Byte :=
  (rs.find? fun r => r.addr = x).elim (regRead Config.device x s) fun r => (h.shadow r).loc

theorem upToDateByte_eq (s : State) (x : Byte) : upToDateByte s x = sentByte s.host s.host.dirtyRegs x s := by
  unfold upToDateByte sentByte dirtyRegs
  cases s.host.dirtyRegs.find? fun r => r.addr = x <;> rfl

theorem elim_eq_of_some {α β : Type} {o : Option α} {b : β} {f : α → β} (h : ∀ a, o = some a → f a = b) : o.elim b f = b := by
  cases o with
  | none => rfl
  | some a => exact h a rfl

/-- Sending registers stores each local value at its register; no two registers share an address. -/
theorem regRead_registerEvents (h : HostDriver) (rs : List LogicalReg) (x : Byte) (s : State) :
    regRead Config.device x (isrAll Config.device (registerEvents h rs) s) = sentByte h rs x s := by
  induction rs generalizing s with
  | nil => rfl
  | cons r rs ih =>
    have hstore : regRead Config.device x { storeAdvance Config.device r.addr (h.shadow r).loc s with bus := .idle } =
        if x = r.addr then (h.shadow r).loc else regRead Config.device x s := regRead_storeAdvance _ _ _ _ _
    rw [isrAll_registerEvents_cons, ih, sentByte, sentByte, hstore]
    by_cases hx : r.addr = x
    · rw [List.find?_cons_of_pos (by simpa using hx), if_pos hx.symm]
      refine elim_eq_of_some fun q hfind => ?_
      have hq : q.addr = x := by simpa using List.find?_some hfind
      rw [addr_injective (hq.trans hx.symm)]
    · rw [List.find?_cons_of_neg (by simpa using hx), if_neg (Ne.symm hx)]

/-- A code written at the handshake register is handled there (R136). -/
theorem isrAll_writeEvents_reset (b : Byte) (s : State) :
    isrAll Config.device (writeEvents resetAddr [b]) s =
      fin (wrReset Config.device b { s with cursor := resetAddr, bus := .data }) := by
  rw [isrAll_writeEvents, List.map_singleton, isrAll_cons, isrAll_nil, isr_rx_data _ _ _ rfl, dataByte_at_reset rfl]

theorem isrAll_writeEvents_arm (s : State) :
    isrAll Config.device (writeEvents resetAddr [armCode]) s =
      { s with hs := armHs s.now s.hs, cursor := 0xDE, bus := .idle } :=
  isrAll_writeEvents_reset armCode s

theorem isrAll_writeEvents_confirm (kind : ResetKind) (s : State) :
    isrAll Config.device (writeEvents resetAddr [confirmCode kind]) s =
      { s with hs := confirmHs Config.device kind s.now s.hs, cursor := 0xDE, bus := .idle } := by
  cases kind <;> exact isrAll_writeEvents_reset _ s

/-- A tick on a working link: the dirty registers, then the code. -/
theorem service_working {s : State} (h : LinkUp s.host.serviceErrands.length s) :
    service Config.device s =
      { isrAll Config.device (s.host.resetErrand.flatMap fun x => writeEvents x.addr x.data)
          (isrAll Config.device (registerEvents s.host s.host.dirtyRegs) s) with
        line := .idle
        link := (service Config.device s).link
        host := (service Config.device s).host } := by
  obtain ⟨haddr, hrun, hmask, hbeside, hlink⟩ := h
  have hevents : (s.host.serviceErrands.flatMap fun x => writeEvents x.addr x.data) =
      registerEvents s.host s.host.dirtyRegs ++ s.host.resetErrand.flatMap fun x => writeEvents x.addr x.data := by
    rw [HostDriver.serviceErrands, List.flatMap_append, List.flatMap_map]
    rfl
  rw [service, converse_working _ _ _ haddr hrun hmask hbeside hlink, hevents, isrAll_append]

/-- The code of a tick leaves the registers. -/
theorem isrAll_resetErrand_regs (h : HostDriver) (s : State) :
    (isrAll Config.device (h.resetErrand.flatMap fun x => writeEvents x.addr x.data) s).regs = s.regs := by
  rcases hp : h.pendingReset with _ | ⟨kind, _ | _⟩
  · rw [resetErrand_none hp]
    rfl
  · rw [resetErrand_arm hp, List.flatMap_singleton, isrAll_writeEvents_arm]
  · rw [resetErrand_confirm hp, List.flatMap_singleton, isrAll_writeEvents_confirm]

/-- On a working link a tick brings every register up to date. -/
theorem regRead_service_working {s : State} (h : LinkUp s.host.serviceErrands.length s) (x : Byte) :
    regRead Config.device x (service Config.device s) = upToDateByte s x := by
  rw [upToDateByte_eq, ← regRead_registerEvents]
  refine regRead_congr Config.device x ?_
  rw [service_working h]
  exact isrAll_resetErrand_regs _ _

/-- On a working link a tick leaves nothing dirty. -/
theorem dirtyRegs_service_working {s : State} (h : LinkUp s.host.serviceErrands.length s) :
    (service Config.device s).host.dirtyRegs = [] := by
  obtain ⟨oks₁, oks₂, hlen₁, -, hhost, hup⟩ := service_host s
  refine dirtyRegs_eq_nil fun r => ?_
  rw [hhost, foldl_settle_resetErrand_shadow]
  by_cases hr : r ∈ s.host.dirtyRegs
  · obtain ⟨i, hi, rfl⟩ := List.getElem_of_mem hr
    have hok : oks₁[i] = true := (hup h).1 _ (List.getElem_mem _)
    have hzip : (s.host.dirtyRegs[i], true) ∈ s.host.dirtyRegs.zip oks₁ :=
      List.mem_iff_getElem.mpr ⟨i, by rw [List.length_zip]; omega, by rw [List.getElem_zip, hok]⟩
    rw [settleRegs_shadow (nodup_dirtyRegs s.host) (fun _ _ => rfl) hzip]
    exact bne_self_eq_false _
  · rw [settleRegs_shadow_other _ hr]
    exact Bool.eq_false_iff.mpr fun hd => hr (mem_dirtyRegs.mpr hd)

/-- Settles O47: each dirty register's byte is stored, and its shadow is clean after it. -/
theorem serviceBringsTheDeviceUpToDate : Obligations.ServiceBringsTheDeviceUpToDate := by
  unfold Obligations.ServiceBringsTheDeviceUpToDate
  exact fun s h => ⟨service Config.device s, rfl, dirtyRegs_service_working h, regRead_service_working h⟩

/-- On a working link a tick that forwards a code leaves of the device its registers up to date, the code's effect on the
handshake, and the cursor past it. -/
theorem service_forward_working {s : State} (h : LinkUp s.host.serviceErrands.length s) {b : Byte}
    {p : Option PendingReset} (hreset : s.host.resetErrand = [⟨resetAddr, [b], .pending p⟩]) {hs : State → Handshake}
    (hcode : ∀ u, isrAll Config.device (writeEvents resetAddr [b]) u =
      { u with hs := hs u, cursor := 0xDE, bus := .idle }) :
    DeviceKept 0xDE s (service Config.device s) ∧
    (service Config.device s).hs = hs (isrAll Config.device (registerEvents s.host s.host.dirtyRegs) s) := by
  have hwork := service_working h
  rw [hreset, List.flatMap_singleton, hcode] at hwork
  rw [DeviceKept, hwork, isrAll_registerEvents_changes]
  exact ⟨rfl, rfl⟩

/-- The record of the code is the last of the tick's. -/
theorem service_forward_last {s : State} {b : Byte} {p : Option PendingReset}
    (hreset : s.host.resetErrand = [⟨resetAddr, [b], .pending p⟩]) : ∃ ok : Bool,
      (service Config.device s).host.traffic.getLast? = some ⟨resetAddr, [b], ok⟩ ∧
      (service Config.device s).host.pendingReset = (if ok then p else s.host.pendingReset) ∧
      (LinkUp s.host.serviceErrands.length s → ok = true) := by
  obtain ⟨oks, ok, -, hhost, hok⟩ := service_host_forward hreset
  refine ⟨ok, ?_, ?_, hok⟩
  · rw [hhost]
    exact List.getLast?_concat
  · rw [hhost]

/-- Settles O48: the code is the tick's last transaction; on a working link it meets the handshake as it was. -/
theorem serviceForwardsThePendingReset : Obligations.ServiceForwardsThePendingReset := by
  unfold Obligations.ServiceForwardsThePendingReset
  intro kind s code up
  have hkept := isrAll_registerEvents_changes s.host s.host.dirtyRegs s
  constructor
  · intro hp
    have hreset := resetErrand_arm hp
    obtain ⟨ok, hlast, hpending, hok⟩ := service_forward_last hreset
    refine ⟨service Config.device s, ok, rfl, hlast, ?_, fun h => ⟨hok h, ?_⟩⟩
    · rw [hpending, hp]
      cases ok <;> rfl
    obtain ⟨hdevice, hhs⟩ := service_forward_working h hreset isrAll_writeEvents_arm
    refine ⟨⟨hdevice, regRead_service_working h⟩, ?_⟩
    rw [hhs, hkept]
    by_cases hidle : s.hs = .idle
    · rw [if_pos hidle, hidle]
      rfl
    · rw [if_neg hidle]
      exact armHs_of_ne_idle hidle _
  · intro hp
    have hreset := resetErrand_confirm hp
    obtain ⟨ok, hlast, hpending, hok⟩ := service_forward_last hreset
    refine ⟨service Config.device s, ok, rfl, hlast.trans ?_, hpending.trans (by rw [hp]), fun h => ⟨hok h, ?_⟩⟩
    · cases kind <;> rfl
    obtain ⟨hdevice, hhs⟩ := service_forward_working h hreset (isrAll_writeEvents_confirm kind)
    rw [hkept] at hhs
    refine ⟨⟨hdevice, regRead_service_working h⟩, fun t₀ ht hnow => ?_, fun hlate => ?_⟩
    · rw [hhs, ht]
      exact confirmHs_inWindow ((inWindow_iff s.now t₀).mpr hnow) kind
    · rw [hhs]
      exact confirmHs_late (fun t ht hw => absurd ((inWindow_iff s.now t).mp hw) (Nat.not_lt.mpr (hlate t ht))) kind

end Sys2Proof.Machine
end
